-- ==== Sys2Proof/Word.lean ====
section
/-! DEFINITION. Word.lean: the word types of the engine (00_scope.md R4, R6, R11, R12). -/

namespace Sys2Proof

/-- A byte: 8 bits, bit 0 the least significant (R11). -/
abbrev Byte := BitVec 8

/-- A bus word and a command word: 32 bits (R62, R80). -/
abbrev Word := BitVec 32

/-- A parameter register's value: 64 bits (R30). -/
abbrev DWord := BitVec 64

/-- A block of 16 bytes (R4), held as the number `le(b)` of R12: byte `j` is bits `8j+7..8j`.
`⊕` of R12 is then `^^^`, and `0^128` is `0`. -/
abbrev Block := BitVec 128

/-- A raw key of 32 bytes (R6), held as `le` of its bytes: byte `j` is bits `8j+7..8j`. -/
abbrev RawKey := BitVec 256

/-- The cipher's opaque type `Key` (R5): expanded key material, under a number by which the cipher knows it. The
engine stores it and hands it back to the cipher, and never looks at the number (R100; log 3). -/
structure Key where
  handle : Nat
deriving DecidableEq, Repr

end Sys2Proof
end

