-- ==== Sys2Proof/Syntax.lean ====
section
/-! DEFINITION. Syntax.lean: the commands, one constructor per row of spec/opcode_table.json
(30_encoding.md R81, R82, R84, R85, R88). -/

namespace Sys2Proof

/-- A command of the engine: one constructor per row of the opcode table. `n` is the block count N (R85),
`tagBits` the ARG of a CMAC command (R84), `slotMask` the SLOTMASK of KEYSCHED (R84): bit 0 selects
SLOT0 and bit 1 selects SLOT1. -/
inductive Instr where
  | keysched (slotMask : BitVec 2)
  | cmacDigestRaw (tagBits : BitVec 8) (n : BitVec 16)
  | cmacDigestSlot (tagBits : BitVec 8) (n : BitVec 16)
  | cmacVerifyRaw (tagBits : BitVec 8) (n : BitVec 16)
  | cmacVerifySlot (tagBits : BitVec 8) (n : BitVec 16)
  | cmcEncRaw (n : BitVec 16)
  | cmcEncSlot (n : BitVec 16)
  | cmcDecRaw (n : BitVec 16)
  | cmcDecSlot (n : BitVec 16)
  | xtsEncRaw (n : BitVec 16)
  | xtsEncSlot (n : BitVec 16)
  | xtsDecRaw (n : BitVec 16)
  | xtsDecSlot (n : BitVec 16)
  | hehEncRaw (n : BitVec 16)
  | hehEncSlot (n : BitVec 16)
  | hehDecRaw (n : BitVec 16)
  | hehDecSlot (n : BitVec 16)
  | decEncRaw (n : BitVec 16)
  | decDecRaw (n : BitVec 16)
deriving DecidableEq, Repr

/-- The command's mnemonic, as R89 writes it and the opcode table spells it. -/
def Instr.mnemonic : Instr → String
  | .keysched _ => "KEYSCHED"
  | .cmacDigestRaw _ _ => "CMAC_DIGEST.RAW"
  | .cmacDigestSlot _ _ => "CMAC_DIGEST.SLOT"
  | .cmacVerifyRaw _ _ => "CMAC_VERIFY.RAW"
  | .cmacVerifySlot _ _ => "CMAC_VERIFY.SLOT"
  | .cmcEncRaw _ => "CMC_ENC.RAW"
  | .cmcEncSlot _ => "CMC_ENC.SLOT"
  | .cmcDecRaw _ => "CMC_DEC.RAW"
  | .cmcDecSlot _ => "CMC_DEC.SLOT"
  | .xtsEncRaw _ => "XTS_ENC.RAW"
  | .xtsEncSlot _ => "XTS_ENC.SLOT"
  | .xtsDecRaw _ => "XTS_DEC.RAW"
  | .xtsDecSlot _ => "XTS_DEC.SLOT"
  | .hehEncRaw _ => "HEH_ENC.RAW"
  | .hehEncSlot _ => "HEH_ENC.SLOT"
  | .hehDecRaw _ => "HEH_DEC.RAW"
  | .hehDecSlot _ => "HEH_DEC.SLOT"
  | .decEncRaw _ => "DEC_ENC.RAW"
  | .decDecRaw _ => "DEC_DEC.RAW"

end Sys2Proof
end

