-- ==== Sys2Proof/WellFormed.lean ====
section
/-! DEFINITION. WellFormed.lean: which commands have an encoding (30_encoding.md R84, R87). -/

namespace Sys2Proof

/-- A command the engine can be given: KEYSCHED selects at least one slot (R84: "SLOTMASK = 00 is
illegal"). Every other field value of every other command has an encoding: an unsupported TAGBITS or
block count is a completion code, not an illegal word (R84, R85, R86). -/
def Instr.wellFormed : Instr → Bool
  | .keysched slotMask => slotMask != 0
  | .cmacDigestRaw _ _ => true
  | .cmacDigestSlot _ _ => true
  | .cmacVerifyRaw _ _ => true
  | .cmacVerifySlot _ _ => true
  | .cmcEncRaw _ => true
  | .cmcEncSlot _ => true
  | .cmcDecRaw _ => true
  | .cmcDecSlot _ => true
  | .xtsEncRaw _ => true
  | .xtsEncSlot _ => true
  | .xtsDecRaw _ => true
  | .xtsDecSlot _ => true
  | .hehEncRaw _ => true
  | .hehEncSlot _ => true
  | .hehDecRaw _ => true
  | .hehDecSlot _ => true
  | .decEncRaw _ => true
  | .decDecRaw _ => true

end Sys2Proof
end

