-- ==== Sys2Proof/Decode.lean ====
section
/-! DEFINITION. Decode.lean: decoding a command word, total on all 2^32 words (30_encoding.md R81, R86, R87,
R88), and the encoder of R89. -/

namespace Sys2Proof

/-- Why a command word is illegal (R87), by name. Every reason completes with the one code
ILLEGAL_COMMAND. -/
inductive Illegal where
  /-- OP in 0x0, 0xC, 0xD, 0xE, 0xF -/
  | reservedOp
  /-- RSV not zero -/
  | reservedBits
  /-- ARG not zero for a CMC, XTS, HEH or DEC command -/
  | argNotZero
  /-- KEYSCHED with RAW = 1 -/
  | keyschedRaw
  /-- KEYSCHED with w[15:10] not zero -/
  | keyschedArg
  /-- KEYSCHED with SLOTMASK = 00 -/
  | keyschedNoSlot
  /-- KEYSCHED with N not zero -/
  | keyschedBlockCount
  /-- DEC_ENC or DEC_DEC with RAW = 0 (R220) -/
  | decSlotForm
deriving DecidableEq, Repr

/-- The field OP, `w[3:0]` (R81). -/
def opField (w : Word) : BitVec 4 := w.extractLsb' 0 4

/-- The field RAW, `w[4]` (R81). -/
def rawField (w : Word) : Bool := w.getLsbD 4

/-- The field RSV, `w[7:5]` (R81). -/
def rsvField (w : Word) : BitVec 3 := w.extractLsb' 5 3

/-- The field ARG, `w[15:8]` (R81). -/
def argField (w : Word) : BitVec 8 := w.extractLsb' 8 8

/-- The field N, `w[31:16]` (R81). -/
def nField (w : Word) : BitVec 16 := w.extractLsb' 16 16

/-- KEYSCHED's own checks (R86): RAW = 0, ARG[7:2] = 0, SLOTMASK not 00, N = 0. -/
def decodeKeysched (raw : Bool) (arg : BitVec 8) (n : BitVec 16) : Except Illegal Instr :=
  if raw then .error .keyschedRaw
  else if arg.extractLsb' 2 6 ≠ 0 then .error .keyschedArg
  else if arg.extractLsb' 0 2 = 0 then .error .keyschedNoSlot
  else if n ≠ 0 then .error .keyschedBlockCount
  else .ok (.keysched (arg.extractLsb' 0 2))

/-- A CMC, XTS or HEH command (R86): ARG must be 0; RAW selects the row. -/
def decodeMode (raw : Bool) (arg : BitVec 8) (rawForm slotForm : Instr) : Except Illegal Instr :=
  if arg ≠ 0 then .error .argNotZero
  else if raw then .ok rawForm
  else .ok slotForm

/-- A DEC command (R86, R220): ARG must be 0 and RAW must be 1. -/
def decodeDec (raw : Bool) (arg : BitVec 8) (rawForm : Instr) : Except Illegal Instr :=
  if arg ≠ 0 then .error .argNotZero
  else if raw then .ok rawForm
  else .error .decSlotForm

/-- `Decode(w)` once OP is known to be legal and RSV to be 0 (R82, R86). -/
def decodeOp (op : Nat) (raw : Bool) (arg : BitVec 8) (n : BitVec 16) : Except Illegal Instr :=
  match op with
  | 0x1 => decodeKeysched raw arg n
  | 0x2 => .ok (if raw then .cmacDigestRaw arg n else .cmacDigestSlot arg n)
  | 0x3 => .ok (if raw then .cmacVerifyRaw arg n else .cmacVerifySlot arg n)
  | 0x4 => decodeMode raw arg (.cmcEncRaw n) (.cmcEncSlot n)
  | 0x5 => decodeMode raw arg (.cmcDecRaw n) (.cmcDecSlot n)
  | 0x6 => decodeMode raw arg (.xtsEncRaw n) (.xtsEncSlot n)
  | 0x7 => decodeMode raw arg (.xtsDecRaw n) (.xtsDecSlot n)
  | 0x8 => decodeMode raw arg (.hehEncRaw n) (.hehEncSlot n)
  | 0x9 => decodeMode raw arg (.hehDecRaw n) (.hehDecSlot n)
  | 0xA => decodeDec raw arg (.decEncRaw n)
  | 0xB => decodeDec raw arg (.decDecRaw n)
  | _ => .error .reservedOp

/-- `Decode(w)` of R86: the one command a legal word names, or why the word is illegal. -/
def decode (w : Word) : Except Illegal Instr :=
  let op := (opField w).toNat
  if op = 0 ∨ 0xC ≤ op then .error .reservedOp
  else if rsvField w ≠ 0 then .error .reservedBits
  else decodeOp op (rawField w) (argField w) (nField w)

/-- The assembled word of R89: `(n << 16) | (arg << 8) | (raw << 4) | op`. -/
def assemble (op : BitVec 4) (raw : Bool) (arg : BitVec 8) (n : BitVec 16) : Word :=
  n.setWidth 32 <<< 16 ||| arg.setWidth 32 <<< 8 ||| (BitVec.ofBool raw).setWidth 32 <<< 4
    ||| op.setWidth 32

/-- The command word of a command (R82, R84, R88, R89). -/
def encode : Instr → Word
  | .keysched slotMask => assemble 0x1 false (slotMask.setWidth 8) 0
  | .cmacDigestRaw tagBits n => assemble 0x2 true tagBits n
  | .cmacDigestSlot tagBits n => assemble 0x2 false tagBits n
  | .cmacVerifyRaw tagBits n => assemble 0x3 true tagBits n
  | .cmacVerifySlot tagBits n => assemble 0x3 false tagBits n
  | .cmcEncRaw n => assemble 0x4 true 0 n
  | .cmcEncSlot n => assemble 0x4 false 0 n
  | .cmcDecRaw n => assemble 0x5 true 0 n
  | .cmcDecSlot n => assemble 0x5 false 0 n
  | .xtsEncRaw n => assemble 0x6 true 0 n
  | .xtsEncSlot n => assemble 0x6 false 0 n
  | .xtsDecRaw n => assemble 0x7 true 0 n
  | .xtsDecSlot n => assemble 0x7 false 0 n
  | .hehEncRaw n => assemble 0x8 true 0 n
  | .hehEncSlot n => assemble 0x8 false 0 n
  | .hehDecRaw n => assemble 0x9 true 0 n
  | .hehDecSlot n => assemble 0x9 false 0 n
  | .decEncRaw n => assemble 0xA true 0 n
  | .decDecRaw n => assemble 0xB true 0 n

/-- What the decoder reads from an instruction of `nbits` bits numbered as spec/opcode_table.json numbers
them: the engine's one format is a single 32-bit word (R80), and every bit above `nbits` is 0. -/
def decodeTableWord (nbits w : Nat) : Option Instr :=
  match decode (BitVec.ofNat 32 (w % 2 ^ nbits)) with
  | .ok i => some i
  | .error _ => none

end Sys2Proof
end

