-- ==== Sys2Proof/Machine/Field.lean ====
section
/-! DEFINITION. Machine/Field.lean: the GF(2^128) functions in the little-endian element convention
(40_primitives.md R103 to R106). -/

namespace Sys2Proof.Machine

/-- `α`, multiplication by x (R104): a left shift of `le(b)`, with 0x87 XORed in when bit 127 falls out. -/
def alpha (b : Block) : Block := if b.getLsbD 127 then b <<< 1 ^^^ 0x87 else b <<< 1

/-- The loop of R105 from bit `k` of `b` on, with `fuel` bits to go: `a` is the shifted first factor and `r`
the sum so far. -/
def gfMulLoop (b : Block) (k : Nat) : (fuel : Nat) → (a r : Block) → Block
  | 0, _, r => r
  | fuel + 1, a, r => gfMulLoop b (k + 1) fuel (alpha a) (if b.getLsbD k then r ^^^ a else r)

/-- `a · b`, the product modulo `x^128 + x^7 + x^2 + x + 1` (R105). -/
def gfMul (a b : Block) : Block := gfMulLoop b 0 128 a 0

end Sys2Proof.Machine
end

