-- ==== Sys2Proof/Machine/Bytes.lean ====
section
/-! DEFINITION. Machine/Bytes.lean: bytes and words inside wider values, and the packing of numeric fields
into blocks (00_scope.md R12; 20_memory.md R65, R72; 40_primitives.md R107, R108). -/

namespace Sys2Proof.Machine

/-- Byte `j` of a block (R11, R12). -/
def blockByte (b : Block) (j : Nat) : Byte := b.extractLsb' (8 * j) 8

/-- The little-endian number of the bytes `f 0 .. f (n-1)` (R12). -/
def leSum (f : Nat → Byte) : Nat → Nat
  | 0 => 0
  | n + 1 => leSum f n + (f n).toNat * 2 ^ (8 * n)

/-- The block whose byte `j` is `f j` (R12). -/
def blockOfBytes (f : Nat → Byte) : Block := BitVec.ofNat 128 (leSum f 16)

/-- The block with its bytes in the opposite order, so that `le (byteReverse b) = be b` (R12). -/
def byteReverse (b : Block) : Block := blockOfBytes (fun j => blockByte b (15 - j))

/-- The 32-bit word `m` of a register, least significant word first (R65). -/
def getWord {w : Nat} (v : BitVec w) (m : Nat) : Word := v.extractLsb' (32 * m) 32

/-- A register with its 32-bit word `m` replaced (R65). -/
def setWord {w : Nat} (v : BitVec w) (m : Nat) (x : Word) : BitVec w :=
  v &&& ~~~((BitVec.allOnes 32).setWidth w <<< (32 * m)) ||| x.setWidth w <<< (32 * m)

/-- `Pack64(v)`: bytes 0..7 are `to_le_8(v)`, bytes 8..15 are zero (R107). -/
def pack64 (v : DWord) : Block := v.setWidth 128

/-- `Cat64(a, b)`: `a mod 2^64` little-endian in bytes 0..7, `b mod 2^64` in bytes 8..15 (R108). -/
def cat64 (a b : Nat) : Block := BitVec.ofNat 128 (a % 2 ^ 64 + b % 2 ^ 64 * 2 ^ 64)

end Sys2Proof.Machine
end

