-- ==== Sys2Proof/Config.lean ====
section
/-! DEFINITION. Config.lean: the parameters the spec leaves OPEN (00_scope.md R5, R7, R8, R9), as opaque
constants with no body, and the record `Platform` that hands them to the meanings. -/

namespace Sys2Proof

/-- `CIPHER = (KS_ENC, KS_DEC, E, D)` with the two laws R5 assumes of it, and nothing else: a schedule may fail,
the two schedules of a raw key may give different keys, and `E` and `D` are total. The defaults are there only to
show that such a cipher exists, which an opaque constant of this type asks for (log 3). -/
structure Cipher where
  ksEnc : RawKey → Option Key := fun _ => none
  ksDec : RawKey → Option Key := fun _ => none
  enc : Key → Block → Block := fun _ x => x
  dec : Key → Block → Block := fun _ x => x
  /-- `D(KS_DEC(k), E(KS_ENC(k), x)) = x` whenever both schedules succeed. -/
  dec_enc : ∀ k ke kd x, ksEnc k = some ke → ksDec k = some kd → dec kd (enc ke x) = x := by simp
  /-- `E(KS_ENC(k), D(KS_DEC(k), y)) = y` whenever both schedules succeed. -/
  enc_dec : ∀ k ke kd y, ksEnc k = some ke → ksDec k = some kd → enc ke (dec kd y) = y := by simp
deriving Inhabited

/-- One move of the external key-derivation primitive (R211): ask the engine's MAC callback for the tag
of a message of full blocks (`head` first, so never empty) under a raw key, give the derived key, or fail. -/
inductive KdfMove where
  | mac (key : RawKey) (head : Block) (tail : List Block)
  | derive (key : RawKey)
  | fail
deriving DecidableEq, Repr, Inhabited

/-- What the engine is built against: the capacity of DATA (R7), the cipher `(KS_ENC, KS_DEC, E, D)` (R5)
and the key-derivation primitive as its next move from the parent key, the formatted input and the MAC
replies so far (R9, R211), with a bound on the number of moves one derivation makes. -/
structure Platform where
  maxBlocks : Nat
  ksEnc : RawKey → Option Key
  ksDec : RawKey → Option Key
  enc : Key → Block → Block
  dec : Key → Block → Block
  kdfMove : RawKey → List Block → List Block → KdfMove
  kdfMoves : Nat

namespace Config

/-- MAX_BLOCKS less two. The type says `2 <= MAX_BLOCKS <= 256` (R7), so no configuration that R250 would
refuse for its MAX_BLOCKS exists (log 2). -/
opaque maxBlocksLessTwo : Fin 255

/-- `MAX_BLOCKS`, an OPEN parameter with `2 <= MAX_BLOCKS <= 256` (R7). -/
def maxBlocks : Nat := 2 + maxBlocksLessTwo.val

/-- Which 8 KiB page of the bus the window lies at (R8). -/
opaque basePage : Nat

/-- `BASE`, an OPEN parameter aligned to 8 KiB (R8). -/
def base : Nat := 0x2000 * basePage

/-- `CIPHER`, a model parameter (R5). -/
opaque cipher : Cipher

/-- The external key-derivation primitive (R9, R211): its next move. -/
opaque kdfMove : RawKey → List Block → List Block → KdfMove

/-- The most moves one key derivation makes (R9: KDF is a total function). -/
opaque kdfMoves : Nat

/-- `KS_ENC = derive_encrypt_key` (R5). -/
def ksEnc : RawKey → Option Key := cipher.ksEnc

/-- `KS_DEC = derive_decrypt_key` (R5). -/
def ksDec : RawKey → Option Key := cipher.ksDec

/-- `E = encrypt_block`, total (R5). -/
def encryptBlock : Key → Block → Block := cipher.enc

/-- `D = decrypt_block`, total (R5). -/
def decryptBlock : Key → Block → Block := cipher.dec

/-- The platform this engine is built against. -/
def platform : Platform :=
  { maxBlocks := maxBlocks
    ksEnc := ksEnc
    ksDec := ksDec
    enc := encryptBlock
    dec := decryptBlock
    kdfMove := kdfMove
    kdfMoves := kdfMoves }

end Config

end Sys2Proof
end

