-- ==== Sys2Proof/Machine/State.lean ====
section
/-! DEFINITION. Machine/State.lean: every piece of state the spec gives the machine (10_state.md R20), the
agents around it, the outcomes other than a next state, and the state after reset (R39). -/

namespace Sys2Proof.Machine

/-- Why a run ends in a model fault (60_exceptions.md R250). `off` is an offset relative to BASE (20_memory.md R60).
Each stops the run: safe, since nothing is then claimed of what the hardware does. -/
inductive Fault where
  /-- A host access at a reserved offset, of a width other than 32 bits, or misaligned (R62, R66). Raised by
  the host's bus access before any effect (R251). Safe. -/
  | busError (off : Nat)
  /-- A host access to P0..P3, KEY0, KEY1, TAG or DATA while STATUS.BUSY = 1 (R63, R64). Raised by the host's
  bus access before any effect (R251). Safe. -/
  | busyAccess (off : Nat)
  /-- A host read, or a completion step's read, of a DATA byte not written since reset (R35, R94). Raised by
  the bus read (with the accessed offset) or by the completion step (with the offset of the lowest block
  that has an unwritten byte, log 8). Safe. -/
  | uninit (off : Nat)
deriving DecidableEq, Repr

/-- Why the model gives no meaning. R250's `Refused(what)` names configurations outside the spec; the types of
Config have no such configuration (log 2, 3, 4), so no arm answers with a refusal. -/
inductive Refusal where
  /-- A command whose meaning is not written. Raised by no arm of `exec`: every command has its meaning. Safe. -/
  | notModelled (mnemonic : String)
deriving DecidableEq, Repr

/-- The completion codes of STATUS.ERR (60_exceptions.md R241). Codes 7..15 are never produced. -/
inductive ErrCode where
  | ok
  | invalidBlockCount
  | invalidTagSize
  | invalidBufferLength
  | illegalCommand
  | keyNotScheduled
  | keyRejected
deriving DecidableEq, Repr

/-- The fields of STATUS (R23). The reserved bits 7:4 and 31:12 read 0 and take no write, so they are no
field; `Status.toWord` gives the word a host reads. -/
structure Status where
  busy : Bool
  done : Bool
  valid : Bool
  ovr : Bool
  err : ErrCode
deriving DecidableEq, Repr

/-- The fields of CFG (R29). Bits 31:1 read 0 and take no write. -/
structure Cfg where
  irqen : Bool
deriving DecidableEq, Repr

/-- LATCH (R36): the accepted command and whether it awaits completion. `word` is also what a read of CMD
returns: "the value most recently put into LATCH" (R22), 0 after reset (log 10). -/
structure Latch where
  valid : Bool
  word : Word
deriving DecidableEq, Repr

/-- The contents of a valid key slot (R31): one key in both orientations. -/
structure SlotKeys where
  kenc : Key
  kdec : Key
deriving DecidableEq, Repr

/-- A key slot (R31): `none` is valid = 0, where "kenc and kdec have no value" (R39). -/
abbrev KeySlot := Option SlotKeys

/-- DATA with its WRITTEN marks (R34, R35): the written bytes as (window offset, byte) cells, offsets strictly
rising. An offset that is not listed has its mark clear and no value (log 9). -/
abbrev Memory := List Host.Cell

/-- The width of a host bus access (R62): only 32 bits is allowed. -/
inductive Width where
  | w8
  | w16
  | w32
  | w64
deriving DecidableEq, Repr

/-- A line of a host program (30_encoding.md R90): a bus read, a bus write, or the polling loop `wait`. `off` is
relative to BASE; the window is `0 .. 0x1FFF`, and an offset past it is no register's (20_memory.md R60, log 23). The
value of a write is its 32-bit bus word; a write of another width faults before its value matters. -/
inductive HostLine where
  | rd (width : Width) (off : Nat)
  | wr (width : Width) (off : Nat) (value : Word)
  | wait
deriving DecidableEq, Repr

/-- A value the host has read (R288), and whether a poll of `wait` read it (R90). -/
structure HostRead where
  value : Word
  poll : Bool
deriving DecidableEq, Repr

/-- The host (R69, R90): the lines it has still to run, and the values it has read, oldest first (R288). -/
structure HostAgent where
  program : List HostLine
  reads : List HostRead
deriving DecidableEq, Repr

/-- Who makes a move (R287): the engine, the host, or the reset input. -/
inductive Turn where
  | engine
  | host
  | reset
deriving DecidableEq, Repr

/-- The machine and the agents around it. The first twelve fields are the architectural state of R20 (CAPS is
hardwired and is no field, log 12; CMD's read value is `latch.word`, log 10; WRITTEN is which offsets `data`
lists, log 9). `host` and `turns` are the model's own: the host's program, and whose move comes next when a
schedule is given (R69, R285, log 5). What is observed of a state at the end of a run is `State.observe` (R288). -/
structure State where
  status : Status
  cfg : Cfg
  latch : Latch
  p0 : DWord
  p1 : DWord
  p2 : DWord
  p3 : DWord
  key0 : RawKey
  key1 : RawKey
  tag : Block
  slot0 : KeySlot
  slot1 : KeySlot
  data : Memory
  host : HostAgent
  turns : List Turn
deriving DecidableEq, Repr

/-- The state after reset (R39, R271): the engine idle, every register 0, both slots invalid, no DATA byte
written. The host has no program and no schedule is given (log 5, 7). -/
def State.reset : State :=
  { status := { busy := false, done := false, valid := false, ovr := false, err := .ok }
    cfg := { irqen := false }
    latch := { valid := false, word := 0 }
    p0 := 0
    p1 := 0
    p2 := 0
    p3 := 0
    key0 := 0
    key1 := 0
    tag := 0
    slot0 := none
    slot1 := none
    data := []
    host := { program := [], reads := [] }
    turns := [] }

end Sys2Proof.Machine
end

