-- ==== Sys2Proof/Machine/Flags.lean ====
section
/-! DEFINITION. Machine/Flags.lean: the flags of STATUS, every writer of them (10_state.md R23 to R28, R38),
the word a host reads, and the interrupt output (60_exceptions.md R241, R246). -/

namespace Sys2Proof.Machine

/-- The number of a completion code (R241). -/
def ErrCode.code : ErrCode → BitVec 4
  | .ok => 0
  | .invalidBlockCount => 1
  | .invalidTagSize => 2
  | .invalidBufferLength => 3
  | .illegalCommand => 4
  | .keyNotScheduled => 5
  | .keyRejected => 6

/-- One flag at its bit of the STATUS word. -/
def flagBit (b : Bool) (pos : Nat) : Word := (BitVec.ofBool b).setWidth 32 <<< pos

/-- The word a read of STATUS returns (R23): reserved bits 0. -/
def Status.toWord (st : Status) : Word :=
  flagBit st.busy 0 ||| flagBit st.done 1 ||| flagBit st.valid 2 ||| flagBit st.ovr 3
    ||| st.err.code.setWidth 32 <<< 8

/-- A host write of `w` to STATUS (R23): bit 1 clears DONE, bit 3 clears OVR, no other bit changes. -/
def Status.hostWrite (st : Status) (w : Word) : Status :=
  { st with done := st.done && !w.getLsbD 1, ovr := st.ovr && !w.getLsbD 3 }

/-- STATUS when a command is accepted (R91): BUSY set, DONE, VALID and ERR cleared, OVR unchanged. -/
def Status.accepted (st : Status) : Status :=
  { st with busy := true, done := false, valid := false, err := .ok }

/-- STATUS when a CMD write is dropped (R92): OVR set, nothing else. -/
def Status.overrun (st : Status) : Status := { st with ovr := true }

/-- STATUS when a command completes with a code (R93): ERR, BUSY and DONE written, nothing else. -/
def Status.completed (st : Status) (e : ErrCode) : Status :=
  { st with busy := false, done := true, err := e }

/-- The word a read of CFG returns (R29): reserved bits 0. -/
def Cfg.toWord (c : Cfg) : Word := flagBit c.irqen 0

/-- A host write of `w` to CFG (R29, R64): IRQEN takes bit 0, the other bits are ignored. -/
def Cfg.hostWrite (w : Word) : Cfg := { irqen := w.getLsbD 0 }

/-- The interrupt output (R246): a level, `DONE ∧ IRQEN`. -/
def irq (s : State) : Bool := s.status.done && s.cfg.irqen

end Sys2Proof.Machine
end

