-- ==== Sys2Proof/Machine/Ops.lean ====
section
/-! DEFINITION. Machine/Ops.lean: the named operations over DATA and over the engine's registers: reading and
writing bytes and blocks (20_memory.md R65), acceptance, overrun, completion with and without an error
(30_encoding.md R91 to R94, 60_exceptions.md R243), reset (70_reset_and_hazards.md R270). The engine has no
exceptions (60_exceptions.md R240): a completion with its code is what stands in their place. -/

namespace Sys2Proof.Machine

/-! ### DATA -/

/-- The byte at an offset, or `none` when its WRITTEN mark is clear (R35). -/
def Memory.read : Memory → Nat → Option Byte
  | [], _ => none
  | (a, v) :: m, off => if a = off then some v else Memory.read m off

/-- Write one byte and set its WRITTEN mark (R35), keeping the offsets strictly rising. -/
def Memory.write : Memory → Nat → Byte → Memory
  | [], off, v => [(off, v)]
  | (a, x) :: m, off, v =>
    if off < a then (off, v) :: (a, x) :: m
    else if off = a then (off, v) :: m
    else (a, x) :: Memory.write m off v

/-- The canonical form: offsets strictly rising. No value reads from an unlisted offset, so every listed
entry differs from it. -/
def Memory.sorted : Memory → Bool
  | [] => true
  | [_] => true
  | (a, _) :: (b, y) :: m => decide (a < b) && Memory.sorted ((b, y) :: m)

/-- Every listed offset lies in DATA, `0x1000 .. 0x1000 + 16*MAX_BLOCKS - 1` (R34). -/
def Memory.inData (maxBlocks : Nat) (m : Memory) : Bool :=
  m.all fun c => decide (0x1000 ≤ c.1) && decide (c.1 < 0x1000 + 16 * maxBlocks)

/-- DATA is well formed: canonical, and nothing outside the buffer. -/
def Memory.wf (maxBlocks : Nat) (m : Memory) : Bool := Memory.sorted m && Memory.inData maxBlocks m

/-- `le` of the `n` bytes from an offset on (R12, R65), or `none` if one of them is not written. -/
def Memory.readLe (m : Memory) (off : Nat) : Nat → Option Nat
  | 0 => some 0
  | n + 1 =>
    match Memory.read m off, Memory.readLe m (off + 1) n with
    | some b, some r => some (b.toNat + 256 * r)
    | _, _ => none

/-- Write `to_le_n(v)` to the `n` bytes from an offset on (R12, R65). -/
def Memory.writeLe (m : Memory) (off : Nat) : (n v : Nat) → Memory
  | 0, _ => m
  | n + 1, v => Memory.writeLe (Memory.write m off (BitVec.ofNat 8 v)) (off + 1) n (v / 256)

/-- The window offset of block `i` of DATA (R34). -/
def blockOffset (i : Nat) : Nat := 0x1000 + 16 * i

/-- `In[i]` (R110): block `i`, or `Uninit` if one of its 16 bytes is not written (R94). -/
def readBlock (m : Memory) (i : Nat) : Except Fault Block :=
  match Memory.readLe m (blockOffset i) 16 with
  | some v => .ok (BitVec.ofNat 128 v)
  | none => .error (.uninit (blockOffset i))

/-- The `n` blocks from block `i` on, in order (R110). -/
def readBlocks (m : Memory) (i : Nat) : Nat → Except Fault (List Block)
  | 0 => .ok []
  | n + 1 =>
    match readBlock m i with
    | .error f => .error f
    | .ok b =>
      match readBlocks m (i + 1) n with
      | .error f => .error f
      | .ok bs => .ok (b :: bs)

/-- `DATA.blk[i] <- b` (R110). -/
def writeBlock (m : Memory) (i : Nat) (b : Block) : Memory :=
  Memory.writeLe m (blockOffset i) 16 b.toNat

/-- Write consecutive blocks from block `i` on (R110). -/
def writeBlocks (m : Memory) (i : Nat) : List Block → Memory
  | [] => m
  | b :: bs => writeBlocks (writeBlock m i b) (i + 1) bs

/-! ### The registers -/

/-- The parameter registers (R30). -/
inductive PReg where
  | p0
  | p1
  | p2
  | p3
deriving DecidableEq, Repr

/-- The raw key registers, and with them the slots of the same number (R31, R32). -/
inductive KeyReg where
  | key0
  | key1
deriving DecidableEq, Repr

/-- Read a parameter register. -/
def State.getP (s : State) : PReg → DWord
  | .p0 => s.p0
  | .p1 => s.p1
  | .p2 => s.p2
  | .p3 => s.p3

/-- Write a parameter register. -/
def State.setP (s : State) (r : PReg) (v : DWord) : State :=
  match r with
  | .p0 => { s with p0 := v }
  | .p1 => { s with p1 := v }
  | .p2 => { s with p2 := v }
  | .p3 => { s with p3 := v }

/-- The raw bytes of a key register, as the engine reads them (R32). -/
def State.getKey (s : State) : KeyReg → RawKey
  | .key0 => s.key0
  | .key1 => s.key1

/-- Write a key register. -/
def State.setKey (s : State) (r : KeyReg) (v : RawKey) : State :=
  match r with
  | .key0 => { s with key0 := v }
  | .key1 => { s with key1 := v }

/-- The slot of a key register's number (R31). -/
def State.getSlot (s : State) : KeyReg → KeySlot
  | .key0 => s.slot0
  | .key1 => s.slot1

/-! ### Issue, completion and reset -/

/-- Acceptance of command word `w` (R91): it decodes and checks nothing. -/
def State.accept (s : State) (w : Word) : State :=
  { s with latch := { valid := true, word := w }, status := s.status.accepted }

/-- A CMD write while busy (R92): the word is dropped and OVR is set. -/
def State.overrun (s : State) : State := { s with status := s.status.overrun }

/-- A host write of `w` to CMD (R91, R92). -/
def State.issue (s : State) (w : Word) : State :=
  if s.status.busy then s.overrun else s.accept w

/-- The end of every completion (R93): ERR, BUSY, DONE and LATCH.valid. By itself it is the whole of an error
completion (R243). -/
def State.finish (s : State) (e : ErrCode) : State :=
  { s with status := s.status.completed e, latch := { s.latch with valid := false } }

/-- The completion of a decoded command (R93, R94). `checked` is every error check of R242, giving the keys the
command works with; only when it holds is `work` done, which reads DATA (and may fault, R251) and gives the
state with the effects applied. -/
def complete {κ : Type} (checked : Except ErrCode κ) (work : κ → Except Fault State) (s : State) :
    Host.Outcome State Fault Refusal :=
  match checked with
  | .error e => .next (s.finish e)
  | .ok keys =>
    match work keys with
    | .error f => .fault f
    | .ok s' => .next (s'.finish .ok)

/-- The reset input (R270): every field of the engine at its reset value (R39), a command in flight abandoned.
The host's program, its reads and the schedule are not the engine's (log 15). -/
def State.assertReset (s : State) : State := { State.reset with host := s.host, turns := s.turns }

/-! ### Whose move it is -/

/-- Take the next turn (R69, R285): the schedule's next entry; with no entry left the engine moves while it has
a command to complete, else the host (log 5). -/
def State.takeTurn (s : State) : Turn × State :=
  match s.turns with
  | [] => (if s.latch.valid then .engine else .host, s)
  | t :: ts => (t, { s with turns := ts })

/-- Give the engine the next turn, if it does not have it already. -/
def State.engineNext (s : State) : State :=
  match s.turns with
  | [] => s
  | .engine :: _ => s
  | t :: ts => { s with turns := .engine :: t :: ts }

end Sys2Proof.Machine
end

