-- ==== Sys2Proof/Machine/Operands.lean ====
section
/-! DEFINITION. Machine/Operands.lean: what the commands share in getting their operands: key fetch and the
RAW and SLOT forms (40_primitives.md R100 to R102), the checks on N and TAGBITS (R109, 41_cmac.md R134), the
sector in and out of DATA (R110), and the MAC callback and KDF of DEC (41_cmac.md R137, 45_dec.md R211). -/

namespace Sys2Proof.Machine

/-- The two forms of a command (30_encoding.md R83): raw keys from KEY0/KEY1, or scheduled slots. -/
inductive KeyForm where
  | raw
  | slot
deriving DecidableEq, Repr

/-- The orientation of a scheduled key (R100). -/
inductive Orientation where
  | enc
  | dec
deriving DecidableEq, Repr

/-- KS_ENC or KS_DEC (00_scope.md R5). -/
def schedule (pf : Platform) : Orientation → RawKey → Option Key
  | .enc => pf.ksEnc
  | .dec => pf.ksDec

/-- E or D, each for a key of its own orientation (R100). -/
def crypt (pf : Platform) : Orientation → Key → Block → Block
  | .enc => pf.enc
  | .dec => pf.dec

/-- The key of a slot in one orientation (R31). -/
def SlotKeys.oriented (k : SlotKeys) : Orientation → Key
  | .enc => k.kenc
  | .dec => k.kdec

/-- A key that the cipher or the KDF did not give completes with KEY_REJECTED (R101, 45_dec.md R217). -/
def orRejected {κ : Type} : Option κ → Except ErrCode κ
  | some k => .ok k
  | none => .error .keyRejected

/-- `KeyFetch(cmd, s, o)` (R101). The RAW form schedules the one orientation it asks for and stores nothing
(R102). -/
def keyFetch (pf : Platform) (form : KeyForm) (r : KeyReg) (o : Orientation) (s : State) :
    Except ErrCode Key :=
  match form with
  | .raw => orRejected (schedule pf o (s.getKey r))
  | .slot =>
    match s.getSlot r with
    | none => .error .keyNotScheduled
    | some k => .ok (k.oriented o)

/-- `CheckN(n, min)` (R109). -/
def checkN (pf : Platform) (n min : Nat) : Except ErrCode Unit :=
  if n < min then .error .invalidBlockCount
  else if pf.maxBlocks < n then .error .invalidBufferLength
  else .ok ()

/-- The tag size check of the CMAC commands (R84, R134): 64 or 128 bits. -/
def checkTagBits (tagBits : BitVec 8) : Except ErrCode Unit :=
  if tagBits = 64 ∨ tagBits = 128 then .ok () else .error .invalidTagSize

/-- The sector commands' data movement (R110, R93): read `In[0..n-1]`, and write `f`'s blocks over them. -/
def transformSector (n : Nat) (f : List Block → List Block) (s : State) : Except Fault State :=
  match readBlocks s.data 0 n with
  | .error e => .error e
  | .ok input => .ok { s with data := writeBlocks s.data 0 (f input) }

end Sys2Proof.Machine
end

