-- ==== Sys2Proof/Machine/Cmc.lean ====
section
/-! DEFINITION. Machine/Cmc.lean: CMC, CMC_ENC and CMC_DEC (42_cmc.md R150 to R155). -/

namespace Sys2Proof.Machine

/-- ForwardCBC (R151): `PPP[i] = E(P[i] ⊕ chain)`, the chain being the block before, `chain` for the first. -/
def cbcForward (e : Block → Block) : (chain : Block) → List Block → List Block
  | _, [] => []
  | chain, p :: ps => e (p ^^^ chain) :: cbcForward e (e (p ^^^ chain)) ps

/-- The second pass of decryption (R152): `P[i] = D(PPP[i]) ⊕ PPP[i-1]`, `chain` for the first. -/
def cbcBackward (d : Block → Block) : (chain : Block) → List Block → List Block
  | _, [] => []
  | chain, c :: cs => (d c ^^^ chain) :: cbcBackward d c cs

/-- The mask `M = α(X[0] ⊕ X[N-1])` (R151, R152). -/
def cmcMask (x : List Block) : Block := alpha (x.headD 0 ^^^ x.getLastD 0)

/-- XOR a mask into every block (R151, R152). -/
def xorAll (m : Block) (x : List Block) : List Block := x.map (· ^^^ m)

/-- ReverseCBC (R151): `C[j] = E(CCC[j]) ⊕ CCC[j+1]`, `T` in place of `CCC[N]`. -/
def cmcReverse (e : Block → Block) (t : Block) : List Block → List Block
  | [] => []
  | c :: cs => (e c ^^^ cs.headD t) :: cmcReverse e t cs

/-- The first pass of decryption (R152): `CCC[j] = D(C[j] ⊕ CCC[j+1])`, `T` in place of `CCC[N]`. -/
def cmcUnreverse (d : Block → Block) (t : Block) : List Block → List Block
  | [] => []
  | c :: cs => d (c ^^^ (cmcUnreverse d t cs).headD t) :: cmcUnreverse d t cs

/-- `CMC_Encrypt(K1e, T, P)` (R151), `e` being `E(K1e, ·)`. -/
def cmcEncrypt (e : Block → Block) (t : Block) (p : List Block) : List Block :=
  let ppp := cbcForward e t p
  cmcReverse e t (xorAll (cmcMask ppp) ppp)

/-- `CMC_Decrypt(K1d, T, C)` (R152), `d` being `D(K1d, ·)`. -/
def cmcDecrypt (d : Block → Block) (t : Block) (c : List Block) : List Block :=
  let ccc := cmcUnreverse d t c
  cbcBackward d t (xorAll (cmcMask ccc) ccc)

/-- The error checks of CMC_ENC and CMC_DEC, giving the data key and the tweak key (R153, R154). -/
def cmcCheck (pf : Platform) (form : KeyForm) (o : Orientation) (n : BitVec 16) (s : State) :
    Except ErrCode (Key × Key) :=
  match checkN pf n.toNat 2 with
  | .error e => .error e
  | .ok () =>
    match keyFetch pf form .key0 o s with
    | .error e => .error e
    | .ok k1 =>
      match keyFetch pf form .key1 .enc s with
      | .error e => .error e
      | .ok k2 => .ok (k1, k2)

/-- The tweak `T = E(K2e, Pack64(P0))` of CMC (R150), the same in both directions. -/
def cmcTweak (pf : Platform) (k2 : Key) (s : State) : Block := pf.enc k2 (pack64 s.p0)

/-- CMC_ENC on a platform (R153). -/
def cmcEncCommand (pf : Platform) (form : KeyForm) (n : BitVec 16) (s : State) :
    Host.Outcome State Fault Refusal :=
  complete (cmcCheck pf form .enc n s)
    (fun k => transformSector n.toNat (cmcEncrypt (pf.enc k.1) (cmcTweak pf k.2 s)) s) s

/-- CMC_DEC on a platform (R154). -/
def cmcDecCommand (pf : Platform) (form : KeyForm) (n : BitVec 16) (s : State) :
    Host.Outcome State Fault Refusal :=
  complete (cmcCheck pf form .dec n s)
    (fun k => transformSector n.toNat (cmcDecrypt (pf.dec k.1) (cmcTweak pf k.2 s)) s) s

/-- CMC_ENC.RAW (R153). -/
def execCmcEncRaw (n : BitVec 16) (s : State) : Host.Outcome State Fault Refusal :=
  cmcEncCommand Config.platform .raw n s

/-- CMC_ENC.SLOT (R153). -/
def execCmcEncSlot (n : BitVec 16) (s : State) : Host.Outcome State Fault Refusal :=
  cmcEncCommand Config.platform .slot n s

/-- CMC_DEC.RAW (R154). -/
def execCmcDecRaw (n : BitVec 16) (s : State) : Host.Outcome State Fault Refusal :=
  cmcDecCommand Config.platform .raw n s

/-- CMC_DEC.SLOT (R154). -/
def execCmcDecSlot (n : BitVec 16) (s : State) : Host.Outcome State Fault Refusal :=
  cmcDecCommand Config.platform .slot n s

end Sys2Proof.Machine
end

