-- ==== Sys2Proof/Machine/Cmac.lean ====
section
/-! DEFINITION. Machine/Cmac.lean: CMAC, CMAC_DIGEST and CMAC_VERIFY (41_cmac.md R130 to R137). -/

namespace Sys2Proof.Machine

/-- `dbl(r)` (R130): a left shift of the big-endian view, byte by byte; the carry out of byte 0 XORs 0x87 into
byte 15. -/
def dbl (r : Block) : Block :=
  blockOfBytes fun j =>
    if j = 15 then
      if (blockByte r 0).getLsbD 7 then blockByte r 15 <<< 1 ^^^ 0x87 else blockByte r 15 <<< 1
    else blockByte r j <<< 1 ||| blockByte r (j + 1) >>> 7

/-- The CMAC subkeys (R131) under `e`, the cipher with its key. -/
structure Subkeys where
  subkey1 : Block
  subkey2 : Block
deriving DecidableEq, Repr

/-- The subkeys of a key (R131). Only `subkey1` enters the MAC. -/
def cmacSubkeys (e : Block → Block) : Subkeys :=
  let subkey1 := dbl (e 0)
  { subkey1 := subkey1, subkey2 := dbl subkey1 }

/-- The chain of R132 from state `acc`: every block but the last is plain CBC, the last is also masked with
`subkey1`. -/
def cmacChain (e : Block → Block) (subkey1 : Block) : (acc : Block) → List Block → Block
  | acc, [] => acc
  | acc, [last] => e (acc ^^^ last ^^^ subkey1)
  | acc, m :: next :: rest => cmacChain e subkey1 (e (acc ^^^ m)) (next :: rest)

/-- `CMAC(K, M)` for a message of at least one full block (R132), `e` being `E(K, ·)`. -/
def cmac (e : Block → Block) (message : List Block) : Block :=
  cmacChain e (cmacSubkeys e).subkey1 0 message

/-- `Trunc(s, bits)` (R133): bytes 0..bits/8-1 kept, the rest zero. -/
def trunc (t : Block) (bits : Nat) : Block := (t.setWidth bits).setWidth 128

/-- The error checks of both CMAC commands in their order, giving the MAC key (R134, R136, R242). -/
def cmacCheck (pf : Platform) (form : KeyForm) (tagBits : BitVec 8) (n : BitVec 16) (s : State) :
    Except ErrCode Key :=
  match checkTagBits tagBits with
  | .error e => .error e
  | .ok () =>
    match checkN pf n.toNat 1 with
    | .error e => .error e
    | .ok () => keyFetch pf form .key0 .enc s

/-- The truncated tag of the message in DATA.blk[0..n-1] (R134, R136). -/
def sectorTag (pf : Platform) (k : Key) (tagBits : BitVec 8) (n : BitVec 16) (s : State) : Except Fault Block :=
  match readBlocks s.data 0 n.toNat with
  | .error f => .error f
  | .ok message => .ok (trunc (cmac (pf.enc k) message) tagBits.toNat)

/-- CMAC_DIGEST on a platform (R134): TAG takes the tag, whole. -/
def cmacDigestCommand (pf : Platform) (form : KeyForm) (tagBits : BitVec 8) (n : BitVec 16) (s : State) :
    Host.Outcome State Fault Refusal :=
  complete (cmacCheck pf form tagBits n s)
    (fun k =>
      match sectorTag pf k tagBits n s with
      | .error f => .error f
      | .ok t => .ok { s with tag := t })
    s

/-- CMAC_VERIFY on a platform (R136): VALID says whether all 16 bytes of TAG equal the tag. -/
def cmacVerifyCommand (pf : Platform) (form : KeyForm) (tagBits : BitVec 8) (n : BitVec 16) (s : State) :
    Host.Outcome State Fault Refusal :=
  complete (cmacCheck pf form tagBits n s)
    (fun k =>
      match sectorTag pf k tagBits n s with
      | .error f => .error f
      | .ok t => .ok { s with status := { s.status with valid := decide (t = s.tag) } })
    s

/-- `MAC128(rk, M)` (R137), the MAC callback of DEC's KDF; `none` where the schedule fails. -/
def mac128 (pf : Platform) (rk : RawKey) (message : List Block) : Option Block :=
  match pf.ksEnc rk with
  | none => none
  | some k => some (trunc (cmac (pf.enc k) message) 128)

/-- CMAC_DIGEST.RAW (R134). -/
def execCmacDigestRaw (tagBits : BitVec 8) (n : BitVec 16) (s : State) : Host.Outcome State Fault Refusal :=
  cmacDigestCommand Config.platform .raw tagBits n s

/-- CMAC_DIGEST.SLOT (R134). -/
def execCmacDigestSlot (tagBits : BitVec 8) (n : BitVec 16) (s : State) : Host.Outcome State Fault Refusal :=
  cmacDigestCommand Config.platform .slot tagBits n s

/-- CMAC_VERIFY.RAW (R136). -/
def execCmacVerifyRaw (tagBits : BitVec 8) (n : BitVec 16) (s : State) : Host.Outcome State Fault Refusal :=
  cmacVerifyCommand Config.platform .raw tagBits n s

/-- CMAC_VERIFY.SLOT (R136). -/
def execCmacVerifySlot (tagBits : BitVec 8) (n : BitVec 16) (s : State) : Host.Outcome State Fault Refusal :=
  cmacVerifyCommand Config.platform .slot tagBits n s

end Sys2Proof.Machine
end

