-- ==== Sys2Proof/Machine/Dec.lean ====
section
/-! DEFINITION. Machine/Dec.lean: DEC, DEC_ENC and DEC_DEC (45_dec.md R210 to R220). -/

namespace Sys2Proof.Machine

/-- Run the key-derivation primitive with at most `fuel` moves left, from the MAC replies so far (R211): the
engine answers its MAC calls with MAC128, and a MAC call that fails makes the derivation fail. -/
def kdfRun (pf : Platform) (k : RawKey) (input : List Block) : (fuel : Nat) → (replies : List Block) →
    Option RawKey
  | 0, _ => none
  | fuel + 1, replies =>
    match pf.kdfMove k input replies with
    | .fail => none
    | .derive r => some r
    | .mac rk head tail =>
      match mac128 pf rk (head :: tail) with
      | none => none
      | some t => kdfRun pf k input fuel (replies ++ [t])

/-- `KDF(k, IV, P)` (R9, R211): the formatted input is `[IV, P]`, IV first. -/
def kdf (pf : Platform) (k : RawKey) (iv p : Block) : Option RawKey := kdfRun pf k [iv, p] pf.kdfMoves []

/-- The partition key (R210). -/
def partitionKey (pf : Platform) (s : State) : Option RawKey :=
  kdf pf s.key0 0 (cat64 s.p0.toNat s.p1.toNat)

/-- The rekey-interval divisor `v = floor(2^63 / N) * 2`, exact (R212). -/
def rekeyDivisor (n : Nat) : Nat := 2 ^ 63 / n * 2

/-- The normalized sector counter `floor(sector_counter / v)` (R213). -/
def normalizedCounter (sectorCounter n : Nat) : Nat := sectorCounter / rekeyDivisor n

/-- The sector key under a partition key (R214). -/
def sectorKey (pf : Platform) (pk : RawKey) (n : Nat) (s : State) : Option RawKey :=
  kdf pf pk (cat64 s.p0.toNat 0) (cat64 (normalizedCounter s.p3.toNat n) s.p2.toNat)

/-- The counter block of block `t` (R215): the whole sector counter, reduced to 64 bits. -/
def counterBlock (sector sectorCounter n t : Nat) : Block := cat64 sector (sectorCounter * n + t)

/-- XOR the keystream into the blocks from block `t` on (R216), `e` being `E(Ks, ·)`. -/
def keystreamXor (e : Block → Block) (sector sectorCounter n : Nat) : (t : Nat) → List Block → List Block
  | _, [] => []
  | t, b :: bs => (b ^^^ e (counterBlock sector sectorCounter n t)) :: keystreamXor e sector sectorCounter n (t + 1) bs

/-- The error checks of the DEC commands, giving the keystream key `Ks` (R217, R218): CheckN, then the two KDF
calls and the schedule of the sector key, each of which may reject. -/
def decCheck (pf : Platform) (n : BitVec 16) (s : State) : Except ErrCode Key :=
  match checkN pf n.toNat 1 with
  | .error e => .error e
  | .ok () =>
    match orRejected (partitionKey pf s) with
    | .error e => .error e
    | .ok pk =>
      match orRejected (sectorKey pf pk n.toNat s) with
      | .error e => .error e
      | .ok sk => orRejected (pf.ksEnc sk)

/-- DEC_ENC and DEC_DEC on a platform (R217, R218, R219): the same algorithm both ways. -/
def decCommand (pf : Platform) (n : BitVec 16) (s : State) : Host.Outcome State Fault Refusal :=
  complete (decCheck pf n s)
    (fun ks => transformSector n.toNat (keystreamXor (pf.enc ks) s.p2.toNat s.p3.toNat n.toNat 0) s) s

/-- DEC_ENC.RAW (R218). -/
def execDecEncRaw (n : BitVec 16) (s : State) : Host.Outcome State Fault Refusal :=
  decCommand Config.platform n s

/-- DEC_DEC.RAW (R219). -/
def execDecDecRaw (n : BitVec 16) (s : State) : Host.Outcome State Fault Refusal :=
  decCommand Config.platform n s

end Sys2Proof.Machine
end

