-- ==== Sys2Proof/Machine/Heh.lean ====
section
/-! DEFINITION. Machine/Heh.lean: HEH, HEH_ENC and HEH_DEC (44_heh.md R190 to R196). -/

namespace Sys2Proof.Machine

/-- The accumulator of R192 and R193: over the blocks given, `acc <- (acc ⊕ b[i]) · τ`, from 0. -/
def hehAccumulate (tau : Block) (b : List Block) : Block :=
  b.foldl (fun acc x => gfMul (acc ^^^ x) tau) 0

/-- XOR `Y ⊕ e_i` into block `i`, with `e_{i+1} = α(e_i)` (R191, R192, R193). -/
def hehMaskBlocks (y : Block) : (e : Block) → List Block → List Block
  | _, [] => []
  | e, b :: bs => (b ^^^ y ^^^ e) :: hehMaskBlocks y (alpha e) bs

/-- `ψ` for a tweak `τ`, with `β = α(τ)` and `e_0 = α(β)` (R190, R191, R192). -/
def psi (tau : Block) (b : List Block) : List Block :=
  let beta := alpha tau
  let y := hehAccumulate tau b.dropLast ^^^ b.getLastD 0
  hehMaskBlocks y (alpha beta) b.dropLast ++ [y ^^^ beta]

/-- `ψ⁻¹` for a tweak `τ` (R193). -/
def psiInv (tau : Block) (u : List Block) : List Block :=
  let beta := alpha tau
  let y := u.getLastD 0 ^^^ beta
  let b := hehMaskBlocks y (alpha beta) u.dropLast
  b ++ [y ^^^ hehAccumulate tau b]

/-- `HEH_Encrypt` and `HEH_Decrypt` (R194), `f` being `E(Ke, ·)` or `D(Kd, ·)`: hash, ECB, unhash. -/
def hehTransform (f : Block → Block) (tau : Block) (p : List Block) : List Block :=
  psiInv tau ((psi tau p).map f)

/-- The error checks of HEH_ENC and HEH_DEC (R195, R196), giving the key for `τ` and the key for the ECB stage.
Encryption fetches the ENC orientation only; decryption fetches ENC and then DEC. -/
def hehCheck (pf : Platform) (form : KeyForm) (o : Orientation) (n : BitVec 16) (s : State) :
    Except ErrCode (Key × Key) :=
  match checkN pf n.toNat 2 with
  | .error e => .error e
  | .ok () =>
    match keyFetch pf form .key0 .enc s with
    | .error e => .error e
    | .ok ke =>
      match o with
      | .enc => .ok (ke, ke)
      | .dec =>
        match keyFetch pf form .key0 .dec s with
        | .error e => .error e
        | .ok kd => .ok (ke, kd)

/-- `τ = E(Ke, Pack64(P0))` (R190), the same in both directions. -/
def hehTau (pf : Platform) (ke : Key) (s : State) : Block := pf.enc ke (pack64 s.p0)

/-- HEH_ENC and HEH_DEC on a platform (R195, R196): they differ in the ECB stage's key only. -/
def hehCommand (pf : Platform) (form : KeyForm) (o : Orientation) (n : BitVec 16) (s : State) :
    Host.Outcome State Fault Refusal :=
  complete (hehCheck pf form o n s)
    (fun k => transformSector n.toNat (hehTransform (crypt pf o k.2) (hehTau pf k.1 s)) s) s

/-- HEH_ENC.RAW (R195). -/
def execHehEncRaw (n : BitVec 16) (s : State) : Host.Outcome State Fault Refusal :=
  hehCommand Config.platform .raw .enc n s

/-- HEH_ENC.SLOT (R195). -/
def execHehEncSlot (n : BitVec 16) (s : State) : Host.Outcome State Fault Refusal :=
  hehCommand Config.platform .slot .enc n s

/-- HEH_DEC.RAW (R196). -/
def execHehDecRaw (n : BitVec 16) (s : State) : Host.Outcome State Fault Refusal :=
  hehCommand Config.platform .raw .dec n s

/-- HEH_DEC.SLOT (R196). -/
def execHehDecSlot (n : BitVec 16) (s : State) : Host.Outcome State Fault Refusal :=
  hehCommand Config.platform .slot .dec n s

end Sys2Proof.Machine
end

