-- ==== Sys2Proof/Machine/Keysched.lean ====
section
/-! DEFINITION. Machine/Keysched.lean: KEYSCHED (40_primitives.md R112). -/

namespace Sys2Proof.Machine

/-- Both schedules of one key register (R112): KEY_REJECTED if either fails. -/
def scheduleBoth (pf : Platform) (k : RawKey) : Except ErrCode SlotKeys :=
  match pf.ksEnc k, pf.ksDec k with
  | some ke, some kd => .ok { kenc := ke, kdec := kd }
  | _, _ => .error .keyRejected

/-- The slot of a register after KEYSCHED (R112): the new schedule if the mask selects it, else its old
contents. -/
def scheduleSlot (pf : Platform) (selected : Bool) (k : RawKey) (old : KeySlot) : Except ErrCode KeySlot :=
  if selected then
    match scheduleBoth pf k with
    | .error e => .error e
    | .ok keys => .ok (some keys)
  else .ok old

/-- Both slots after KEYSCHED (R112): no slot changes unless every selected schedule succeeds. -/
def scheduleSlots (pf : Platform) (slotMask : BitVec 2) (s : State) : Except ErrCode (KeySlot × KeySlot) :=
  match scheduleSlot pf (slotMask.getLsbD 0) s.key0 s.slot0 with
  | .error e => .error e
  | .ok slot0 =>
    match scheduleSlot pf (slotMask.getLsbD 1) s.key1 s.slot1 with
    | .error e => .error e
    | .ok slot1 => .ok (slot0, slot1)

/-- KEYSCHED on a platform (R112). -/
def keyschedCommand (pf : Platform) (slotMask : BitVec 2) (s : State) : Host.Outcome State Fault Refusal :=
  complete (scheduleSlots pf slotMask s) (fun slots => .ok { s with slot0 := slots.1, slot1 := slots.2 }) s

/-- KEYSCHED (R112). -/
def execKeysched (slotMask : BitVec 2) (s : State) : Host.Outcome State Fault Refusal :=
  keyschedCommand Config.platform slotMask s

end Sys2Proof.Machine
end

