-- ==== Sys2Proof/Machine/Xts.lean ====
section
/-! DEFINITION. Machine/Xts.lean: XTS, XTS_ENC and XTS_DEC (43_xts.md R170 to R174). -/

namespace Sys2Proof.Machine

/-- The block transform over a sector (R171), `f` being `E(K1e, ·)` or `D(K1d, ·)`: block `i` is masked with
`T[i]` before and after `f`, and `T[i+1] = α(T[i])` (R170). -/
def xtsBlocks (f : Block → Block) : (t : Block) → List Block → List Block
  | _, [] => []
  | t, b :: bs => (f (b ^^^ t) ^^^ t) :: xtsBlocks f (alpha t) bs

/-- The error checks of XTS_ENC and XTS_DEC, giving the data key and the tweak key (R172, R173). -/
def xtsCheck (pf : Platform) (form : KeyForm) (o : Orientation) (n : BitVec 16) (s : State) :
    Except ErrCode (Key × Key) :=
  match checkN pf n.toNat 1 with
  | .error e => .error e
  | .ok () =>
    match keyFetch pf form .key0 o s with
    | .error e => .error e
    | .ok k1 =>
      match keyFetch pf form .key1 .enc s with
      | .error e => .error e
      | .ok k2 => .ok (k1, k2)

/-- The first tweak `T[0] = E(K2e, Pack64(P0))` (R170), the same in both directions. -/
def xtsTweak (pf : Platform) (k2 : Key) (s : State) : Block := pf.enc k2 (pack64 s.p0)

/-- XTS_ENC and XTS_DEC on a platform (R172, R173): they differ in the data key's orientation only. -/
def xtsCommand (pf : Platform) (form : KeyForm) (o : Orientation) (n : BitVec 16) (s : State) :
    Host.Outcome State Fault Refusal :=
  complete (xtsCheck pf form o n s)
    (fun k => transformSector n.toNat (xtsBlocks (crypt pf o k.1) (xtsTweak pf k.2 s)) s) s

/-- XTS_ENC.RAW (R172). -/
def execXtsEncRaw (n : BitVec 16) (s : State) : Host.Outcome State Fault Refusal :=
  xtsCommand Config.platform .raw .enc n s

/-- XTS_ENC.SLOT (R172). -/
def execXtsEncSlot (n : BitVec 16) (s : State) : Host.Outcome State Fault Refusal :=
  xtsCommand Config.platform .slot .enc n s

/-- XTS_DEC.RAW (R173). -/
def execXtsDecRaw (n : BitVec 16) (s : State) : Host.Outcome State Fault Refusal :=
  xtsCommand Config.platform .raw .dec n s

/-- XTS_DEC.SLOT (R173). -/
def execXtsDecSlot (n : BitVec 16) (s : State) : Host.Outcome State Fault Refusal :=
  xtsCommand Config.platform .slot .dec n s

end Sys2Proof.Machine
end

