-- ==== Sys2Proof/Machine/Dispatch.lean ====
section
/-! DEFINITION. Machine/Dispatch.lean: one meaning per command (30_encoding.md R82, R93 `Execute`). -/

namespace Sys2Proof.Machine

def exec (i : Instr) (s : State) : Host.Outcome State Fault Refusal :=
  match i with
  | .keysched slotMask => Sys2Proof.Machine.execKeysched slotMask s
  | .cmacDigestRaw tagBits n => Sys2Proof.Machine.execCmacDigestRaw tagBits n s
  | .cmacDigestSlot tagBits n => Sys2Proof.Machine.execCmacDigestSlot tagBits n s
  | .cmacVerifyRaw tagBits n => Sys2Proof.Machine.execCmacVerifyRaw tagBits n s
  | .cmacVerifySlot tagBits n => Sys2Proof.Machine.execCmacVerifySlot tagBits n s
  | .cmcEncRaw n => Sys2Proof.Machine.execCmcEncRaw n s
  | .cmcEncSlot n => Sys2Proof.Machine.execCmcEncSlot n s
  | .cmcDecRaw n => Sys2Proof.Machine.execCmcDecRaw n s
  | .cmcDecSlot n => Sys2Proof.Machine.execCmcDecSlot n s
  | .xtsEncRaw n => Sys2Proof.Machine.execXtsEncRaw n s
  | .xtsEncSlot n => Sys2Proof.Machine.execXtsEncSlot n s
  | .xtsDecRaw n => Sys2Proof.Machine.execXtsDecRaw n s
  | .xtsDecSlot n => Sys2Proof.Machine.execXtsDecSlot n s
  | .hehEncRaw n => Sys2Proof.Machine.execHehEncRaw n s
  | .hehEncSlot n => Sys2Proof.Machine.execHehEncSlot n s
  | .hehDecRaw n => Sys2Proof.Machine.execHehDecRaw n s
  | .hehDecSlot n => Sys2Proof.Machine.execHehDecSlot n s
  | .decEncRaw n => Sys2Proof.Machine.execDecEncRaw n s
  | .decDecRaw n => Sys2Proof.Machine.execDecDecRaw n s

end Sys2Proof.Machine
end

