-- ==== Sys2Proof/Machine/Engine.lean ====
section
/-! DEFINITION. Machine/Engine.lean: the engine's one move, the completion step (30_encoding.md R93). -/

namespace Sys2Proof.Machine

/-- The completion step (R93): decode the latched word; an illegal word completes with ILLEGAL_COMMAND and no
other effect (R86), a legal one executes. -/
def completionStep (s : State) : Host.Outcome State Fault Refusal :=
  match decode s.latch.word with
  | .error _ => .next (s.finish .illegalCommand)
  | .ok i => exec i s

/-- The engine's turn (R93, R287): the completion step, enabled exactly while LATCH.valid = 1. An idle engine
does nothing (log 6). -/
def engineTurn (s : State) : Host.Outcome State Fault Refusal :=
  if s.latch.valid then completionStep s else .next s

/-- The state with command `w` latched as its acceptance leaves it (R91), and the engine to move. -/
def State.latchCommand (s : State) (w : Word) : State := (s.accept w).engineNext

end Sys2Proof.Machine
end

