-- ==== Sys2Proof/Machine/Bus.lean ====
section
/-! DEFINITION. Machine/Bus.lean: the register window and the host's bus accesses to it (20_memory.md R60 to
R68, 10_state.md R21 to R34, 60_exceptions.md R250, R251). -/

namespace Sys2Proof.Machine

/-- The bus address of an offset (R60). -/
def busAddress (off : Nat) : Nat := Config.base + off

/-- The window offset a bus address falls on, `none` outside the window `BASE .. BASE + 0x1FFF` (R60). -/
def windowOffset (addr : Nat) : Option Nat :=
  if Config.base ≤ addr ∧ addr < Config.base + 0x2000 then some (addr - Config.base) else none

/-- What lies at a window offset (R61). `half` is 0 for a parameter register's low word, 1 for its high word;
`m` is the 32-bit word of a key register or of TAG. -/
inductive WindowReg where
  | caps
  | cmd
  | status
  | cfg
  | param (r : PReg) (half : Nat)
  | key (r : KeyReg) (m : Nat)
  | tag (m : Nat)
  | data
  | reserved
deriving DecidableEq, Repr

/-- The parameter register at `0x010 + 8k` (R30). -/
def pRegAt (k : Nat) : PReg :=
  match k with
  | 0 => .p0
  | 1 => .p1
  | 2 => .p2
  | _ => .p3

/-- The register map (R61), read at an offset that is a multiple of 4. An offset past the window is not listed,
hence reserved (log 23). -/
def windowReg (pf : Platform) (off : Nat) : WindowReg :=
  if off = 0x000 then .caps
  else if off = 0x004 then .cmd
  else if off = 0x008 then .status
  else if off = 0x00C then .cfg
  else if off < 0x030 then .param (pRegAt ((off - 0x010) / 8)) ((off - 0x010) / 4 % 2)
  else if off < 0x040 then .reserved
  else if off < 0x060 then .key .key0 ((off - 0x040) / 4)
  else if off < 0x080 then .key .key1 ((off - 0x060) / 4)
  else if off < 0x090 then .tag ((off - 0x080) / 4)
  else if off < 0x1000 then .reserved
  else if off < 0x1000 + 16 * pf.maxBlocks then .data
  else .reserved

/-- CAPS (R21): MAX_BLOCKS in bits 15:0, KEY_BYTES = 32 in 23:16, BLOCK_BYTES = 16 in 31:24. Hardwired. -/
def capsWord (pf : Platform) : Word := (16 : Byte) ++ (32 : Byte) ++ BitVec.ofNat 16 pf.maxBlocks

/-- The offsets the host may not touch while BUSY (R63, R64): P0..P3, KEY0, KEY1, TAG and DATA. -/
def operandOffset (off : Nat) : Bool :=
  decide (0x010 ≤ off ∧ off ≤ 0x08C ∨ 0x1000 ≤ off)

/-- The checks every host access passes before any effect (R62, R63, R64, R66, R251). -/
def busCheck (pf : Platform) (s : State) (width : Width) (off : Nat) : Except Fault WindowReg :=
  if width ≠ .w32 ∨ off % 4 ≠ 0 ∨ windowReg pf off = .reserved then .error (.busError off)
  else if s.status.busy && operandOffset off then .error (.busyAccess off)
  else .ok (windowReg pf off)

/-- The value of a register of the window (R63); a DATA word with an unwritten byte faults. -/
def readReg (pf : Platform) (s : State) (off : Nat) : WindowReg → Except Fault Word
  | .caps => .ok (capsWord pf)
  | .cmd => .ok s.latch.word
  | .status => .ok s.status.toWord
  | .cfg => .ok s.cfg.toWord
  | .param r half => .ok (getWord (s.getP r) half)
  | .key _ _ => .ok 0
  | .tag m => .ok (getWord s.tag m)
  | .data =>
    match Memory.readLe s.data off 4 with
    | some v => .ok (BitVec.ofNat 32 v)
    | none => .error (.uninit off)
  | .reserved => .error (.busError off)

/-- `MemRead(off, 4)` (R63), and every other read (R62); it changes no state (R67). -/
def busRead (pf : Platform) (s : State) (width : Width) (off : Nat) : Except Fault Word :=
  match busCheck pf s width off with
  | .error f => .error f
  | .ok r => readReg pf s off r

/-- The effect of writing `w` to a register of the window (R64). -/
def writeReg (s : State) (off : Nat) (w : Word) : WindowReg → State
  | .caps => s
  | .cmd => s.issue w
  | .status => { s with status := s.status.hostWrite w }
  | .cfg => { s with cfg := Cfg.hostWrite w }
  | .param r half => s.setP r (setWord (s.getP r) half w)
  | .key r m => s.setKey r (setWord (s.getKey r) m w)
  | .tag m => { s with tag := setWord s.tag m w }
  | .data => { s with data := Memory.writeLe s.data off 4 w.toNat }
  | .reserved => s

/-- `MemWrite(off, 4, w)` (R64), and every other write (R62). -/
def busWrite (pf : Platform) (s : State) (width : Width) (off : Nat) (w : Word) : Except Fault State :=
  match busCheck pf s width off with
  | .error f => .error f
  | .ok r => .ok (writeReg s off w r)

end Sys2Proof.Machine
end

