-- ==== Sys2Proof/Machine/HostPort.lean ====
section
/-! DEFINITION. Machine/HostPort.lean: the host's turn and its program lines (30_encoding.md R90,
20_memory.md R69, 70_reset_and_hazards.md R287, R288). -/

namespace Sys2Proof.Machine

/-- The host keeps a value it has read, and that a poll of `wait` read it or a `rd` (R288). -/
def HostAgent.record (h : HostAgent) (poll : Bool) (v : Word) : HostAgent :=
  { h with reads := h.reads ++ [{ value := v, poll := poll }] }

/-- The host has run its first line (R69). -/
def HostAgent.advance (h : HostAgent) : HostAgent := { h with program := h.program.tail }

/-- One line of the host's program (R90). A read is recorded; `wait` reads STATUS and stays the host's next
line while bit 0 is 1. -/
def hostLine (pf : Platform) (line : HostLine) (s : State) : Host.Outcome State Fault Refusal :=
  match line with
  | .rd width off =>
    match busRead pf s width off with
    | .error f => .fault f
    | .ok v => .next { s with host := s.host.advance.record false v }
  | .wr width off w =>
    match busWrite pf s width off w with
    | .error f => .fault f
    | .ok s' => .next { s' with host := s'.host.advance }
  | .wait =>
    match busRead pf s .w32 0x008 with
    | .error f => .fault f
    | .ok v =>
      if v.getLsbD 0 then .next { s with host := s.host.record true v }
      else .next { s with host := s.host.advance.record true v }

/-- The host's turn (R69, R90): its next line; a host that has run its last line does nothing. -/
def hostTurn (pf : Platform) (s : State) : Host.Outcome State Fault Refusal :=
  match s.host.program with
  | [] => .next s
  | line :: _ => hostLine pf line s

/-! ### The pseudo-lines of R90 -/

/-- `cmd`: write the assembled word of a command to CMD. -/
def cmdLine (i : Instr) : HostLine := .wr .w32 0x004 (encode i)

/-- The `count` writes of the consecutive words of a value, at `off, off+4, off+8, …` (R65, R90). The offsets do not
wrap: a write that runs past the window is at an offset that R61 does not list (log 23). -/
def wordLines {w : Nat} (off : Nat) (v : BitVec w) : (m count : Nat) → List HostLine
  | _, 0 => []
  | m, count + 1 => .wr .w32 (off + 4 * m) (getWord v m) :: wordLines off v (m + 1) count

/-- `wrblk off, <16 bytes>`: four writes, at off, off+4, off+8 and off+12. -/
def wrblkLines (off : Nat) (b : Block) : List HostLine := wordLines off b 0 4

/-- `wrkey KEY0|KEY1, <32 bytes>`: eight writes. -/
def wrkeyLines (r : KeyReg) (k : RawKey) : List HostLine :=
  match r with
  | .key0 => wordLines 0x040 k 0 8
  | .key1 => wordLines 0x060 k 0 8

end Sys2Proof.Machine
end

