-- ==== Sys2Proof/Machine/Step.lean ====
section
/-! DEFINITION. Machine/Step.lean: one move of the machine: the engine's, the host's or the reset input's
(20_memory.md R69, 70_reset_and_hazards.md R270, R285, R287). -/

namespace Sys2Proof.Machine

/-- One move by whoever has the turn. -/
def step (s : State) : Host.Outcome State Fault Refusal :=
  match s.takeTurn with
  | (.engine, s') => engineTurn s'
  | (.host, s') => hostTurn Config.platform s'
  | (.reset, s') => .next s'.assertReset

/-- The state whose next step runs the command word `w`: the engine fetches nothing (R71) and takes its command
from LATCH, so the word is put there as R91's acceptance puts it, and the engine moves next (log 13). -/
def State.withFetchWord (s : State) (nbits w : Nat) : State :=
  s.latchCommand (BitVec.ofNat 32 (w % 2 ^ nbits))

end Sys2Proof.Machine
end

