-- ==== Sys2Proof/Machine/Observe.lean ====
section
/-! DEFINITION. Machine/Observe.lean: the end of a run and its observation (70_reset_and_hazards.md R288). -/

namespace Sys2Proof.Machine

/-- The end of a run of a host program (R288): the host has run its last line and no command is in flight. -/
def Ended (s : State) : Prop := s.host.program = [] ∧ s.latch.valid = false

/-- The run from a state ends in a state: it is there, or its next step leads there. A run whose step is a fault or a
refusal ends nowhere (R288: it is refuted). -/
inductive EndsAt : State → State → Prop where
  | ended {s : State} (h : Ended s) : EndsAt s s
  | next {s t u : State} (h : ¬Ended s) (hs : step s = .next t) (ht : EndsAt t u) : EndsAt s u

/-- What is observed at the end of a run (R288): the state of 10_state.md R20 without WRITTEN, and the values the host
read. `cmd` is the value CMD reads as, `data` the bytes of DATA from offset 0x1000 on. -/
structure Observation where
  caps : Word
  cmd : Word
  status : Status
  cfg : Cfg
  p0 : DWord
  p1 : DWord
  p2 : DWord
  p3 : DWord
  key0 : RawKey
  key1 : RawKey
  tag : Block
  data : List Byte
  slot0 : KeySlot
  slot1 : KeySlot
  latch : Latch
  reads : List Word
deriving DecidableEq, Repr

/-- The read is observed (R288). A poll of `wait` that saw BUSY = 1 is not: how many of those there are says only how
long the run took (log 24). -/
def HostRead.observed (r : HostRead) : Bool := !(r.poll && r.value.getLsbD 0)

/-- The values a host read, oldest first (R288). -/
def HostAgent.observedReads (h : HostAgent) : List Word := (h.reads.filter HostRead.observed).map HostRead.value

/-- The bytes of DATA, where `held` says what the hardware holds in a byte that was never written since reset. -/
def observedData (maxBlocks : Nat) (held : Nat → Byte) (m : Memory) : List Byte :=
  (List.range (16 * maxBlocks)).map fun i => (Memory.read m (0x1000 + i)).getD (held i)

/-- The observation of a state on a platform, `held` being what the hardware holds in the unwritten bytes of DATA. The
spec says nothing of those bytes (R288), so a claim about an observation is for every `held` (log 24). -/
def State.observeOn (pf : Platform) (held : Nat → Byte) (s : State) : Observation :=
  { caps := capsWord pf
    cmd := s.latch.word
    status := s.status
    cfg := s.cfg
    p0 := s.p0
    p1 := s.p1
    p2 := s.p2
    p3 := s.p3
    key0 := s.key0
    key1 := s.key1
    tag := s.tag
    data := observedData pf.maxBlocks held s.data
    slot0 := s.slot0
    slot1 := s.slot1
    latch := s.latch
    reads := s.host.observedReads }

/-- The observation of a state (R288). -/
def State.observe (held : Nat → Byte) (s : State) : Observation := s.observeOn Config.platform held

/-- The run from a state ends, and `o` is an observation at its end (R288). -/
def Observed (s : State) (o : Observation) : Prop := ∃ t held, EndsAt s t ∧ o = t.observe held

end Sys2Proof.Machine
end

