-- ==== Sys2Proof/Safety.lean ====
section
/-! DEFINITION. Safety.lean: what a good state and a safe step are, in the terms the statements use. -/

namespace Sys2Proof.Machine

/-- A step that does not end the run in a model fault (60_exceptions.md R250). -/
def Safe (s : State) : Prop := ∀ f, step s ≠ .fault f

/-- A command that may write STATUS.VALID (10_state.md R26). -/
def isVerify : Instr → Bool
  | .cmacVerifyRaw _ _ => true
  | .cmacVerifySlot _ _ => true
  | .keysched _ => false
  | .cmacDigestRaw _ _ => false
  | .cmacDigestSlot _ _ => false
  | .cmcEncRaw _ => false
  | .cmcEncSlot _ => false
  | .cmcDecRaw _ => false
  | .cmcDecSlot _ => false
  | .xtsEncRaw _ => false
  | .xtsEncSlot _ => false
  | .xtsDecRaw _ => false
  | .xtsDecSlot _ => false
  | .hehEncRaw _ => false
  | .hehEncSlot _ => false
  | .hehDecRaw _ => false
  | .hehDecSlot _ => false
  | .decEncRaw _ => false
  | .decDecRaw _ => false

/-- The command writes TAG (10_state.md R33). -/
def isDigest : Instr → Bool
  | .cmacDigestRaw _ _ => true
  | .cmacDigestSlot _ _ => true
  | .cmacVerifyRaw _ _ => false
  | .cmacVerifySlot _ _ => false
  | .keysched _ => false
  | .cmcEncRaw _ => false
  | .cmcEncSlot _ => false
  | .cmcDecRaw _ => false
  | .cmcDecSlot _ => false
  | .xtsEncRaw _ => false
  | .xtsEncSlot _ => false
  | .xtsDecRaw _ => false
  | .xtsDecSlot _ => false
  | .hehEncRaw _ => false
  | .hehEncSlot _ => false
  | .hehDecRaw _ => false
  | .hehDecSlot _ => false
  | .decEncRaw _ => false
  | .decDecRaw _ => false

/-- Which slots a command may write (10_state.md R31): KEYSCHED those its mask selects, no other command any. -/
def writesSlot : Instr → KeyReg → Bool
  | .keysched slotMask, .key0 => slotMask.getLsbD 0
  | .keysched slotMask, .key1 => slotMask.getLsbD 1
  | .cmacDigestRaw _ _, _ => false
  | .cmacDigestSlot _ _, _ => false
  | .cmacVerifyRaw _ _, _ => false
  | .cmacVerifySlot _ _, _ => false
  | .cmcEncRaw _, _ => false
  | .cmcEncSlot _, _ => false
  | .cmcDecRaw _, _ => false
  | .cmcDecSlot _, _ => false
  | .xtsEncRaw _, _ => false
  | .xtsEncSlot _, _ => false
  | .xtsDecRaw _, _ => false
  | .xtsDecSlot _, _ => false
  | .hehEncRaw _, _ => false
  | .hehEncSlot _, _ => false
  | .hehDecRaw _, _ => false
  | .hehDecSlot _, _ => false
  | .decEncRaw _, _ => false
  | .decDecRaw _, _ => false

/-- How many blocks of DATA a command reads, N (10_state.md R34); KEYSCHED reads none. -/
def blocksRead : Instr → Nat
  | .keysched _ => 0
  | .cmacDigestRaw _ n => n.toNat
  | .cmacDigestSlot _ n => n.toNat
  | .cmacVerifyRaw _ n => n.toNat
  | .cmacVerifySlot _ n => n.toNat
  | .cmcEncRaw n => n.toNat
  | .cmcEncSlot n => n.toNat
  | .cmcDecRaw n => n.toNat
  | .cmcDecSlot n => n.toNat
  | .xtsEncRaw n => n.toNat
  | .xtsEncSlot n => n.toNat
  | .xtsDecRaw n => n.toNat
  | .xtsDecSlot n => n.toNat
  | .hehEncRaw n => n.toNat
  | .hehEncSlot n => n.toNat
  | .hehDecRaw n => n.toNat
  | .hehDecSlot n => n.toNat
  | .decEncRaw n => n.toNat
  | .decDecRaw n => n.toNat

/-- How many blocks of DATA a command writes (10_state.md R34): N for an encryption or decryption, none for
KEYSCHED and the CMAC commands (40_primitives.md R110). -/
def blocksWritten : Instr → Nat
  | .keysched _ => 0
  | .cmacDigestRaw _ _ => 0
  | .cmacDigestSlot _ _ => 0
  | .cmacVerifyRaw _ _ => 0
  | .cmacVerifySlot _ _ => 0
  | .cmcEncRaw n => n.toNat
  | .cmcEncSlot n => n.toNat
  | .cmcDecRaw n => n.toNat
  | .cmcDecSlot n => n.toNat
  | .xtsEncRaw n => n.toNat
  | .xtsEncSlot n => n.toNat
  | .xtsDecRaw n => n.toNat
  | .xtsDecSlot n => n.toNat
  | .hehEncRaw n => n.toNat
  | .hehEncSlot n => n.toNat
  | .hehDecRaw n => n.toNat
  | .hehDecSlot n => n.toNat
  | .decEncRaw n => n.toNat
  | .decDecRaw n => n.toNat

/-- A slot holds what KEYSCHED writes into one: both schedules of one raw key (10_state.md R31), so that `E` and
`D` are only ever called with keys of their own schedule (40_primitives.md R100). -/
def SlotScheduled (slot : KeySlot) : Prop :=
  ∀ k, slot = some k → ∃ rk, Config.ksEnc rk = some k.kenc ∧ Config.ksDec rk = some k.kdec

/-- The invariant of the machine: it holds at reset and every step keeps it. -/
structure MachineInv (s : State) : Prop where
  /-- "LATCH.valid = 1 exactly when STATUS.BUSY = 1" (10_state.md R36). -/
  latch_busy : s.latch.valid = s.status.busy
  /-- While BUSY, STATUS reads as acceptance left it but for OVR (30_encoding.md R91, 10_state.md R25, R26, R28). -/
  busy_flags : s.status.busy = true → s.status.done = false ∧ s.status.valid = false ∧ s.status.err = .ok
  /-- VALID = 1 only after a CMAC_VERIFY that completed with ERR = 0 (10_state.md R26). -/
  valid_verify : s.status.valid = true →
    s.status.err = .ok ∧ ∃ i, decode s.latch.word = .ok i ∧ isVerify i = true
  /-- ERR = ILLEGAL_COMMAND only after a word that does not decode (60_exceptions.md R244). -/
  illegal_word : s.status.err = .illegalCommand → ∃ e, decode s.latch.word = .error e
  /-- DATA keeps its canonical form and nothing is written outside the buffer (10_state.md R34). -/
  data_wf : Memory.wf Config.maxBlocks s.data = true
  slot0_scheduled : SlotScheduled s.slot0
  slot1_scheduled : SlotScheduled s.slot1

end Sys2Proof.Machine
end

