-- ==== Sys2Proof/Certificates/Slice0/Obligations.lean ====
section
/-! DEFINITION. Certificates/Slice0/Obligations.lean: the statements for the provers, and the reference forms
they are stated in. The reference forms are written from the rules with indices, apart from the machine's own
list functions. -/

open Sys2Proof Sys2Proof.Machine

namespace Sys2Proof.Claims

/-! ### What a completion leaves -/

/-- The state a completion with code `e` leaves of the state its effects leave (30_encoding.md R93). -/
def completed (s : State) (e : ErrCode) : State :=
  { s with
    status := { busy := false, done := true, valid := s.status.valid, ovr := s.status.ovr, err := e }
    latch := { valid := false, word := s.latch.word } }

/-- The blocks `p 0 .. p (n-1)` are what DATA.blk[0..n-1] hold, every byte written (40_primitives.md R110). -/
def InputIs (s : State) (n : Nat) (p : Nat → Block) : Prop := ∀ i, i < n → readBlock s.data i = .ok (p i)

/-- The outcome is a completion with ERR = 0 that leaves the blocks `out 0 .. out (n-1)` in DATA, every DATA byte
outside them as it was, and every other field of the state as R93 says. -/
def SectorWritten (s : State) (n : Nat) (out : Nat → Block) (r : Host.Outcome State Fault Refusal) : Prop :=
  ∃ m : Memory, r = .next (completed { s with data := m } .ok) ∧
    (∀ i, i < n → readBlock m i = .ok (out i)) ∧
    (∀ a, ¬(0x1000 ≤ a ∧ a < 0x1000 + 16 * n) → Memory.read m a = Memory.read s.data a)

/-- Block `j` of DATA is the first below `n` with a byte that was never written. -/
def FirstUnwritten (s : State) (n j : Nat) : Prop :=
  j < n ∧ (∃ a, 0x1000 + 16 * j ≤ a ∧ a < 0x1000 + 16 * j + 16 ∧ Memory.read s.data a = none) ∧
    ∀ k, k < j → ∃ b, readBlock s.data k = .ok b

/-- What a command answers that finds block `j` unwritten: Uninit with that block's offset once it has its keys, and
KEY_REJECTED, the check that comes first, where it has not (30_encoding.md R94). -/
def uninitOrRejected (s : State) (j : Nat) (hasKeys : Bool) : Host.Outcome State Fault Refusal :=
  if hasKeys then .fault (.uninit (0x1000 + 16 * j)) else .next (completed s .keyRejected)

/-- What a host sees of the engine, and the engine's own turn, right after reset (10_state.md R39). -/
structure AtReset (t : State) : Prop where
  /-- CAPS reads as in every other state. -/
  caps : ∀ s, busRead Config.platform t .w32 0x000 = busRead Config.platform s .w32 0x000
  cmd : busRead Config.platform t .w32 0x004 = .ok 0
  status : t.status.toWord = 0
  cfg : t.cfg.toWord = 0
  params : ∀ r, t.getP r = 0
  keys : ∀ r, t.getKey r = 0
  tag : t.tag = 0
  slots : ∀ r, t.getSlot r = none
  /-- No DATA byte has a value. -/
  data : ∀ a, Memory.read t.data a = none
  irq : irq t = false
  /-- No command is in flight, so the engine completes none (its idle turn: log 6). -/
  latch : t.latch.valid = false
  idle : engineTurn t = .next t

/-! ### CMAC (41_cmac.md R132, R133) -/

/-- The chain state after `i` blocks of plain CBC. -/
def cmacState (e : Block → Block) (m : Nat → Block) : Nat → Block
  | 0 => 0
  | i + 1 => e (cmacState e m i ^^^ m i)

/-- `CMAC(K, M)` of the message `m 0 .. m (n-1)`. -/
def cmacOf (e : Block → Block) (m : Nat → Block) (n : Nat) : Block :=
  e (cmacState e m (n - 1) ^^^ m (n - 1) ^^^ dbl (e 0))

/-- `Trunc(t, bits)`, byte by byte. -/
def truncated (t : Block) (bits : Nat) : Block :=
  blockOfBytes fun j => if j < bits / 8 then blockByte t j else 0

/-! ### CMC (42_cmc.md R151, R152) -/

/-- `PPP[i]`. -/
def cbcBlock (e : Block → Block) (t : Block) (p : Nat → Block) : Nat → Block
  | 0 => e (p 0 ^^^ t)
  | i + 1 => e (p (i + 1) ^^^ cbcBlock e t p i)

/-- `C[i]` of a sector of `n` blocks. -/
def cmcEncBlock (e : Block → Block) (t : Block) (p : Nat → Block) (n i : Nat) : Block :=
  let m := alpha (cbcBlock e t p 0 ^^^ cbcBlock e t p (n - 1))
  e (cbcBlock e t p i ^^^ m) ^^^ (if i = n - 1 then t else cbcBlock e t p (i + 1) ^^^ m)

/-- `CCC[n-1-k]` of decryption. -/
def cmcUpBlock (d : Block → Block) (t : Block) (c : Nat → Block) (n : Nat) : Nat → Block
  | 0 => d (c (n - 1) ^^^ t)
  | k + 1 => d (c (n - 1 - (k + 1)) ^^^ cmcUpBlock d t c n k)

/-- `P[i]` of a sector of `n` blocks. -/
def cmcDecBlock (d : Block → Block) (t : Block) (c : Nat → Block) (n i : Nat) : Block :=
  let ccc := fun j => cmcUpBlock d t c n (n - 1 - j)
  let m := alpha (ccc 0 ^^^ ccc (n - 1))
  d (ccc i ^^^ m) ^^^ (if i = 0 then t else ccc (i - 1) ^^^ m)

/-! ### XTS (43_xts.md R170, R171) -/

/-- Block `i` under the first tweak `t0`: `T[i] = α^i(T[0])`. -/
def xtsBlock (f : Block → Block) (t0 : Block) (p : Nat → Block) (i : Nat) : Block :=
  f (p i ^^^ alpha^[i] t0) ^^^ alpha^[i] t0

/-! ### HEH (44_heh.md R191, R192, R193, R194) -/

/-- The accumulator after `i` blocks. -/
def hehAcc (tau : Block) (b : Nat → Block) : Nat → Block
  | 0 => 0
  | i + 1 => gfMul (hehAcc tau b i ^^^ b i) tau

/-- Block `i` of `ψ(b[0..n-1])`, with `β = α(τ)` and `e_i = α^(i+2)(τ)`. -/
def psiBlock (tau : Block) (b : Nat → Block) (n i : Nat) : Block :=
  let y := hehAcc tau b (n - 1) ^^^ b (n - 1)
  if i = n - 1 then y ^^^ alpha tau else b i ^^^ y ^^^ alpha^[i + 2] tau

/-- Block `i` of `ψ⁻¹(u[0..n-1])`. -/
def psiInvBlock (tau : Block) (u : Nat → Block) (n i : Nat) : Block :=
  let y := u (n - 1) ^^^ alpha tau
  let b := fun j => u j ^^^ y ^^^ alpha^[j + 2] tau
  if i = n - 1 then y ^^^ hehAcc tau b (n - 1) else b i

/-- Block `i` of `HEH_Encrypt` or `HEH_Decrypt` of a sector of `n` blocks. -/
def hehBlock (f : Block → Block) (tau : Block) (p : Nat → Block) (n i : Nat) : Block :=
  psiInvBlock tau (fun j => f (psiBlock tau p n j)) n i

/-! ### DEC (45_dec.md R210 to R217) -/

/-- `Cat64(a, b)` of two 64-bit fields. -/
def cat (a b : DWord) : Block := (b.setWidth 128 <<< 64) ||| a.setWidth 128

/-- The replies to the KDF's first `i` MAC calls on the formatted input `[iv, p]`, or none if one of the calls fails or
the KDF has no such call: each is `MAC128(rk, M)`, the CMAC of the message under `KS_ENC(rk)` (41_cmac.md R137). -/
def kdfReplies (k : RawKey) (iv p : Block) : (i : Nat) → Option (List Block)
  | 0 => some []
  | i + 1 =>
    match kdfReplies k iv p i with
    | none => none
    | some replies =>
      match Config.kdfMove k [iv, p] replies with
      | .mac rk head tail =>
        match Config.ksEnc rk with
        | some key => some (replies ++ [cmacOf (Config.encryptBlock key) (fun j => (head :: tail).getD j 0)
            (tail.length + 1)])
        | none => none
      | .derive _ => none
      | .fail => none

/-- The key the KDF gives, if any, once its first `i` MAC calls are answered. -/
def kdfAnswer (k : RawKey) (iv p : Block) (i : Nat) : Option RawKey :=
  match kdfReplies k iv p i with
  | none => none
  | some replies =>
    match Config.kdfMove k [iv, p] replies with
    | .derive key => some key
    | .mac _ _ _ => none
    | .fail => none

/-- `KDF(k, IV, P)` (45_dec.md R211), of at most `Config.kdfMoves` moves (log 4). -/
def kdfOf (k : RawKey) (iv p : Block) : Option RawKey :=
  (List.range Config.kdfMoves).findSome? (kdfAnswer k iv p)

/-- The keystream key `Ks` of a sector of `n` blocks: two KDF calls and a schedule, each of which may fail. -/
def decKey (n : Nat) (s : State) : Option Key :=
  match kdfOf s.key0 0 (cat s.p0 s.p1) with
  | none => none
  | some pk =>
    match kdfOf pk (cat s.p0 0)
        (cat (BitVec.ofNat 64 (s.p3.toNat / (2 ^ 63 / n * 2))) s.p2) with
    | none => none
    | some sk => Config.ksEnc sk

/-- Block `t` of the output: the input XORed with the encrypted counter block. -/
def decBlock (e : Block → Block) (s : State) (p : Nat → Block) (n t : Nat) : Block :=
  p t ^^^ e (cat s.p2 (s.p3 * BitVec.ofNat 64 n + BitVec.ofNat 64 t))

/-! ### KEYSCHED (40_primitives.md R112) -/

/-- Both schedules of a raw key, or none if one fails. -/
def bothSchedules (k : RawKey) : Option SlotKeys :=
  match Config.ksEnc k, Config.ksDec k with
  | some ke, some kd => some { kenc := ke, kdec := kd }
  | _, _ => none

/-- A slot after KEYSCHED, or none if a selected schedule fails. -/
def slotAfter (selected : Bool) (k : RawKey) (old : KeySlot) : Option KeySlot :=
  if selected then (bothSchedules k).map some else some old

/-- A 32-bit word of the bus from its four bytes, the lowest offset first (20_memory.md R65). -/
def busWord (b0 b1 b2 b3 : Byte) : Word := b3 ++ b2 ++ b1 ++ b0

end Sys2Proof.Claims

open Sys2Proof.Claims

/-! ## Encoding -/

/-- 30_encoding.md R86, R88, R89: decoding the assembled word of a command gives the command back, with every
operand at every value its encoding admits. -/
def Obligations.DecodeEncodeRoundTrip : Prop := ∀ i : Instr, i.wellFormed = true → decode (encode i) = .ok i

/-- 30_encoding.md R87: a legal word is the word of exactly one well-formed command. -/
def Obligations.LegalWordNamesOneCommand : Prop :=
  ∀ (w : Word) (i : Instr), decode w = .ok i →
    i.wellFormed = true ∧ encode i = w ∧ ∀ j : Instr, j.wellFormed = true → encode j = w → j = i

/-- 30_encoding.md R88, R89: one word of each family, written out from the encoding, decodes to the command it
stands for. -/
def Obligations.SampleWordsDecode : Prop :=
  decode 0x00000301 = .ok (.keysched 3) ∧ decode 0x00044012 = .ok (.cmacDigestRaw 0x40 4) ∧
    decode 0x00034003 = .ok (.cmacVerifySlot 0x40 3) ∧ decode 0x00020014 = .ok (.cmcEncRaw 2) ∧
    decode 0x00020016 = .ok (.xtsEncRaw 2) ∧ decode 0x00020009 = .ok (.hehDecSlot 2) ∧
    decode 0x0002001b = .ok (.decDecRaw 2)

/-! ## Steps -/

/-- 30_encoding.md R93: when the engine has the turn and a command is latched, the step is `exec` of the decoded
command; with no schedule entry left the engine has the turn (the model's choice, log 5). -/
def Obligations.StepRunsDecodedCommand : Prop :=
  ∀ (s : State) (i : Instr), s.latch.valid = true → decode s.latch.word = .ok i →
    (s.turns = [] → step s = exec i s) ∧
    (∀ ts, s.turns = .engine :: ts → step s = exec i { s with turns := ts })

/-- 30_encoding.md R87: the illegal words are exactly those it lists; a latched one completes with ILLEGAL_COMMAND
and no other effect, whatever the schedule that gives the engine the turn (log 5); every other word names exactly one
command. -/
def Obligations.IllegalWordsCompleteAsIllegal : Prop :=
  (∀ w : Word, (∃ e, decode w = .error e) ↔
    (let op := w.toNat % 16
     let raw := w.toNat / 16 % 2
     let arg := w.toNat / 256 % 256
     let n := w.toNat / 65536
     op = 0 ∨ 12 ≤ op ∨ w.toNat / 32 % 8 ≠ 0 ∨ (4 ≤ op ∧ arg ≠ 0) ∨
       (op = 1 ∧ (raw = 1 ∨ arg % 4 = 0 ∨ 4 ≤ arg ∨ n ≠ 0)) ∨ ((op = 10 ∨ op = 11) ∧ raw = 0))) ∧
  (∀ (s : State) (e : Illegal), s.takeTurn.1 = .engine → s.latch.valid = true → decode s.latch.word = .error e →
    step s = .next (completed { s with turns := s.takeTurn.2.turns } .illegalCommand)) ∧
  ∀ w : Word, (∀ e, decode w ≠ .error e) → ∃! i : Instr, i.wellFormed = true ∧ encode i = w

/-- 10_state.md R39: what reset leaves, of the state after reset and of the reset input's step from any state, a command
in flight included. That the idle engine's turn changes nothing is the model's reading of R93 (log 6), and whose
turn it is the model's schedule (log 5). -/
def Obligations.ResetValues : Prop :=
  AtReset State.reset ∧ ∀ s : State, s.takeTurn.1 = .reset → ∃ t, step s = .next t ∧ AtReset t

/-- 70_reset_and_hazards.md R270: the reset input puts every field of the engine to its reset value whatever the
state, a command in flight included; the host's program and reads and the schedule stay (log 15). -/
def Obligations.ResetInputResetsEngine : Prop :=
  ∀ (s : State) (ts : List Turn), s.turns = .reset :: ts →
    step s = .next { State.reset with host := s.host, turns := ts }

/-- The invariant holds at reset. -/
def Obligations.InvAtReset : Prop := MachineInv State.reset

/-- Every step keeps the invariant, from every state that has it. -/
def Obligations.StepKeepsInv : Prop := ∀ s t : State, MachineInv s → step s = .next t → MachineInv t

/-- 30_encoding.md R91, R92: a host write to CMD is accepted while idle; while busy it sets OVR and changes nothing
else. -/
def Obligations.CmdWriteIssuesOrOverruns : Prop :=
  ∀ (s : State) (w : Word), busWrite Config.platform s .w32 0x004 w = .ok
    (if s.status.busy then { s with status := { s.status with ovr := true } }
     else { s with
       latch := { valid := true, word := w }
       status := { busy := true, done := false, valid := false, ovr := s.status.ovr, err := .ok } })

/-- 30_encoding.md R90, 20_memory.md R67: the host's turn, under every schedule that gives it one, runs its next line. A
read records the value and changes nothing else; a write has the access's effect; `wait` reads STATUS and stays the
next line while BUSY = 1, and a poll that sees BUSY = 1 leaves the observation of 70_reset_and_hazards.md R288 as it
is (log 24). A fault of the access ends the run. That the state keeps the host's lines and reads is the model's
choice (log 7), and so is the schedule (log 5). -/
def Obligations.HostTurnRunsNextLine : Prop :=
  ∀ (s : State) (rest : List HostLine), s.takeTurn.1 = .host →
    (∀ width off, s.host.program = .rd width off :: rest → step s =
      match busRead Config.platform s width off with
      | .ok v => .next { s with
          turns := s.takeTurn.2.turns
          host := { program := rest, reads := s.host.reads ++ [{ value := v, poll := false }] } }
      | .error f => .fault f) ∧
    (∀ width off w, s.host.program = .wr width off w :: rest → step s =
      match busWrite Config.platform { s with turns := s.takeTurn.2.turns } width off w with
      | .ok t => .next { t with host := { program := rest, reads := s.host.reads } }
      | .error f => .fault f) ∧
    (s.host.program = .wait :: rest → step s = .next { s with
      turns := s.takeTurn.2.turns
      host := { program := if s.status.busy then .wait :: rest else rest,
                reads := s.host.reads ++ [{ value := s.status.toWord, poll := true }] } }) ∧
    (s.host.program = .wait :: rest → s.status.busy = true →
      ∀ t held, step s = .next t → t.observe held = s.observe held)

/-! ## The register window -/

/-- 20_memory.md R62, R66: an access of another width, misaligned or at a reserved offset is BusError, for reads
and writes, busy or not. That an offset past the window, which R61 does not list, is reserved too is the model's
reading (log 23). -/
def Obligations.BadAccessIsBusError : Prop :=
  ∀ (s : State) (width : Width) (off : Nat) (w : Word),
    (width ≠ .w32 ∨ off % 4 ≠ 0 ∨ (0x030 ≤ off ∧ off < 0x040) ∨
      (0x090 ≤ off ∧ off < 0x1000) ∨ 0x1000 + 16 * Config.maxBlocks ≤ off) →
    busRead Config.platform s width off = .error (.busError off) ∧
      busWrite Config.platform s width off w = .error (.busError off)

/-- 20_memory.md R63, R64: while BUSY, P0..P3, KEY0, KEY1, TAG and DATA cannot be accessed. -/
def Obligations.OperandAccessWhileBusyFaults : Prop :=
  ∀ (s : State) (off : Nat) (w : Word), s.status.busy = true → off % 4 = 0 →
    ((0x010 ≤ off ∧ off < 0x030) ∨ (0x040 ≤ off ∧ off < 0x090) ∨
      (0x1000 ≤ off ∧ off < 0x1000 + 16 * Config.maxBlocks)) →
    busRead Config.platform s .w32 off = .error (.busyAccess off) ∧
      busWrite Config.platform s .w32 off w = .error (.busyAccess off)

/-- 10_state.md R21: CAPS holds MAX_BLOCKS, 32 and 16 in its three fields in every state, and writes to it are
ignored. -/
def Obligations.CapsIsHardwired : Prop :=
  ∀ (s : State) (w : Word), ∃ v, busRead Config.platform s .w32 0x000 = .ok v ∧
    v.toNat % 2 ^ 16 = Config.maxBlocks ∧ v.toNat / 2 ^ 16 % 2 ^ 8 = 32 ∧ v.toNat / 2 ^ 24 = 16 ∧
    busWrite Config.platform s .w32 0x000 w = .ok s

/-- 10_state.md R22, R23, R29: in every state, busy or not, CMD reads as the last latched word, CFG as IRQEN, and
STATUS as its fields, every other bit 0. -/
def Obligations.ControlRegisterReads : Prop :=
  ∀ s : State, busRead Config.platform s .w32 0x004 = .ok s.latch.word ∧
    busRead Config.platform s .w32 0x00C = .ok (if s.cfg.irqen then 1 else 0) ∧
    ∃ v, busRead Config.platform s .w32 0x008 = .ok v ∧
    v.getLsbD 0 = s.status.busy ∧ v.getLsbD 1 = s.status.done ∧ v.getLsbD 2 = s.status.valid ∧
    v.getLsbD 3 = s.status.ovr ∧ v.extractLsb' 8 4 = s.status.err.code ∧
    v.extractLsb' 4 4 = 0 ∧ v.extractLsb' 12 20 = 0

/-- 20_memory.md R63: what P0..P3, KEY0, KEY1 and TAG of an idle engine read as. -/
def Obligations.IdleOperandReads : Prop :=
  ∀ s : State, s.status.busy = false →
    busRead Config.platform s .w32 0x010 = .ok (s.p0.setWidth 32) ∧
    busRead Config.platform s .w32 0x014 = .ok ((s.p0 >>> 32).setWidth 32) ∧
    busRead Config.platform s .w32 0x018 = .ok (s.p1.setWidth 32) ∧
    busRead Config.platform s .w32 0x01C = .ok ((s.p1 >>> 32).setWidth 32) ∧
    busRead Config.platform s .w32 0x020 = .ok (s.p2.setWidth 32) ∧
    busRead Config.platform s .w32 0x024 = .ok ((s.p2 >>> 32).setWidth 32) ∧
    busRead Config.platform s .w32 0x028 = .ok (s.p3.setWidth 32) ∧
    busRead Config.platform s .w32 0x02C = .ok ((s.p3 >>> 32).setWidth 32) ∧
    (∀ off : Nat, 0x040 ≤ off → off < 0x080 → off % 4 = 0 →
      busRead Config.platform s .w32 off = .ok 0) ∧
    (∀ m, m < 4 → busRead Config.platform s .w32 ((0x080 + 4 * m)) =
      .ok (busWord (blockByte s.tag (4 * m)) (blockByte s.tag (4 * m + 1)) (blockByte s.tag (4 * m + 2))
        (blockByte s.tag (4 * m + 3))))

/-- 20_memory.md R63, 10_state.md R35: a DATA word of an idle engine reads as its four bytes, the lowest offset in
bits 7:0, and faults with Uninit if one of them was never written. -/
def Obligations.IdleDataReads : Prop :=
  ∀ (s : State) (off : Nat), s.status.busy = false → off % 4 = 0 → 0x1000 ≤ off →
    off < 0x1000 + 16 * Config.maxBlocks →
    busRead Config.platform s .w32 off =
      match Memory.read s.data off, Memory.read s.data (off + 1),
        Memory.read s.data (off + 2), Memory.read s.data (off + 3) with
      | some b0, some b1, some b2, some b3 => .ok (busWord b0 b1 b2 b3)
      | _, _, _, _ => .error (.uninit off)

/-- 20_memory.md R64: what writes to STATUS, CFG (in every state) and P0..P3 (of an idle engine) do. -/
def Obligations.ControlAndParameterWrites : Prop :=
  ∀ (s : State) (w : Word),
    busWrite Config.platform s .w32 0x008 w = .ok { s with status := { s.status with
      done := s.status.done && !w.getLsbD 1, ovr := s.status.ovr && !w.getLsbD 3 } } ∧
    busWrite Config.platform s .w32 0x00C w = .ok { s with cfg := { irqen := w.getLsbD 0 } } ∧
    (s.status.busy = false →
      busWrite Config.platform s .w32 0x010 w = .ok { s with p0 := (s.p0 >>> 32).setWidth 32 ++ w } ∧
      busWrite Config.platform s .w32 0x014 w = .ok { s with p0 := w ++ s.p0.setWidth 32 } ∧
      busWrite Config.platform s .w32 0x018 w = .ok { s with p1 := (s.p1 >>> 32).setWidth 32 ++ w } ∧
      busWrite Config.platform s .w32 0x01C w = .ok { s with p1 := w ++ s.p1.setWidth 32 } ∧
      busWrite Config.platform s .w32 0x020 w = .ok { s with p2 := (s.p2 >>> 32).setWidth 32 ++ w } ∧
      busWrite Config.platform s .w32 0x024 w = .ok { s with p2 := w ++ s.p2.setWidth 32 } ∧
      busWrite Config.platform s .w32 0x028 w = .ok { s with p3 := (s.p3 >>> 32).setWidth 32 ++ w } ∧
      busWrite Config.platform s .w32 0x02C w = .ok { s with p3 := w ++ s.p3.setWidth 32 })

/-- 20_memory.md R64, R65: a write to word `m` of KEY0, KEY1 or TAG puts the word's bytes, bits 7:0 first, at bytes
`4m .. 4m+3` and keeps the others; the slots are no part of it (10_state.md R31). -/
def Obligations.KeyAndTagWrites : Prop :=
  ∀ (s : State) (w : Word) (m : Nat), s.status.busy = false →
    (m < 8 → ∃ k, busWrite Config.platform s .w32 ((0x040 + 4 * m)) w = .ok { s with key0 := k } ∧
      ∀ j, j < 32 → k.extractLsb' (8 * j) 8 =
        if 4 * m ≤ j ∧ j < 4 * m + 4 then w.extractLsb' (8 * (j - 4 * m)) 8 else s.key0.extractLsb' (8 * j) 8) ∧
    (m < 8 → ∃ k, busWrite Config.platform s .w32 ((0x060 + 4 * m)) w = .ok { s with key1 := k } ∧
      ∀ j, j < 32 → k.extractLsb' (8 * j) 8 =
        if 4 * m ≤ j ∧ j < 4 * m + 4 then w.extractLsb' (8 * (j - 4 * m)) 8 else s.key1.extractLsb' (8 * j) 8) ∧
    (m < 4 → ∃ t, busWrite Config.platform s .w32 ((0x080 + 4 * m)) w = .ok { s with tag := t } ∧
      ∀ j, j < 16 → blockByte t j =
        if 4 * m ≤ j ∧ j < 4 * m + 4 then w.extractLsb' (8 * (j - 4 * m)) 8 else blockByte s.tag j)

/-- 20_memory.md R64, R65: a write to a DATA word of an idle engine writes its four bytes, bits 7:0 at the lowest
offset, and marks them written; every other byte of DATA and everything else is unchanged, and the same word
reads back. -/
def Obligations.DataWriteStoresFourBytes : Prop :=
  ∀ (s : State) (off : Nat) (w : Word), s.status.busy = false → off % 4 = 0 → 0x1000 ≤ off →
    off < 0x1000 + 16 * Config.maxBlocks →
    ∃ m, busWrite Config.platform s .w32 off w = .ok { s with data := m } ∧
      (∀ j, j < 4 → Memory.read m (off + j) = some (w.extractLsb' (8 * j) 8)) ∧
      (∀ a, a < off ∨ off + 4 ≤ a → Memory.read m a = Memory.read s.data a) ∧
      busRead Config.platform { s with data := m } .w32 off = .ok w

/-- 10_state.md R34, 00_scope.md R11: byte `j` of block `i` of DATA lies at window offset `0x1000 + 16*i + j`. -/
def Obligations.BlockBytesLieAtTheirOffsets : Prop :=
  ∀ (m : Memory) (i : Nat) (b : Block), readBlock m i = .ok b ↔
    ∀ j, j < 16 → Memory.read m (0x1000 + 16 * i + j) = some (blockByte b j)

/-- 10_state.md R31, R32: no bus read tells KEY0, KEY1, SLOT0 or SLOT1 apart from any other contents. -/
def Obligations.KeysAreNotReadable : Prop :=
  ∀ (s : State) (k0 k1 : RawKey) (sl0 sl1 : KeySlot) (width : Width) (off : Nat),
    busRead Config.platform { s with key0 := k0, key1 := k1, slot0 := sl0, slot1 := sl1 } width off =
      busRead Config.platform s width off

/-! ## Completion -/

/-- 60_exceptions.md R246: `irq` is DONE and IRQEN, and a completion asserts it exactly when IRQEN = 1, with or
without an error. -/
def Obligations.IrqFollowsDoneAndEnable : Prop :=
  (∀ s : State, irq s = true ↔ s.status.done = true ∧ s.cfg.irqen = true) ∧
    ∀ s t : State, s.latch.valid = true → engineTurn s = .next t → irq t = s.cfg.irqen

/-- 60_exceptions.md R243: an error completion, of an illegal word or of a command, writes ERR, BUSY and DONE, clears
LATCH.valid, and does nothing else. -/
def Obligations.ErrorCompletionChangesOnlyStatus : Prop :=
  ∀ s t : State, completionStep s = .next t → t.status.err ≠ .ok → t = completed s t.status.err

/-- The frame of every command (10_state.md R30, R31, R32, R33, R34, R36; 30_encoding.md R93): BUSY, DONE and
LATCH.valid as R93 says; CFG, P0..P3, KEY0, KEY1, OVR, the latched word and the model's own fields for the host and
the schedule (log 5, 7) untouched; TAG touched only
by CMAC_DIGEST, VALID only by CMAC_VERIFY, a slot only by a KEYSCHED that selects it; and every DATA byte outside
the blocks the command writes (none for KEYSCHED and CMAC) unchanged. -/
def Obligations.CommandFrame : Prop :=
  ∀ (i : Instr) (s t : State), exec i s = .next t →
    t.status.busy = false ∧ t.status.done = true ∧ t.status.ovr = s.status.ovr ∧
    t.latch = { valid := false, word := s.latch.word } ∧ t.cfg = s.cfg ∧ (∀ r, t.getP r = s.getP r) ∧
    (∀ r, t.getKey r = s.getKey r) ∧ t.host = s.host ∧ t.turns = s.turns ∧
    (isDigest i = false → t.tag = s.tag) ∧ (isVerify i = false → t.status.valid = s.status.valid) ∧
    (∀ r, writesSlot i r = false → t.getSlot r = s.getSlot r) ∧
    (∀ a, ¬(0x1000 ≤ a ∧ a < 0x1000 + 16 * blocksWritten i) → Memory.read t.data a = Memory.read s.data a)

/-- 60_exceptions.md R242, R244: a CMAC command whose TAGBITS is neither 64 nor 128 completes with
INVALID_TAG_SIZE whatever its N, its keys and DATA. -/
def Obligations.BadTagSizeCompletes : Prop :=
  ∀ (tagBits : BitVec 8) (n : BitVec 16) (s : State), tagBits ≠ 64 → tagBits ≠ 128 →
    exec (.cmacDigestRaw tagBits n) s = .next (completed s .invalidTagSize) ∧
    exec (.cmacDigestSlot tagBits n) s = .next (completed s .invalidTagSize) ∧
    exec (.cmacVerifyRaw tagBits n) s = .next (completed s .invalidTagSize) ∧
    exec (.cmacVerifySlot tagBits n) s = .next (completed s .invalidTagSize)

/-- 40_primitives.md R109; 60_exceptions.md R242, R244: after the tag size, and before the keys and DATA, N is
checked: below the mode's minimum INVALID_BLOCK_COUNT, above MAX_BLOCKS INVALID_BUFFER_LENGTH. -/
def Obligations.BadBlockCountCompletes : Prop :=
  ∀ (n : BitVec 16) (tagBits : BitVec 8) (s : State), (tagBits = 64 ∨ tagBits = 128) →
    (∀ i ∈ [Instr.cmacDigestRaw tagBits n, .cmacDigestSlot tagBits n, .cmacVerifyRaw tagBits n,
      .cmacVerifySlot tagBits n, .xtsEncRaw n, .xtsEncSlot n, .xtsDecRaw n, .xtsDecSlot n, .decEncRaw n,
      .decDecRaw n],
      (n.toNat < 1 → exec i s = .next (completed s .invalidBlockCount)) ∧
      (Config.maxBlocks < n.toNat → exec i s = .next (completed s .invalidBufferLength))) ∧
    (∀ i ∈ [Instr.cmcEncRaw n, .cmcEncSlot n, .cmcDecRaw n, .cmcDecSlot n, .hehEncRaw n, .hehEncSlot n,
      .hehDecRaw n, .hehDecSlot n],
      (n.toNat < 2 → exec i s = .next (completed s .invalidBlockCount)) ∧
      (Config.maxBlocks < n.toNat → exec i s = .next (completed s .invalidBufferLength)))

/-- 60_exceptions.md R244; 40_primitives.md R101: a SLOT form whose slot is invalid completes with
KEY_NOT_SCHEDULED, whatever DATA holds, for every N that the mode allows. -/
def Obligations.UnscheduledSlotCompletes : Prop :=
  ∀ (n : BitVec 16) (tagBits : BitVec 8) (s : State), n.toNat ≤ Config.maxBlocks →
    ((tagBits = 64 ∨ tagBits = 128) → 1 ≤ n.toNat → s.slot0 = none →
      ∀ i ∈ [Instr.cmacDigestSlot tagBits n, .cmacVerifySlot tagBits n],
        exec i s = .next (completed s .keyNotScheduled)) ∧
    (1 ≤ n.toNat → s.slot0 = none ∨ s.slot1 = none → ∀ i ∈ [Instr.xtsEncSlot n, .xtsDecSlot n],
      exec i s = .next (completed s .keyNotScheduled)) ∧
    (2 ≤ n.toNat → s.slot0 = none ∨ s.slot1 = none → ∀ i ∈ [Instr.cmcEncSlot n, .cmcDecSlot n],
      exec i s = .next (completed s .keyNotScheduled)) ∧
    (2 ≤ n.toNat → s.slot0 = none → ∀ i ∈ [Instr.hehEncSlot n, .hehDecSlot n],
      exec i s = .next (completed s .keyNotScheduled))

/-- 30_encoding.md R94, 60_exceptions.md R251: a command never refuses, and it faults only with Uninit, for a
block it reads that has an unwritten byte. Which block the fault names, the lowest such, is the model's choice
(log 8). -/
def Obligations.CommandFaultsOnlyOnUnwrittenInput : Prop :=
  ∀ (i : Instr) (s : State), (∀ r, exec i s ≠ .refused r) ∧
    ∀ f, exec i s = .fault f → ∃ j, j < blocksRead i ∧ f = .uninit (0x1000 + 16 * j) ∧
      (∃ a, 0x1000 + 16 * j ≤ a ∧ a < 0x1000 + 16 * j + 16 ∧ Memory.read s.data a = none) ∧
      ∀ k, k < j → ∃ b, readBlock s.data k = .ok b

/-- 30_encoding.md R94: a command whose checks all pass and whose input has an unwritten byte faults with Uninit, in
every form that reads DATA and for every N that the mode allows; a RAW form or a DEC command whose keys are rejected
completes with that error first. The fault names the lowest such block's offset (the model's choice, log 8). -/
def Obligations.UnwrittenInputFaults : Prop :=
  ∀ (n : BitVec 16) (tagBits : BitVec 8) (s : State) (j : Nat), n.toNat ≤ Config.maxBlocks →
    FirstUnwritten s n.toNat j →
    ((tagBits = 64 ∨ tagBits = 128) →
      (s.slot0.isSome → ∀ i ∈ [Instr.cmacDigestSlot tagBits n, .cmacVerifySlot tagBits n],
        exec i s = .fault (.uninit (0x1000 + 16 * j))) ∧
      ∀ i ∈ [Instr.cmacDigestRaw tagBits n, .cmacVerifyRaw tagBits n],
        exec i s = uninitOrRejected s j (Config.ksEnc s.key0).isSome) ∧
    ((s.slot0.isSome → s.slot1.isSome → ∀ i ∈ [Instr.xtsEncSlot n, .xtsDecSlot n],
        exec i s = .fault (.uninit (0x1000 + 16 * j))) ∧
      exec (.xtsEncRaw n) s =
        uninitOrRejected s j ((Config.ksEnc s.key0).isSome && (Config.ksEnc s.key1).isSome) ∧
      exec (.xtsDecRaw n) s =
        uninitOrRejected s j ((Config.ksDec s.key0).isSome && (Config.ksEnc s.key1).isSome)) ∧
    (2 ≤ n.toNat →
      (s.slot0.isSome → s.slot1.isSome → ∀ i ∈ [Instr.cmcEncSlot n, .cmcDecSlot n],
        exec i s = .fault (.uninit (0x1000 + 16 * j))) ∧
      exec (.cmcEncRaw n) s =
        uninitOrRejected s j ((Config.ksEnc s.key0).isSome && (Config.ksEnc s.key1).isSome) ∧
      exec (.cmcDecRaw n) s =
        uninitOrRejected s j ((Config.ksDec s.key0).isSome && (Config.ksEnc s.key1).isSome)) ∧
    (2 ≤ n.toNat →
      (s.slot0.isSome → ∀ i ∈ [Instr.hehEncSlot n, .hehDecSlot n],
        exec i s = .fault (.uninit (0x1000 + 16 * j))) ∧
      exec (.hehEncRaw n) s = uninitOrRejected s j (Config.ksEnc s.key0).isSome ∧
      exec (.hehDecRaw n) s =
        uninitOrRejected s j ((Config.ksEnc s.key0).isSome && (Config.ksDec s.key0).isSome)) ∧
    ∀ i ∈ [Instr.decEncRaw n, .decDecRaw n], exec i s = uninitOrRejected s j (decKey n.toNat s).isSome

/-! ## The commands: what each completes with -/

/-- 40_primitives.md R112: KEYSCHED completes in every state: each selected slot takes both schedules of its own
key register, an unselected slot keeps its contents; if a selected schedule fails, KEY_REJECTED and no slot
changes. -/
def Obligations.KeyschedResult : Prop :=
  ∀ (slotMask : BitVec 2) (s : State), exec (.keysched slotMask) s = .next
    (match slotAfter (slotMask.getLsbD 0) s.key0 s.slot0, slotAfter (slotMask.getLsbD 1) s.key1 s.slot1 with
     | some a, some b => completed { s with slot0 := a, slot1 := b } .ok
     | _, _ => completed s .keyRejected)

/-- 41_cmac.md R134: CMAC_DIGEST.SLOT leaves the truncated tag of the message in TAG. -/
def Obligations.CmacDigestSlotResult : Prop :=
  ∀ (tagBits : BitVec 8) (n : BitVec 16) (s : State) (k : SlotKeys) (p : Nat → Block),
    (tagBits = 64 ∨ tagBits = 128) → 1 ≤ n.toNat → n.toNat ≤ Config.maxBlocks → s.slot0 = some k →
    InputIs s n.toNat p →
    exec (.cmacDigestSlot tagBits n) s = .next (completed { s with
      tag := truncated (cmacOf (Config.encryptBlock k.kenc) p n.toNat) tagBits.toNat } .ok)

/-- 41_cmac.md R134: CMAC_DIGEST.RAW, under the schedule of KEY0. -/
def Obligations.CmacDigestRawResult : Prop :=
  ∀ (tagBits : BitVec 8) (n : BitVec 16) (s : State) (p : Nat → Block),
    (tagBits = 64 ∨ tagBits = 128) → 1 ≤ n.toNat → n.toNat ≤ Config.maxBlocks → InputIs s n.toNat p →
    exec (.cmacDigestRaw tagBits n) s = .next
      (match Config.ksEnc s.key0 with
       | some k => completed { s with
           tag := truncated (cmacOf (Config.encryptBlock k) p n.toNat) tagBits.toNat } .ok
       | none => completed s .keyRejected)

/-- 41_cmac.md R136: CMAC_VERIFY.SLOT sets VALID exactly when all 16 bytes of TAG equal the truncated tag. -/
def Obligations.CmacVerifySlotResult : Prop :=
  ∀ (tagBits : BitVec 8) (n : BitVec 16) (s : State) (k : SlotKeys) (p : Nat → Block),
    (tagBits = 64 ∨ tagBits = 128) → 1 ≤ n.toNat → n.toNat ≤ Config.maxBlocks → s.slot0 = some k →
    InputIs s n.toNat p →
    exec (.cmacVerifySlot tagBits n) s = .next (completed { s with status := { s.status with
      valid := decide (truncated (cmacOf (Config.encryptBlock k.kenc) p n.toNat) tagBits.toNat = s.tag) } } .ok)

/-- 41_cmac.md R136: CMAC_VERIFY.RAW, under the schedule of KEY0. -/
def Obligations.CmacVerifyRawResult : Prop :=
  ∀ (tagBits : BitVec 8) (n : BitVec 16) (s : State) (p : Nat → Block),
    (tagBits = 64 ∨ tagBits = 128) → 1 ≤ n.toNat → n.toNat ≤ Config.maxBlocks → InputIs s n.toNat p →
    exec (.cmacVerifyRaw tagBits n) s = .next
      (match Config.ksEnc s.key0 with
       | some k => completed { s with status := { s.status with
           valid := decide (truncated (cmacOf (Config.encryptBlock k) p n.toNat) tagBits.toNat = s.tag) } } .ok
       | none => completed s .keyRejected)

/-- 42_cmc.md R153: CMC_ENC.SLOT. -/
def Obligations.CmcEncSlotResult : Prop :=
  ∀ (n : BitVec 16) (s : State) (k0 k1 : SlotKeys) (p : Nat → Block), 2 ≤ n.toNat →
    n.toNat ≤ Config.maxBlocks → s.slot0 = some k0 → s.slot1 = some k1 → InputIs s n.toNat p →
    SectorWritten s n.toNat (cmcEncBlock (Config.encryptBlock k0.kenc)
      (Config.encryptBlock k1.kenc (s.p0.setWidth 128)) p n.toNat) (exec (.cmcEncSlot n) s)

/-- 42_cmc.md R153: CMC_ENC.RAW. -/
def Obligations.CmcEncRawResult : Prop :=
  ∀ (n : BitVec 16) (s : State) (p : Nat → Block), 2 ≤ n.toNat → n.toNat ≤ Config.maxBlocks →
    InputIs s n.toNat p →
    match Config.ksEnc s.key0, Config.ksEnc s.key1 with
    | some k0, some k1 => SectorWritten s n.toNat (cmcEncBlock (Config.encryptBlock k0)
        (Config.encryptBlock k1 (s.p0.setWidth 128)) p n.toNat) (exec (.cmcEncRaw n) s)
    | _, _ => exec (.cmcEncRaw n) s = .next (completed s .keyRejected)

/-- 42_cmc.md R154: CMC_DEC.SLOT. -/
def Obligations.CmcDecSlotResult : Prop :=
  ∀ (n : BitVec 16) (s : State) (k0 k1 : SlotKeys) (p : Nat → Block), 2 ≤ n.toNat →
    n.toNat ≤ Config.maxBlocks → s.slot0 = some k0 → s.slot1 = some k1 → InputIs s n.toNat p →
    SectorWritten s n.toNat (cmcDecBlock (Config.decryptBlock k0.kdec)
      (Config.encryptBlock k1.kenc (s.p0.setWidth 128)) p n.toNat) (exec (.cmcDecSlot n) s)

/-- 42_cmc.md R154: CMC_DEC.RAW. -/
def Obligations.CmcDecRawResult : Prop :=
  ∀ (n : BitVec 16) (s : State) (p : Nat → Block), 2 ≤ n.toNat → n.toNat ≤ Config.maxBlocks →
    InputIs s n.toNat p →
    match Config.ksDec s.key0, Config.ksEnc s.key1 with
    | some k0, some k1 => SectorWritten s n.toNat (cmcDecBlock (Config.decryptBlock k0)
        (Config.encryptBlock k1 (s.p0.setWidth 128)) p n.toNat) (exec (.cmcDecRaw n) s)
    | _, _ => exec (.cmcDecRaw n) s = .next (completed s .keyRejected)

/-- 43_xts.md R172: XTS_ENC.SLOT. -/
def Obligations.XtsEncSlotResult : Prop :=
  ∀ (n : BitVec 16) (s : State) (k0 k1 : SlotKeys) (p : Nat → Block), 1 ≤ n.toNat →
    n.toNat ≤ Config.maxBlocks → s.slot0 = some k0 → s.slot1 = some k1 → InputIs s n.toNat p →
    SectorWritten s n.toNat (xtsBlock (Config.encryptBlock k0.kenc)
      (Config.encryptBlock k1.kenc (s.p0.setWidth 128)) p) (exec (.xtsEncSlot n) s)

/-- 43_xts.md R172: XTS_ENC.RAW. -/
def Obligations.XtsEncRawResult : Prop :=
  ∀ (n : BitVec 16) (s : State) (p : Nat → Block), 1 ≤ n.toNat → n.toNat ≤ Config.maxBlocks →
    InputIs s n.toNat p →
    match Config.ksEnc s.key0, Config.ksEnc s.key1 with
    | some k0, some k1 => SectorWritten s n.toNat (xtsBlock (Config.encryptBlock k0)
        (Config.encryptBlock k1 (s.p0.setWidth 128)) p) (exec (.xtsEncRaw n) s)
    | _, _ => exec (.xtsEncRaw n) s = .next (completed s .keyRejected)

/-- 43_xts.md R173: XTS_DEC.SLOT. -/
def Obligations.XtsDecSlotResult : Prop :=
  ∀ (n : BitVec 16) (s : State) (k0 k1 : SlotKeys) (p : Nat → Block), 1 ≤ n.toNat →
    n.toNat ≤ Config.maxBlocks → s.slot0 = some k0 → s.slot1 = some k1 → InputIs s n.toNat p →
    SectorWritten s n.toNat (xtsBlock (Config.decryptBlock k0.kdec)
      (Config.encryptBlock k1.kenc (s.p0.setWidth 128)) p) (exec (.xtsDecSlot n) s)

/-- 43_xts.md R173: XTS_DEC.RAW. -/
def Obligations.XtsDecRawResult : Prop :=
  ∀ (n : BitVec 16) (s : State) (p : Nat → Block), 1 ≤ n.toNat → n.toNat ≤ Config.maxBlocks →
    InputIs s n.toNat p →
    match Config.ksDec s.key0, Config.ksEnc s.key1 with
    | some k0, some k1 => SectorWritten s n.toNat (xtsBlock (Config.decryptBlock k0)
        (Config.encryptBlock k1 (s.p0.setWidth 128)) p) (exec (.xtsDecRaw n) s)
    | _, _ => exec (.xtsDecRaw n) s = .next (completed s .keyRejected)

/-- 44_heh.md R195: HEH_ENC.SLOT. -/
def Obligations.HehEncSlotResult : Prop :=
  ∀ (n : BitVec 16) (s : State) (k : SlotKeys) (p : Nat → Block), 2 ≤ n.toNat → n.toNat ≤ Config.maxBlocks →
    s.slot0 = some k → InputIs s n.toNat p →
    SectorWritten s n.toNat (hehBlock (Config.encryptBlock k.kenc)
      (Config.encryptBlock k.kenc (s.p0.setWidth 128)) p n.toNat) (exec (.hehEncSlot n) s)

/-- 44_heh.md R195: HEH_ENC.RAW schedules the ENC orientation only. -/
def Obligations.HehEncRawResult : Prop :=
  ∀ (n : BitVec 16) (s : State) (p : Nat → Block), 2 ≤ n.toNat → n.toNat ≤ Config.maxBlocks →
    InputIs s n.toNat p →
    match Config.ksEnc s.key0 with
    | some k => SectorWritten s n.toNat (hehBlock (Config.encryptBlock k)
        (Config.encryptBlock k (s.p0.setWidth 128)) p n.toNat) (exec (.hehEncRaw n) s)
    | none => exec (.hehEncRaw n) s = .next (completed s .keyRejected)

/-- 44_heh.md R196: HEH_DEC.SLOT. -/
def Obligations.HehDecSlotResult : Prop :=
  ∀ (n : BitVec 16) (s : State) (k : SlotKeys) (p : Nat → Block), 2 ≤ n.toNat → n.toNat ≤ Config.maxBlocks →
    s.slot0 = some k → InputIs s n.toNat p →
    SectorWritten s n.toNat (hehBlock (Config.decryptBlock k.kdec)
      (Config.encryptBlock k.kenc (s.p0.setWidth 128)) p n.toNat) (exec (.hehDecSlot n) s)

/-- 44_heh.md R196: HEH_DEC.RAW schedules both orientations of KEY0. -/
def Obligations.HehDecRawResult : Prop :=
  ∀ (n : BitVec 16) (s : State) (p : Nat → Block), 2 ≤ n.toNat → n.toNat ≤ Config.maxBlocks →
    InputIs s n.toNat p →
    match Config.ksEnc s.key0, Config.ksDec s.key0 with
    | some ke, some kd => SectorWritten s n.toNat (hehBlock (Config.decryptBlock kd)
        (Config.encryptBlock ke (s.p0.setWidth 128)) p n.toNat) (exec (.hehDecRaw n) s)
    | _, _ => exec (.hehDecRaw n) s = .next (completed s .keyRejected)

/-- 45_dec.md R211, R217, R218, R219; 41_cmac.md R137: DEC_ENC and DEC_DEC, the same algorithm both ways, under the
keys that the KDF derives with MAC128 as its callback. -/
def Obligations.DecResult : Prop :=
  ∀ (n : BitVec 16) (s : State) (p : Nat → Block), 1 ≤ n.toNat → n.toNat ≤ Config.maxBlocks →
    InputIs s n.toNat p → ∀ i ∈ [Instr.decEncRaw n, .decDecRaw n],
    match decKey n.toNat s with
    | some ks => SectorWritten s n.toNat (decBlock (Config.encryptBlock ks) s p n.toNat) (exec i s)
    | none => exec i s = .next (completed s .keyRejected)

/-! ## Round trips and algebra -/

/-- 44_heh.md R193: `ψinv(ψ(b)) = b` and `ψ(ψinv(u)) = u` for every `τ`. -/
def Obligations.PsiInverts : Prop :=
  ∀ (tau : Block) (b : List Block), 2 ≤ b.length → psiInv tau (psi tau b) = b ∧ psi tau (psiInv tau b) = b

/-- The round trip of CMC on the engine (42_cmc.md R155), the registers left alone: CMC_ENC.RAW, then CMC_DEC.RAW, where
both complete with ERR = 0; and CMC_ENC.SLOT, then CMC_DEC.SLOT, after a KEYSCHED that completes with ERR = 0. Every
DATA byte is then as before. -/
def Obligations.CmcRoundTrip : Prop :=
  ∀ (n : BitVec 16) (s : State) (p : Nat → Block) (w w' : Word), 2 ≤ n.toNat → n.toNat ≤ Config.maxBlocks →
    InputIs s n.toNat p →
    (∃ t u, exec (.cmcEncRaw n) s = .next t ∧ exec (.cmcDecRaw n) (t.accept w) = .next u ∧
      (t.status.err = .ok → u.status.err = .ok → ∀ a, Memory.read u.data a = Memory.read s.data a)) ∧
    ∃ q, exec (.keysched 3) s = .next q ∧ (q.status.err = .ok →
      ∃ t u, exec (.cmcEncSlot n) (q.accept w) = .next t ∧ exec (.cmcDecSlot n) (t.accept w') = .next u ∧
        t.status.err = .ok ∧ u.status.err = .ok ∧ ∀ a, Memory.read u.data a = Memory.read s.data a)

/-- The round trip of XTS on the engine (43_xts.md R173), the registers left alone: XTS_ENC.RAW, then XTS_DEC.RAW, where
both complete with ERR = 0; and XTS_ENC.SLOT, then XTS_DEC.SLOT, after a KEYSCHED that completes with ERR = 0. Every
DATA byte is then as before. -/
def Obligations.XtsRoundTrip : Prop :=
  ∀ (n : BitVec 16) (s : State) (p : Nat → Block) (w w' : Word), 1 ≤ n.toNat → n.toNat ≤ Config.maxBlocks →
    InputIs s n.toNat p →
    (∃ t u, exec (.xtsEncRaw n) s = .next t ∧ exec (.xtsDecRaw n) (t.accept w) = .next u ∧
      (t.status.err = .ok → u.status.err = .ok → ∀ a, Memory.read u.data a = Memory.read s.data a)) ∧
    ∃ q, exec (.keysched 3) s = .next q ∧ (q.status.err = .ok →
      ∃ t u, exec (.xtsEncSlot n) (q.accept w) = .next t ∧ exec (.xtsDecSlot n) (t.accept w') = .next u ∧
        t.status.err = .ok ∧ u.status.err = .ok ∧ ∀ a, Memory.read u.data a = Memory.read s.data a)

/-- The round trip of HEH on the engine (44_heh.md R194), the registers left alone: HEH_ENC.RAW, then HEH_DEC.RAW, where
both complete with ERR = 0; and HEH_ENC.SLOT, then HEH_DEC.SLOT, after a KEYSCHED that completes with ERR = 0. Every
DATA byte is then as before. -/
def Obligations.HehRoundTrip : Prop :=
  ∀ (n : BitVec 16) (s : State) (p : Nat → Block) (w w' : Word), 2 ≤ n.toNat → n.toNat ≤ Config.maxBlocks →
    InputIs s n.toNat p →
    (∃ t u, exec (.hehEncRaw n) s = .next t ∧ exec (.hehDecRaw n) (t.accept w) = .next u ∧
      (t.status.err = .ok → u.status.err = .ok → ∀ a, Memory.read u.data a = Memory.read s.data a)) ∧
    ∃ q, exec (.keysched 1) s = .next q ∧ (q.status.err = .ok →
      ∃ t u, exec (.hehEncSlot n) (q.accept w) = .next t ∧ exec (.hehDecSlot n) (t.accept w') = .next u ∧
        t.status.err = .ok ∧ u.status.err = .ok ∧ ∀ a, Memory.read u.data a = Memory.read s.data a)

/-- 45_dec.md R219: applying either DEC command after either restores the input, whether or not the keys are
derived. -/
def Obligations.DecRoundTrip : Prop :=
  ∀ (n : BitVec 16) (s : State) (p : Nat → Block) (w : Word), 1 ≤ n.toNat → n.toNat ≤ Config.maxBlocks →
    InputIs s n.toNat p → ∀ i ∈ [Instr.decEncRaw n, .decDecRaw n], ∀ j ∈ [Instr.decEncRaw n, .decDecRaw n],
      ∃ t u, exec i s = .next t ∧ exec j (t.accept w) = .next u ∧
        ∀ a, Memory.read u.data a = Memory.read s.data a

/-- 41_cmac.md R134, R136: a tag that CMAC_DIGEST left in TAG verifies under the same key, message and size: SLOT forms
under a valid SLOT0, RAW forms under the schedule of KEY0. -/
def Obligations.DigestThenVerifyIsValid : Prop :=
  ∀ (tagBits : BitVec 8) (n : BitVec 16) (s : State) (p : Nat → Block) (w : Word),
    (tagBits = 64 ∨ tagBits = 128) → 1 ≤ n.toNat → n.toNat ≤ Config.maxBlocks → InputIs s n.toNat p →
    (s.slot0.isSome → ∃ t u, exec (.cmacDigestSlot tagBits n) s = .next t ∧
      exec (.cmacVerifySlot tagBits n) (t.accept w) = .next u ∧
      u.status.err = .ok ∧ u.status.valid = true ∧ u.tag = t.tag) ∧
    ∃ t u, exec (.cmacDigestRaw tagBits n) s = .next t ∧
      exec (.cmacVerifyRaw tagBits n) (t.accept w) = .next u ∧ u.tag = t.tag ∧
      if (Config.ksEnc s.key0).isSome then u.status.err = .ok ∧ u.status.valid = true
      else u.status.err = .keyRejected ∧ u.status.valid = false

/-- 40_primitives.md R104, R105, R106: the product is commutative and associative, distributes over ⊕, has the block
`01 00..00` as its unit and `0^128` as its zero; `α` is the product with `02 00..00`, and its value is `le(b)` shifted
left by one, XORed with 0x87 when bit 127 was 1. With these the product of any two blocks is determined. -/
def Obligations.FieldMultiplyLaws : Prop :=
  ∀ a b c : Block, gfMul a b = gfMul b a ∧ gfMul (gfMul a b) c = gfMul a (gfMul b c) ∧
    gfMul (a ^^^ b) c = gfMul a c ^^^ gfMul b c ∧ gfMul a 1 = a ∧ gfMul a 0 = 0 ∧ alpha a = gfMul a 2 ∧
    (alpha a).toNat = 2 * a.toNat % 2 ^ 128 ^^^ (if 2 ^ 127 ≤ a.toNat then 0x87 else 0)

/-- 41_cmac.md R130: `be(dbl(r)) = (be(r) << 1) mod 2^128`, XORed with 0x87 when bit 127 of `be(r)` is 1. -/
def Obligations.DblIsBigEndianDoubling : Prop :=
  ∀ r : Block, byteReverse (dbl r) =
    if (byteReverse r).getLsbD 127 then byteReverse r <<< 1 ^^^ 0x87 else byteReverse r <<< 1

/-! ## The writers of the flags and the slots

`s.takeTurn.1` is who makes the step: the engine, the host or the reset input (log 5). The statements hold for every
schedule. -/

/-- 10_state.md R24: a host write to CMD leaves BUSY set, a completion and the reset input clear it, and no other
step changes it. -/
def Obligations.WritersOfBusy : Prop :=
  ∀ s t : State, step s = .next t →
    (s.takeTurn.1 = .host → (∃ w rest, s.host.program = .wr .w32 0x004 w :: rest) → t.status.busy = true) ∧
    (s.takeTurn.1 = .engine → s.latch.valid = true → t.status.busy = false) ∧
    (s.takeTurn.1 = .reset → t.status.busy = false) ∧
    (t.status.busy ≠ s.status.busy → s.takeTurn.1 = .reset ∨ (s.takeTurn.1 = .engine ∧ s.latch.valid = true) ∨
      (s.takeTurn.1 = .host ∧ ∃ w rest, s.host.program = .wr .w32 0x004 w :: rest))

/-- 10_state.md R26: VALID is set only by the completion of a CMAC_VERIFY with ERR = 0. -/
def Obligations.WritersOfValid : Prop :=
  ∀ s t : State, step s = .next t → s.status.valid = false → t.status.valid = true →
    s.takeTurn.1 = .engine ∧ s.latch.valid = true ∧ t.status.err = .ok ∧
      ∃ i, decode s.latch.word = .ok i ∧ isVerify i = true

/-- 10_state.md R27: a host write to CMD while BUSY sets OVR, a host write of STATUS with bit 3 set and the reset
input clear it, and no other step changes it. -/
def Obligations.WritersOfOvr : Prop :=
  ∀ s t : State, step s = .next t →
    (s.takeTurn.1 = .host → s.status.busy = true → (∃ w rest, s.host.program = .wr .w32 0x004 w :: rest) →
      t.status.ovr = true) ∧
    (s.takeTurn.1 = .host → (∃ w rest, s.host.program = .wr .w32 0x008 w :: rest ∧ w.getLsbD 3 = true) →
      t.status.ovr = false) ∧
    (s.takeTurn.1 = .reset → t.status.ovr = false) ∧
    (s.status.ovr = false → t.status.ovr = true → s.takeTurn.1 = .host ∧ s.status.busy = true ∧
      ∃ w rest, s.host.program = .wr .w32 0x004 w :: rest) ∧
    (s.status.ovr = true → t.status.ovr = false → s.takeTurn.1 = .reset ∨
      (s.takeTurn.1 = .host ∧ ∃ w rest, s.host.program = .wr .w32 0x008 w :: rest ∧ w.getLsbD 3 = true))

/-- 10_state.md R31: a slot is written only by a KEYSCHED that selects it, completing with ERR = 0, and by reset. -/
def Obligations.WritersOfSlots : Prop :=
  ∀ (s t : State) (r : KeyReg), step s = .next t → t.getSlot r ≠ s.getSlot r → s.takeTurn.1 = .reset ∨
    (s.takeTurn.1 = .engine ∧ s.latch.valid = true ∧ t.status.err = .ok ∧
      ∃ i, decode s.latch.word = .ok i ∧ writesSlot i r = true)
end

