-- ==== Sys2Proof/Laws/Memory.lean ====
section
/-! SUPPORT. Laws/Memory.lean: what reading and writing DATA do, and that every operation keeps the canonical
form (10_state.md R34, R35; 20_memory.md R65). -/

namespace Sys2Proof.Machine

/-! ### One byte -/

@[simp] theorem Memory.read_nil (a : Nat) : Memory.read [] a = none := rfl

theorem Memory.read_write (m : Memory) (off a : Nat) (v : Byte) :
    Memory.read (Memory.write m off v) a = if a = off then some v else Memory.read m a := by
  induction m with
  | nil => simp [Memory.write, Memory.read, eq_comm]
  | cons c m ih =>
    obtain ⟨b, x⟩ := c
    simp only [Memory.write]
    split
    · simp only [Memory.read, eq_comm]
    · split <;> simp only [Memory.read, ih] <;> split <;> simp_all [eq_comm]

theorem Memory.read_write_same (m : Memory) (off : Nat) (v : Byte) :
    Memory.read (Memory.write m off v) off = some v := by simp [Memory.read_write]

theorem Memory.read_write_ne (m : Memory) {off a : Nat} (v : Byte) (h : a ≠ off) :
    Memory.read (Memory.write m off v) a = Memory.read m a := by simp [Memory.read_write, h]

theorem Memory.mem_write {m : Memory} {off : Nat} {v : Byte} {c : Host.Cell}
    (h : c ∈ Memory.write m off v) : c = (off, v) ∨ c ∈ m := by
  induction m with
  | nil => simp_all [Memory.write]
  | cons d m ih =>
    simp only [Memory.write] at h
    split at h
    · simpa using h
    · split at h
      · simp only [List.mem_cons] at h ⊢
        exact h.imp_right Or.inr
      · simp only [List.mem_cons] at h ⊢
        rcases h with h | h
        · exact .inr (.inl h)
        · exact (ih h).imp_right Or.inr

/-! ### The canonical form -/

theorem Memory.sorted_cons {a : Nat} {x : Byte} {m : Memory} :
    Memory.sorted ((a, x) :: m) = true ↔ (∀ c ∈ m, a < c.1) ∧ Memory.sorted m = true := by
  induction m generalizing a x with
  | nil => simp [Memory.sorted]
  | cons c m ih =>
    obtain ⟨b, y⟩ := c
    simp only [Memory.sorted, Bool.and_eq_true, decide_eq_true_eq, ih, List.mem_cons, forall_eq_or_imp]
    constructor
    · rintro ⟨hab, hb, hm⟩
      exact ⟨⟨hab, fun c hc => hab.trans (hb c hc)⟩, hb, hm⟩
    · rintro ⟨⟨hab, -⟩, hb, hm⟩
      exact ⟨hab, hb, hm⟩

theorem Memory.sorted_write {m : Memory} (off : Nat) (v : Byte) (h : Memory.sorted m = true) :
    Memory.sorted (Memory.write m off v) = true := by
  induction m with
  | nil => rfl
  | cons c m ih =>
    obtain ⟨a, x⟩ := c
    obtain ⟨ha, hm⟩ := Memory.sorted_cons.1 h
    simp only [Memory.write]
    split
    · rename_i hlt
      refine Memory.sorted_cons.2 ⟨?_, h⟩
      simp only [List.mem_cons, forall_eq_or_imp]
      exact ⟨hlt, fun c hc => hlt.trans (ha c hc)⟩
    · split
      · rename_i he
        exact Memory.sorted_cons.2 ⟨he ▸ ha, hm⟩
      · refine Memory.sorted_cons.2 ⟨fun c hc => ?_, ih hm⟩
        rcases Memory.mem_write hc with rfl | hc
        · simp only; omega
        · exact ha c hc

theorem Memory.inData_write {mb off : Nat} {m : Memory} (v : Byte) (h : Memory.inData mb m = true)
    (h1 : 0x1000 ≤ off) (h2 : off < 0x1000 + 16 * mb) : Memory.inData mb (Memory.write m off v) = true := by
  simp only [Memory.inData, List.all_eq_true] at h ⊢
  intro c hc
  rcases Memory.mem_write hc with rfl | hc
  · simp [h1, h2]
  · exact h c hc

theorem Memory.wf_write {mb off : Nat} {m : Memory} (v : Byte) (h : Memory.wf mb m = true)
    (h1 : 0x1000 ≤ off) (h2 : off < 0x1000 + 16 * mb) : Memory.wf mb (Memory.write m off v) = true := by
  simp only [Memory.wf, Bool.and_eq_true] at h ⊢
  exact ⟨Memory.sorted_write _ _ h.1, Memory.inData_write _ h.2 h1 h2⟩

theorem Memory.wf_writeLe {mb : Nat} (n : Nat) {m : Memory} {off : Nat} (v : Nat) (h : Memory.wf mb m = true)
    (h1 : 0x1000 ≤ off) (h2 : off + n ≤ 0x1000 + 16 * mb) :
    Memory.wf mb (Memory.writeLe m off n v) = true := by
  induction n generalizing m off v with
  | zero => exact h
  | succ n ih => exact ih _ (Memory.wf_write _ h h1 (by omega)) (by omega) (by omega)

theorem wf_writeBlocks {mb : Nat} (bs : List Block) {m : Memory} {i : Nat} (h : Memory.wf mb m = true)
    (h2 : i + bs.length ≤ mb) : Memory.wf mb (writeBlocks m i bs) = true := by
  induction bs generalizing m i with
  | nil => exact h
  | cons b bs ih =>
    simp only [List.length_cons] at h2
    have h1 : Memory.wf mb (writeBlock m i b) = true := by
      unfold writeBlock
      exact Memory.wf_writeLe 16 _ h (by unfold blockOffset; omega) (by unfold blockOffset; omega)
    rw [writeBlocks]
    exact ih h1 (by omega)

theorem Memory.read_eq_none_of_lt {m : Memory} {a : Nat} (h : ∀ c ∈ m, a < c.1) : Memory.read m a = none := by
  induction m with
  | nil => rfl
  | cons c m ih =>
    have := h c (by simp)
    simp only [Memory.read]
    rw [if_neg (by omega)]
    exact ih fun c hc => h c (by simp [hc])

/-- Canonical memories that read the same at every offset are the same data. -/
theorem Memory.ext_of_sorted {m m' : Memory} (h : Memory.sorted m = true) (h' : Memory.sorted m' = true)
    (hr : ∀ a, Memory.read m a = Memory.read m' a) : m = m' := by
  induction m generalizing m' with
  | nil =>
    cases m' with
    | nil => rfl
    | cons c m' => have := hr c.1; simp [Memory.read] at this
  | cons c m ih =>
    obtain ⟨a, x⟩ := c
    obtain ⟨ha, hm⟩ := Memory.sorted_cons.1 h
    cases m' with
    | nil => have := hr a; simp [Memory.read] at this
    | cons c' m' =>
      obtain ⟨a', x'⟩ := c'
      obtain ⟨ha', hm'⟩ := Memory.sorted_cons.1 h'
      have key : a = a' := by
        rcases Nat.lt_trichotomy a a' with hl | he | hl
        · have h1 := hr a
          rw [Memory.read_eq_none_of_lt (m := (a', x') :: m')] at h1
          · simp [Memory.read] at h1
          · simp only [List.mem_cons, forall_eq_or_imp]
            exact ⟨hl, fun c hc => hl.trans (ha' c hc)⟩
        · exact he
        · have h1 := hr a'
          rw [Memory.read_eq_none_of_lt (m := (a, x) :: m)] at h1
          · simp [Memory.read] at h1
          · simp only [List.mem_cons, forall_eq_or_imp]
            exact ⟨hl, fun c hc => hl.trans (ha c hc)⟩
      subst key
      have hx : x = x' := by simpa [Memory.read] using hr a
      subst hx
      congr 1
      refine ih hm hm' fun b => ?_
      by_cases hb : a = b
      · subst hb
        rw [Memory.read_eq_none_of_lt ha, Memory.read_eq_none_of_lt ha']
      · simpa [Memory.read, hb] using hr b

/-! ### Several bytes, little-endian -/

/-- Byte `a` after a little-endian write: byte `a - off` of the value inside the written bytes, the old byte
outside them. -/
theorem Memory.read_writeLe (n : Nat) (m : Memory) (off v a : Nat) :
    Memory.read (Memory.writeLe m off n v) a =
      if off ≤ a ∧ a < off + n then some (BitVec.ofNat 8 (v / 256 ^ (a - off))) else Memory.read m a := by
  induction n generalizing m off v with
  | zero => simp only [Memory.writeLe]; rw [if_neg (by omega)]
  | succ n ih =>
    simp only [Memory.writeLe, ih, Memory.read_write]
    by_cases h : a = off
    · subst h
      rw [if_neg (by omega), if_pos rfl, if_pos (by omega)]
      simp
    · rw [if_neg h]
      by_cases h1 : off + 1 ≤ a ∧ a < off + 1 + n
      · rw [if_pos h1, if_pos (by omega), Nat.div_div_eq_div_mul]
        obtain ⟨k, rfl⟩ : ∃ k, a = off + 1 + k := ⟨a - (off + 1), by omega⟩
        have e1 : off + 1 + k - (off + 1) = k := by omega
        have e2 : off + 1 + k - off = k + 1 := by omega
        rw [e1, e2, Nat.pow_succ, Nat.mul_comm]
      · rw [if_neg h1, if_neg (by omega)]

/-- A little-endian read depends on its own bytes only. -/
theorem Memory.readLe_congr (n : Nat) {m m' : Memory} {off : Nat}
    (h : ∀ a, off ≤ a → a < off + n → Memory.read m a = Memory.read m' a) :
    Memory.readLe m off n = Memory.readLe m' off n := by
  induction n generalizing off with
  | zero => rfl
  | succ n ih =>
    simp only [Memory.readLe]
    rw [h off (by omega) (by omega), ih fun a h1 h2 => h a (by omega) (by omega)]

theorem Memory.readLe_writeLe_same (n : Nat) (m : Memory) (off v : Nat) :
    Memory.readLe (Memory.writeLe m off n v) off n = some (v % 256 ^ n) := by
  induction n generalizing m off v with
  | zero => simp [Memory.readLe, Nat.mod_one]
  | succ n ih =>
    simp only [Memory.readLe]
    have h0 : Memory.read (Memory.writeLe m off (n + 1) v) off = some (BitVec.ofNat 8 v) := by
      rw [Memory.read_writeLe, if_pos (by omega)]; simp
    rw [h0]
    simp only [Memory.writeLe, ih]
    simp only [BitVec.toNat_ofNat, Option.some.injEq]
    rw [show 256 ^ (n + 1) = 256 * 256 ^ n from Nat.pow_succ', Nat.mod_mul]

/-- A little-endian read fails exactly when one of its bytes is not written. -/
theorem Memory.readLe_eq_none (n : Nat) (m : Memory) (off : Nat) :
    Memory.readLe m off n = none ↔ ∃ a, off ≤ a ∧ a < off + n ∧ Memory.read m a = none := by
  induction n generalizing off with
  | zero => simp only [Memory.readLe]; constructor
            · simp
            · rintro ⟨a, h1, h2, -⟩; omega
  | succ n ih =>
    have hi := ih (off + 1)
    simp only [Memory.readLe]
    cases hb : Memory.read m off with
    | none => simp only [true_iff]; exact ⟨off, by omega, by omega, hb⟩
    | some b =>
      cases hr : Memory.readLe m (off + 1) n with
      | none =>
        obtain ⟨a, h1, h2, h3⟩ := hi.1 hr
        simp only [true_iff]
        exact ⟨a, by omega, by omega, h3⟩
      | some r =>
        simp only [reduceCtorEq, false_iff]
        rintro ⟨a, h1, h2, h3⟩
        by_cases ha : a = off
        · subst ha; rw [hb] at h3; cases h3
        · have := hi.2 ⟨a, by omega, by omega, h3⟩
          rw [hr] at this; cases this

/-- A little-endian read is below `256^n`. -/
theorem Memory.readLe_lt (n : Nat) {m : Memory} {off v : Nat} (h : Memory.readLe m off n = some v) :
    v < 256 ^ n := by
  induction n generalizing off v with
  | zero => simp only [Memory.readLe, Option.some.injEq] at h; subst h; simp
  | succ n ih =>
    simp only [Memory.readLe] at h
    split at h
    · rename_i b r hb hr
      have h1 := ih hr
      have h2 := b.isLt
      simp only [Option.some.injEq] at h
      subst h
      rw [Nat.pow_succ]
      omega
    · cases h

/-! ### Blocks -/

theorem readBlock_congr {m m' : Memory} {i : Nat}
    (h : ∀ a, blockOffset i ≤ a → a < blockOffset i + 16 → Memory.read m a = Memory.read m' a) :
    readBlock m i = readBlock m' i := by
  unfold readBlock
  rw [Memory.readLe_congr 16 h]

@[simp] theorem readBlock_writeBlock_same (m : Memory) (i : Nat) (b : Block) :
    readBlock (writeBlock m i b) i = .ok b := by
  unfold readBlock writeBlock
  rw [Memory.readLe_writeLe_same]
  rw [Nat.mod_eq_of_lt (show b.toNat < 256 ^ 16 by have := b.isLt; omega)]
  simp

/-- Outside block `i`'s bytes a block write changes nothing. -/
theorem read_writeBlock_of_outside (m : Memory) {i a : Nat} (b : Block)
    (h : a < blockOffset i ∨ blockOffset i + 16 ≤ a) :
    Memory.read (writeBlock m i b) a = Memory.read m a := by
  unfold writeBlock
  rw [Memory.read_writeLe, if_neg (by omega)]

theorem readBlock_writeBlock_ne (m : Memory) {i j : Nat} (b : Block) (h : j ≠ i) :
    readBlock (writeBlock m i b) j = readBlock m j := by
  refine readBlock_congr fun a h1 h2 => read_writeBlock_of_outside m b ?_
  simp only [blockOffset] at *
  omega

/-- Outside the written blocks' bytes a sector write changes nothing. -/
theorem read_writeBlocks_of_outside (bs : List Block) (m : Memory) {i a : Nat}
    (h : a < blockOffset i ∨ blockOffset (i + bs.length) ≤ a) :
    Memory.read (writeBlocks m i bs) a = Memory.read m a := by
  induction bs generalizing m i with
  | nil => rfl
  | cons b bs ih =>
    simp only [List.length_cons, blockOffset] at h
    rw [writeBlocks, ih _ (by simp only [blockOffset]; omega)]
    exact read_writeBlock_of_outside m b (by simp only [blockOffset]; omega)

theorem readBlock_writeBlocks_of_lt (bs : List Block) (m : Memory) {i j : Nat} (h : j < i) :
    readBlock (writeBlocks m i bs) j = readBlock m j :=
  readBlock_congr fun a h1 h2 => read_writeBlocks_of_outside bs m (by simp only [blockOffset] at *; omega)

/-- After a sector write each written block reads as the block written. -/
theorem readBlock_writeBlocks (bs : List Block) (m : Memory) (i : Nat) {j : Nat} (h : j < bs.length) :
    readBlock (writeBlocks m i bs) (i + j) = .ok bs[j] := by
  induction bs generalizing m i j with
  | nil => simp at h
  | cons b bs ih =>
    rw [writeBlocks]
    cases j with
    | zero =>
      rw [readBlock_writeBlocks_of_lt _ _ (by omega)]
      simp
    | succ j =>
      have := ih (writeBlock m i b) (i + 1) (j := j) (by simpa using h)
      simpa [Nat.add_assoc, Nat.add_comm 1 j] using this

/-- `readBlocks` gives the blocks one by one. -/
theorem readBlocks_eq_ok {m : Memory} {i n : Nat} {bs : List Block} :
    readBlocks m i n = .ok bs ↔ bs.length = n ∧ ∀ j (h : j < bs.length), readBlock m (i + j) = .ok bs[j] := by
  induction n generalizing i bs with
  | zero =>
    simp only [readBlocks, Except.ok.injEq]
    constructor
    · rintro rfl; simp
    · rintro ⟨h, -⟩; exact (List.eq_nil_of_length_eq_zero h).symm
  | succ n ih =>
    simp only [readBlocks]
    constructor
    · intro h
      split at h
      · cases h
      · rename_i b hb
        split at h
        · cases h
        · rename_i rest hrest
          obtain ⟨hl, hj⟩ := ih.1 hrest
          simp only [Except.ok.injEq] at h
          subst h
          refine ⟨by simp [hl], fun j hlt => ?_⟩
          cases j with
          | zero => simpa using hb
          | succ j =>
            have := hj j (by simpa using hlt)
            simpa [Nat.add_assoc, Nat.add_comm 1 j] using this
    · rintro ⟨hl, hj⟩
      cases bs with
      | nil => simp at hl
      | cons b bs =>
        have h0 := hj 0 (by simp)
        simp only [Nat.add_zero, List.getElem_cons_zero] at h0
        have hr : readBlocks m (i + 1) n = .ok bs := by
          refine ih.2 ⟨by simpa using hl, fun j hlt => ?_⟩
          have := hj (j + 1) (by simpa using hlt)
          simpa [Nat.add_assoc, Nat.add_comm 1 j] using this
        rw [h0, hr]

/-- A sector read that fails names its lowest unreadable block. -/
theorem readBlocks_eq_error {m : Memory} {i n : Nat} {f : Fault} (h : readBlocks m i n = .error f) :
    ∃ j, j < n ∧ readBlock m (i + j) = .error f ∧ ∀ k, k < j → ∃ b, readBlock m (i + k) = .ok b := by
  induction n generalizing i with
  | zero => cases h
  | succ n ih =>
    simp only [readBlocks] at h
    split at h
    · rename_i g hg
      cases h
      exact ⟨0, by omega, hg, by simp⟩
    · rename_i b hb
      split at h
      · rename_i g hg
        cases h
        obtain ⟨j, hj, hf, hall⟩ := ih hg
        refine ⟨j + 1, by omega, by simpa [Nat.add_assoc, Nat.add_comm 1 j] using hf, fun k hk => ?_⟩
        cases k with
        | zero => exact ⟨b, hb⟩
        | succ k =>
          obtain ⟨c, hc⟩ := hall k (by omega)
          exact ⟨c, by simpa [Nat.add_assoc, Nat.add_comm 1 k] using hc⟩
      · cases h

/-- A block is unreadable exactly when one of its bytes is not written (R94, R110). -/
theorem readBlock_eq_error {m : Memory} {i : Nat} {f : Fault} :
    readBlock m i = .error f ↔ f = .uninit (blockOffset i) ∧
      ∃ a, blockOffset i ≤ a ∧ a < blockOffset i + 16 ∧ Memory.read m a = none := by
  rw [← Memory.readLe_eq_none]
  unfold readBlock
  cases Memory.readLe m (blockOffset i) 16 <;> simp [eq_comm]

end Sys2Proof.Machine
end

