-- ==== Sys2Proof/Laws/Platform.lean ====
section
/-! SUPPORT. Laws/Platform.lean: what the model assumes of its open parameters, and nothing more
(00_scope.md R5, R7, R8). -/

namespace Sys2Proof.Config

/-- R7. -/
theorem two_le_maxBlocks : 2 ≤ maxBlocks := Nat.le_add_right 2 _

/-- R7. -/
theorem maxBlocks_le : maxBlocks ≤ 256 := by
  have := maxBlocksLessTwo.isLt
  unfold maxBlocks
  omega

/-- R8. -/
theorem base_aligned : base % 0x2000 = 0 := by simp [base]

@[simp] theorem platform_maxBlocks : platform.maxBlocks = maxBlocks := rfl
@[simp] theorem platform_ksEnc : platform.ksEnc = ksEnc := rfl
@[simp] theorem platform_ksDec : platform.ksDec = ksDec := rfl
@[simp] theorem platform_enc : platform.enc = encryptBlock := rfl
@[simp] theorem platform_dec : platform.dec = decryptBlock := rfl

/-- R5: `D(KS_DEC(k), E(KS_ENC(k), x)) = x` whenever both schedules succeed. -/
theorem decrypt_encrypt {k : RawKey} {ke kd : Key} (he : ksEnc k = some ke) (hd : ksDec k = some kd)
    (x : Block) : decryptBlock kd (encryptBlock ke x) = x := cipher.dec_enc k ke kd x he hd

/-- R5: `E(KS_ENC(k), D(KS_DEC(k), y)) = y` whenever both schedules succeed. -/
theorem encrypt_decrypt {k : RawKey} {ke kd : Key} (he : ksEnc k = some ke) (hd : ksDec k = some kd)
    (y : Block) : encryptBlock ke (decryptBlock kd y) = y := cipher.enc_dec k ke kd y he hd

end Sys2Proof.Config

namespace Sys2Proof

/-- Every CIPHER of R5, over any type of expanded keys, is a `Cipher` once its keys are numbered (log 3): some
numbering tells all scheduled keys apart, and the schedules and both directions agree through it. -/
theorem exists_cipher_of_keys {K : Type} (ksEnc ksDec : RawKey → Option K) (enc dec : K → Block → Block)
    (dec_enc : ∀ k ke kd x, ksEnc k = some ke → ksDec k = some kd → dec kd (enc ke x) = x)
    (enc_dec : ∀ k ke kd y, ksEnc k = some ke → ksDec k = some kd → enc ke (dec kd y) = y) :
    ∃ (c : Cipher) (number : K → Key), (∀ k, c.ksEnc k = (ksEnc k).map number) ∧
      (∀ k, c.ksDec k = (ksDec k).map number) ∧
      ∀ a, (∃ k, ksEnc k = some a ∨ ksDec k = some a) →
        c.enc (number a) = enc a ∧ c.dec (number a) = dec a := by
  classical
  let scheduled : Set K := {a | ∃ k, ksEnc k = some a ∨ ksDec k = some a}
  have hc : scheduled.Countable := by
    have hraw : Countable RawKey := Function.Injective.countable (f := BitVec.toNat) fun a b => BitVec.eq_of_toNat_eq
    have h1 : (Set.range ksEnc).Countable := Set.countable_range _
    have h2 : (Set.range ksDec).Countable := Set.countable_range _
    refine ((h1.union h2).preimage (f := some) (Option.some_injective K)).mono ?_
    rintro a ⟨k, h | h⟩
    · exact .inl ⟨k, h⟩
    · exact .inr ⟨k, h⟩
  obtain ⟨f, hf⟩ := Set.countable_iff_exists_injOn.1 hc
  let number : K → Key := fun a => ⟨f a⟩
  let pick : Key → Option K := fun n => if h : ∃ a ∈ scheduled, f a = n.handle then some h.choose else none
  have hpick : ∀ a ∈ scheduled, pick (number a) = some a := by
    intro a ha
    have h : ∃ b ∈ scheduled, f b = (number a).handle := ⟨a, ha, rfl⟩
    have hsome : pick (number a) = some h.choose := dif_pos h
    rw [hsome, hf h.choose_spec.1 ha h.choose_spec.2]
  have he : ∀ {k a}, ksEnc k = some a → pick (number a) = some a := fun h => hpick _ ⟨_, .inl h⟩
  have hd : ∀ {k a}, ksDec k = some a → pick (number a) = some a := fun h => hpick _ ⟨_, .inr h⟩
  refine ⟨{ ksEnc := fun k => (ksEnc k).map number
            ksDec := fun k => (ksDec k).map number
            enc := fun n x => match pick n with | some a => enc a x | none => x
            dec := fun n x => match pick n with | some a => dec a x | none => x
            dec_enc := ?_
            enc_dec := ?_ }, number, fun _ => rfl, fun _ => rfl, fun a ha => ?_⟩
  · intro k ke kd x h1 h2
    obtain ⟨a, ha, rfl⟩ := Option.map_eq_some_iff.1 h1
    obtain ⟨b, hb, rfl⟩ := Option.map_eq_some_iff.1 h2
    simp only [he ha, hd hb]
    exact dec_enc k a b x ha hb
  · intro k ke kd y h1 h2
    obtain ⟨a, ha, rfl⟩ := Option.map_eq_some_iff.1 h1
    obtain ⟨b, hb, rfl⟩ := Option.map_eq_some_iff.1 h2
    simp only [he ha, hd hb]
    exact enc_dec k a b y ha hb
  · simp only [hpick a ha, and_self]

end Sys2Proof
end

