-- ==== Sys2Proof/Laws/State.lean ====
section
/-! SUPPORT. Laws/State.lean: one lemma per field per named update of the state. -/

namespace Sys2Proof.Machine

/-! ### Acceptance (R91) -/

@[simp] theorem State.accept_status (s : State) (w : Word) : (s.accept w).status = s.status.accepted := rfl
@[simp] theorem State.accept_cfg (s : State) (w : Word) : (s.accept w).cfg = s.cfg := rfl
@[simp] theorem State.accept_latch (s : State) (w : Word) : (s.accept w).latch = { valid := true, word := w } := rfl
@[simp] theorem State.accept_p0 (s : State) (w : Word) : (s.accept w).p0 = s.p0 := rfl
@[simp] theorem State.accept_p1 (s : State) (w : Word) : (s.accept w).p1 = s.p1 := rfl
@[simp] theorem State.accept_p2 (s : State) (w : Word) : (s.accept w).p2 = s.p2 := rfl
@[simp] theorem State.accept_p3 (s : State) (w : Word) : (s.accept w).p3 = s.p3 := rfl
@[simp] theorem State.accept_key0 (s : State) (w : Word) : (s.accept w).key0 = s.key0 := rfl
@[simp] theorem State.accept_key1 (s : State) (w : Word) : (s.accept w).key1 = s.key1 := rfl
@[simp] theorem State.accept_tag (s : State) (w : Word) : (s.accept w).tag = s.tag := rfl
@[simp] theorem State.accept_slot0 (s : State) (w : Word) : (s.accept w).slot0 = s.slot0 := rfl
@[simp] theorem State.accept_slot1 (s : State) (w : Word) : (s.accept w).slot1 = s.slot1 := rfl
@[simp] theorem State.accept_data (s : State) (w : Word) : (s.accept w).data = s.data := rfl
@[simp] theorem State.accept_host (s : State) (w : Word) : (s.accept w).host = s.host := rfl
@[simp] theorem State.accept_turns (s : State) (w : Word) : (s.accept w).turns = s.turns := rfl

/-! ### Overrun (R92) -/

@[simp] theorem State.overrun_status (s : State) : (s.overrun).status = s.status.overrun := rfl
@[simp] theorem State.overrun_cfg (s : State) : (s.overrun).cfg = s.cfg := rfl
@[simp] theorem State.overrun_latch (s : State) : (s.overrun).latch = s.latch := rfl
@[simp] theorem State.overrun_p0 (s : State) : (s.overrun).p0 = s.p0 := rfl
@[simp] theorem State.overrun_p1 (s : State) : (s.overrun).p1 = s.p1 := rfl
@[simp] theorem State.overrun_p2 (s : State) : (s.overrun).p2 = s.p2 := rfl
@[simp] theorem State.overrun_p3 (s : State) : (s.overrun).p3 = s.p3 := rfl
@[simp] theorem State.overrun_key0 (s : State) : (s.overrun).key0 = s.key0 := rfl
@[simp] theorem State.overrun_key1 (s : State) : (s.overrun).key1 = s.key1 := rfl
@[simp] theorem State.overrun_tag (s : State) : (s.overrun).tag = s.tag := rfl
@[simp] theorem State.overrun_slot0 (s : State) : (s.overrun).slot0 = s.slot0 := rfl
@[simp] theorem State.overrun_slot1 (s : State) : (s.overrun).slot1 = s.slot1 := rfl
@[simp] theorem State.overrun_data (s : State) : (s.overrun).data = s.data := rfl
@[simp] theorem State.overrun_host (s : State) : (s.overrun).host = s.host := rfl
@[simp] theorem State.overrun_turns (s : State) : (s.overrun).turns = s.turns := rfl

/-! ### Completion (R93) -/

@[simp] theorem State.finish_status (s : State) (e : ErrCode) : (s.finish e).status = s.status.completed e := rfl
@[simp] theorem State.finish_cfg (s : State) (e : ErrCode) : (s.finish e).cfg = s.cfg := rfl
@[simp] theorem State.finish_latch (s : State) (e : ErrCode) : (s.finish e).latch = { s.latch with valid := false } := rfl
@[simp] theorem State.finish_p0 (s : State) (e : ErrCode) : (s.finish e).p0 = s.p0 := rfl
@[simp] theorem State.finish_p1 (s : State) (e : ErrCode) : (s.finish e).p1 = s.p1 := rfl
@[simp] theorem State.finish_p2 (s : State) (e : ErrCode) : (s.finish e).p2 = s.p2 := rfl
@[simp] theorem State.finish_p3 (s : State) (e : ErrCode) : (s.finish e).p3 = s.p3 := rfl
@[simp] theorem State.finish_key0 (s : State) (e : ErrCode) : (s.finish e).key0 = s.key0 := rfl
@[simp] theorem State.finish_key1 (s : State) (e : ErrCode) : (s.finish e).key1 = s.key1 := rfl
@[simp] theorem State.finish_tag (s : State) (e : ErrCode) : (s.finish e).tag = s.tag := rfl
@[simp] theorem State.finish_slot0 (s : State) (e : ErrCode) : (s.finish e).slot0 = s.slot0 := rfl
@[simp] theorem State.finish_slot1 (s : State) (e : ErrCode) : (s.finish e).slot1 = s.slot1 := rfl
@[simp] theorem State.finish_data (s : State) (e : ErrCode) : (s.finish e).data = s.data := rfl
@[simp] theorem State.finish_host (s : State) (e : ErrCode) : (s.finish e).host = s.host := rfl
@[simp] theorem State.finish_turns (s : State) (e : ErrCode) : (s.finish e).turns = s.turns := rfl

/-! ### The reset input (R270) -/

@[simp] theorem State.assertReset_status (s : State) : (s.assertReset).status = State.reset.status := rfl
@[simp] theorem State.assertReset_cfg (s : State) : (s.assertReset).cfg = State.reset.cfg := rfl
@[simp] theorem State.assertReset_latch (s : State) : (s.assertReset).latch = State.reset.latch := rfl
@[simp] theorem State.assertReset_p0 (s : State) : (s.assertReset).p0 = State.reset.p0 := rfl
@[simp] theorem State.assertReset_p1 (s : State) : (s.assertReset).p1 = State.reset.p1 := rfl
@[simp] theorem State.assertReset_p2 (s : State) : (s.assertReset).p2 = State.reset.p2 := rfl
@[simp] theorem State.assertReset_p3 (s : State) : (s.assertReset).p3 = State.reset.p3 := rfl
@[simp] theorem State.assertReset_key0 (s : State) : (s.assertReset).key0 = State.reset.key0 := rfl
@[simp] theorem State.assertReset_key1 (s : State) : (s.assertReset).key1 = State.reset.key1 := rfl
@[simp] theorem State.assertReset_tag (s : State) : (s.assertReset).tag = State.reset.tag := rfl
@[simp] theorem State.assertReset_slot0 (s : State) : (s.assertReset).slot0 = State.reset.slot0 := rfl
@[simp] theorem State.assertReset_slot1 (s : State) : (s.assertReset).slot1 = State.reset.slot1 := rfl
@[simp] theorem State.assertReset_data (s : State) : (s.assertReset).data = State.reset.data := rfl
@[simp] theorem State.assertReset_host (s : State) : (s.assertReset).host = s.host := rfl
@[simp] theorem State.assertReset_turns (s : State) : (s.assertReset).turns = s.turns := rfl

/-! ### setP -/

@[simp] theorem State.setP_status (s : State) (r : PReg) (v : DWord) : (s.setP r v).status = s.status := by cases r <;> rfl
@[simp] theorem State.setP_cfg (s : State) (r : PReg) (v : DWord) : (s.setP r v).cfg = s.cfg := by cases r <;> rfl
@[simp] theorem State.setP_latch (s : State) (r : PReg) (v : DWord) : (s.setP r v).latch = s.latch := by cases r <;> rfl
@[simp] theorem State.setP_key0 (s : State) (r : PReg) (v : DWord) : (s.setP r v).key0 = s.key0 := by cases r <;> rfl
@[simp] theorem State.setP_key1 (s : State) (r : PReg) (v : DWord) : (s.setP r v).key1 = s.key1 := by cases r <;> rfl
@[simp] theorem State.setP_tag (s : State) (r : PReg) (v : DWord) : (s.setP r v).tag = s.tag := by cases r <;> rfl
@[simp] theorem State.setP_slot0 (s : State) (r : PReg) (v : DWord) : (s.setP r v).slot0 = s.slot0 := by cases r <;> rfl
@[simp] theorem State.setP_slot1 (s : State) (r : PReg) (v : DWord) : (s.setP r v).slot1 = s.slot1 := by cases r <;> rfl
@[simp] theorem State.setP_data (s : State) (r : PReg) (v : DWord) : (s.setP r v).data = s.data := by cases r <;> rfl
@[simp] theorem State.setP_host (s : State) (r : PReg) (v : DWord) : (s.setP r v).host = s.host := by cases r <;> rfl
@[simp] theorem State.setP_turns (s : State) (r : PReg) (v : DWord) : (s.setP r v).turns = s.turns := by cases r <;> rfl
@[simp] theorem State.setP_p0_p0 (s : State) (v : DWord) : (s.setP .p0 v).p0 = v := rfl
@[simp] theorem State.setP_p0_p1 (s : State) (v : DWord) : (s.setP .p0 v).p1 = s.p1 := rfl
@[simp] theorem State.setP_p0_p2 (s : State) (v : DWord) : (s.setP .p0 v).p2 = s.p2 := rfl
@[simp] theorem State.setP_p0_p3 (s : State) (v : DWord) : (s.setP .p0 v).p3 = s.p3 := rfl
@[simp] theorem State.setP_p1_p0 (s : State) (v : DWord) : (s.setP .p1 v).p0 = s.p0 := rfl
@[simp] theorem State.setP_p1_p1 (s : State) (v : DWord) : (s.setP .p1 v).p1 = v := rfl
@[simp] theorem State.setP_p1_p2 (s : State) (v : DWord) : (s.setP .p1 v).p2 = s.p2 := rfl
@[simp] theorem State.setP_p1_p3 (s : State) (v : DWord) : (s.setP .p1 v).p3 = s.p3 := rfl
@[simp] theorem State.setP_p2_p0 (s : State) (v : DWord) : (s.setP .p2 v).p0 = s.p0 := rfl
@[simp] theorem State.setP_p2_p1 (s : State) (v : DWord) : (s.setP .p2 v).p1 = s.p1 := rfl
@[simp] theorem State.setP_p2_p2 (s : State) (v : DWord) : (s.setP .p2 v).p2 = v := rfl
@[simp] theorem State.setP_p2_p3 (s : State) (v : DWord) : (s.setP .p2 v).p3 = s.p3 := rfl
@[simp] theorem State.setP_p3_p0 (s : State) (v : DWord) : (s.setP .p3 v).p0 = s.p0 := rfl
@[simp] theorem State.setP_p3_p1 (s : State) (v : DWord) : (s.setP .p3 v).p1 = s.p1 := rfl
@[simp] theorem State.setP_p3_p2 (s : State) (v : DWord) : (s.setP .p3 v).p2 = s.p2 := rfl
@[simp] theorem State.setP_p3_p3 (s : State) (v : DWord) : (s.setP .p3 v).p3 = v := rfl
@[simp] theorem State.getP_setP_same (s : State) (r : PReg) (v : DWord) : (s.setP r v).getP r = v := by cases r <;> rfl
theorem State.getP_setP_ne (s : State) {r r' : PReg} (v : DWord) (h : r' ≠ r) : (s.setP r v).getP r' = s.getP r' := by
  cases r <;> cases r' <;> first | rfl | exact absurd rfl h

/-! ### setKey -/

@[simp] theorem State.setKey_status (s : State) (r : KeyReg) (v : RawKey) : (s.setKey r v).status = s.status := by cases r <;> rfl
@[simp] theorem State.setKey_cfg (s : State) (r : KeyReg) (v : RawKey) : (s.setKey r v).cfg = s.cfg := by cases r <;> rfl
@[simp] theorem State.setKey_latch (s : State) (r : KeyReg) (v : RawKey) : (s.setKey r v).latch = s.latch := by cases r <;> rfl
@[simp] theorem State.setKey_p0 (s : State) (r : KeyReg) (v : RawKey) : (s.setKey r v).p0 = s.p0 := by cases r <;> rfl
@[simp] theorem State.setKey_p1 (s : State) (r : KeyReg) (v : RawKey) : (s.setKey r v).p1 = s.p1 := by cases r <;> rfl
@[simp] theorem State.setKey_p2 (s : State) (r : KeyReg) (v : RawKey) : (s.setKey r v).p2 = s.p2 := by cases r <;> rfl
@[simp] theorem State.setKey_p3 (s : State) (r : KeyReg) (v : RawKey) : (s.setKey r v).p3 = s.p3 := by cases r <;> rfl
@[simp] theorem State.setKey_tag (s : State) (r : KeyReg) (v : RawKey) : (s.setKey r v).tag = s.tag := by cases r <;> rfl
@[simp] theorem State.setKey_slot0 (s : State) (r : KeyReg) (v : RawKey) : (s.setKey r v).slot0 = s.slot0 := by cases r <;> rfl
@[simp] theorem State.setKey_slot1 (s : State) (r : KeyReg) (v : RawKey) : (s.setKey r v).slot1 = s.slot1 := by cases r <;> rfl
@[simp] theorem State.setKey_data (s : State) (r : KeyReg) (v : RawKey) : (s.setKey r v).data = s.data := by cases r <;> rfl
@[simp] theorem State.setKey_host (s : State) (r : KeyReg) (v : RawKey) : (s.setKey r v).host = s.host := by cases r <;> rfl
@[simp] theorem State.setKey_turns (s : State) (r : KeyReg) (v : RawKey) : (s.setKey r v).turns = s.turns := by cases r <;> rfl
@[simp] theorem State.setKey_key0_key0 (s : State) (v : RawKey) : (s.setKey .key0 v).key0 = v := rfl
@[simp] theorem State.setKey_key0_key1 (s : State) (v : RawKey) : (s.setKey .key0 v).key1 = s.key1 := rfl
@[simp] theorem State.setKey_key1_key0 (s : State) (v : RawKey) : (s.setKey .key1 v).key0 = s.key0 := rfl
@[simp] theorem State.setKey_key1_key1 (s : State) (v : RawKey) : (s.setKey .key1 v).key1 = v := rfl
@[simp] theorem State.getKey_setKey_same (s : State) (r : KeyReg) (v : RawKey) : (s.setKey r v).getKey r = v := by cases r <;> rfl
theorem State.getKey_setKey_ne (s : State) {r r' : KeyReg} (v : RawKey) (h : r' ≠ r) : (s.setKey r v).getKey r' = s.getKey r' := by
  cases r <;> cases r' <;> first | rfl | exact absurd rfl h

/-! ### The engine's next turn -/

@[simp] theorem State.engineNext_status (s : State) : s.engineNext.status = s.status := by unfold State.engineNext; split <;> rfl
@[simp] theorem State.engineNext_cfg (s : State) : s.engineNext.cfg = s.cfg := by unfold State.engineNext; split <;> rfl
@[simp] theorem State.engineNext_latch (s : State) : s.engineNext.latch = s.latch := by unfold State.engineNext; split <;> rfl
@[simp] theorem State.engineNext_p0 (s : State) : s.engineNext.p0 = s.p0 := by unfold State.engineNext; split <;> rfl
@[simp] theorem State.engineNext_p1 (s : State) : s.engineNext.p1 = s.p1 := by unfold State.engineNext; split <;> rfl
@[simp] theorem State.engineNext_p2 (s : State) : s.engineNext.p2 = s.p2 := by unfold State.engineNext; split <;> rfl
@[simp] theorem State.engineNext_p3 (s : State) : s.engineNext.p3 = s.p3 := by unfold State.engineNext; split <;> rfl
@[simp] theorem State.engineNext_key0 (s : State) : s.engineNext.key0 = s.key0 := by unfold State.engineNext; split <;> rfl
@[simp] theorem State.engineNext_key1 (s : State) : s.engineNext.key1 = s.key1 := by unfold State.engineNext; split <;> rfl
@[simp] theorem State.engineNext_tag (s : State) : s.engineNext.tag = s.tag := by unfold State.engineNext; split <;> rfl
@[simp] theorem State.engineNext_slot0 (s : State) : s.engineNext.slot0 = s.slot0 := by unfold State.engineNext; split <;> rfl
@[simp] theorem State.engineNext_slot1 (s : State) : s.engineNext.slot1 = s.slot1 := by unfold State.engineNext; split <;> rfl
@[simp] theorem State.engineNext_data (s : State) : s.engineNext.data = s.data := by unfold State.engineNext; split <;> rfl
@[simp] theorem State.engineNext_host (s : State) : s.engineNext.host = s.host := by unfold State.engineNext; split <;> rfl

/-! ### STATUS -/

@[simp] theorem Status.accepted_busy (st : Status) : (st.accepted).busy = true := rfl
@[simp] theorem Status.accepted_done (st : Status) : (st.accepted).done = false := rfl
@[simp] theorem Status.accepted_valid (st : Status) : (st.accepted).valid = false := rfl
@[simp] theorem Status.accepted_ovr (st : Status) : (st.accepted).ovr = st.ovr := rfl
@[simp] theorem Status.accepted_err (st : Status) : (st.accepted).err = .ok := rfl

@[simp] theorem Status.overrun_busy (st : Status) : (st.overrun).busy = st.busy := rfl
@[simp] theorem Status.overrun_done (st : Status) : (st.overrun).done = st.done := rfl
@[simp] theorem Status.overrun_valid (st : Status) : (st.overrun).valid = st.valid := rfl
@[simp] theorem Status.overrun_ovr (st : Status) : (st.overrun).ovr = true := rfl
@[simp] theorem Status.overrun_err (st : Status) : (st.overrun).err = st.err := rfl

@[simp] theorem Status.completed_busy (st : Status) (e : ErrCode) : (st.completed e).busy = false := rfl
@[simp] theorem Status.completed_done (st : Status) (e : ErrCode) : (st.completed e).done = true := rfl
@[simp] theorem Status.completed_valid (st : Status) (e : ErrCode) : (st.completed e).valid = st.valid := rfl
@[simp] theorem Status.completed_ovr (st : Status) (e : ErrCode) : (st.completed e).ovr = st.ovr := rfl
@[simp] theorem Status.completed_err (st : Status) (e : ErrCode) : (st.completed e).err = e := rfl

@[simp] theorem Status.hostWrite_busy (st : Status) (w : Word) : (st.hostWrite w).busy = st.busy := rfl
@[simp] theorem Status.hostWrite_done (st : Status) (w : Word) : (st.hostWrite w).done = (st.done && !w.getLsbD 1) := rfl
@[simp] theorem Status.hostWrite_valid (st : Status) (w : Word) : (st.hostWrite w).valid = st.valid := rfl
@[simp] theorem Status.hostWrite_ovr (st : Status) (w : Word) : (st.hostWrite w).ovr = (st.ovr && !w.getLsbD 3) := rfl
@[simp] theorem Status.hostWrite_err (st : Status) (w : Word) : (st.hostWrite w).err = st.err := rfl

/-! ### The host -/

@[simp] theorem HostAgent.record_program (h : HostAgent) (poll : Bool) (v : Word) : (h.record poll v).program = h.program := rfl
@[simp] theorem HostAgent.record_reads (h : HostAgent) (poll : Bool) (v : Word) :
    (h.record poll v).reads = h.reads ++ [{ value := v, poll := poll }] := rfl
@[simp] theorem HostAgent.advance_program (h : HostAgent) : h.advance.program = h.program.tail := rfl
@[simp] theorem HostAgent.advance_reads (h : HostAgent) : h.advance.reads = h.reads := rfl

end Sys2Proof.Machine
end

