-- ==== Sys2Proof/Laws/Ops.lean ====
section
/-! SUPPORT. Laws/Ops.lean: one lemma per shared operation that says everything it can do. -/

namespace Sys2Proof.Machine

/-! ### Completion -/

/-- Everything `complete` can answer: an error completion, a fault of the work, or the work's state finished
with ERR = 0. It never refuses. -/
theorem complete_cases {κ : Type} (checked : Except ErrCode κ) (work : κ → Except Fault State) (s : State) :
    (∃ e, checked = .error e ∧ complete checked work s = .next (s.finish e)) ∨
    (∃ k f, checked = .ok k ∧ work k = .error f ∧ complete checked work s = .fault f) ∨
    (∃ k s', checked = .ok k ∧ work k = .ok s' ∧ complete checked work s = .next (s'.finish .ok)) := by
  unfold complete
  cases checked with
  | error e => exact .inl ⟨e, rfl, rfl⟩
  | ok k =>
    cases hw : work k with
    | error f => exact .inr (.inl ⟨k, f, rfl, hw, by simp [hw]⟩)
    | ok s' => exact .inr (.inr ⟨k, s', rfl, hw, by simp [hw]⟩)

theorem complete_of_error {κ : Type} {checked : Except ErrCode κ} {work : κ → Except Fault State} {s : State}
    {e : ErrCode} (h : checked = .error e) : complete checked work s = .next (s.finish e) := by
  subst h; rfl

theorem complete_of_ok {κ : Type} {checked : Except ErrCode κ} {work : κ → Except Fault State} {s s' : State}
    {k : κ} (h : checked = .ok k) (hw : work k = .ok s') : complete checked work s = .next (s'.finish .ok) := by
  subst h; simp [complete, hw]

theorem complete_of_fault {κ : Type} {checked : Except ErrCode κ} {work : κ → Except Fault State} {s : State}
    {k : κ} {f : Fault} (h : checked = .ok k) (hw : work k = .error f) : complete checked work s = .fault f := by
  subst h; simp [complete, hw]

/-! ### The checks -/

/-- R109. -/
theorem checkN_cases (pf : Platform) (n min : Nat) :
    (n < min ∧ checkN pf n min = .error .invalidBlockCount) ∨
    (min ≤ n ∧ pf.maxBlocks < n ∧ checkN pf n min = .error .invalidBufferLength) ∨
    (min ≤ n ∧ n ≤ pf.maxBlocks ∧ checkN pf n min = .ok ()) := by
  unfold checkN
  by_cases h1 : n < min
  · exact .inl ⟨h1, by rw [if_pos h1]⟩
  · by_cases h2 : pf.maxBlocks < n
    · exact .inr (.inl ⟨by omega, h2, by rw [if_neg h1, if_pos h2]⟩)
    · exact .inr (.inr ⟨by omega, by omega, by rw [if_neg h1, if_neg h2]⟩)

/-- R134: the two legal tag sizes. -/
theorem checkTagBits_cases (tagBits : BitVec 8) :
    ((tagBits = 64 ∨ tagBits = 128) ∧ checkTagBits tagBits = .ok ()) ∨
    (tagBits ≠ 64 ∧ tagBits ≠ 128 ∧ checkTagBits tagBits = .error .invalidTagSize) := by
  unfold checkTagBits
  by_cases h : tagBits = 64 ∨ tagBits = 128
  · exact .inl ⟨h, by rw [if_pos h]⟩
  · exact .inr ⟨fun e => h (.inl e), fun e => h (.inr e), by rw [if_neg h]⟩

/-- R101: all a key fetch can answer. -/
theorem keyFetch_cases (pf : Platform) (form : KeyForm) (r : KeyReg) (o : Orientation) (s : State) :
    (form = .raw ∧ ∃ k, schedule pf o (s.getKey r) = some k ∧ keyFetch pf form r o s = .ok k) ∨
    (form = .raw ∧ schedule pf o (s.getKey r) = none ∧ keyFetch pf form r o s = .error .keyRejected) ∨
    (form = .slot ∧ ∃ k, s.getSlot r = some k ∧ keyFetch pf form r o s = .ok (k.oriented o)) ∨
    (form = .slot ∧ s.getSlot r = none ∧ keyFetch pf form r o s = .error .keyNotScheduled) := by
  cases form with
  | raw =>
    cases h : schedule pf o (s.getKey r) with
    | none => exact .inr (.inl ⟨rfl, rfl, by simp [keyFetch, orRejected, h]⟩)
    | some k => exact .inl ⟨rfl, k, rfl, by simp [keyFetch, orRejected, h]⟩
  | slot =>
    cases h : s.getSlot r with
    | none => exact .inr (.inr (.inr ⟨rfl, rfl, by simp [keyFetch, h]⟩))
    | some k => exact .inr (.inr (.inl ⟨rfl, k, rfl, by simp [keyFetch, h]⟩))

/-! ### Sectors -/

/-- R110: a sector command's data movement either faults on an unwritten input block or writes the
transformed blocks over the input and changes nothing else. -/
theorem transformSector_cases (n : Nat) (f : List Block → List Block) (s : State) :
    (∃ e, readBlocks s.data 0 n = .error e ∧ transformSector n f s = .error e) ∨
    (∃ input, readBlocks s.data 0 n = .ok input ∧
      transformSector n f s = .ok { s with data := writeBlocks s.data 0 (f input) }) := by
  unfold transformSector
  cases h : readBlocks s.data 0 n with
  | error e => exact .inl ⟨e, rfl, rfl⟩
  | ok input => exact .inr ⟨input, rfl, rfl⟩

/-! ### Whose move it is -/

/-- R69, R285: the turn taken, and that taking it changes nothing but the schedule. -/
theorem takeTurn_cases (s : State) :
    (s.turns = [] ∧ s.latch.valid = true ∧ s.takeTurn = (.engine, s)) ∨
    (s.turns = [] ∧ s.latch.valid = false ∧ s.takeTurn = (.host, s)) ∨
    (∃ t ts, s.turns = t :: ts ∧ s.takeTurn = (t, { s with turns := ts })) := by
  unfold State.takeTurn
  cases h : s.turns with
  | nil => cases hv : s.latch.valid <;> simp
  | cons t ts => simp

/-- Giving the engine the next turn does so. -/
theorem takeTurn_engineNext {s : State} (h : s.latch.valid = true) :
    s.engineNext.takeTurn.1 = .engine := by
  unfold State.engineNext
  split
  · rename_i ht; simp [State.takeTurn, ht, h]
  · rename_i ht; simp [State.takeTurn, ht]
  · simp [State.takeTurn]

/-- R91, R92: a CMD write is accepted by an idle engine and dropped by a busy one. -/
theorem issue_cases (s : State) (w : Word) :
    (s.status.busy = false ∧ s.issue w = s.accept w) ∨ (s.status.busy = true ∧ s.issue w = s.overrun) := by
  unfold State.issue
  cases s.status.busy <;> simp

end Sys2Proof.Machine
end

