-- ==== Sys2Proof/Laws/Bus.lean ====
section
/-! SUPPORT. Laws/Bus.lean: what a host access, a host turn and a step can do (20_memory.md R62 to R67,
30_encoding.md R90). -/

namespace Sys2Proof.Machine

/-- R60: the window's offsets and its bus addresses name each other. -/
theorem windowOffset_busAddress {off : Nat} (h : off < 0x2000) : windowOffset (busAddress off) = some off := by
  unfold windowOffset busAddress
  rw [if_pos (by omega), Nat.add_sub_cancel_left]

/-- R62, R63, R64, R66: all the checks of an access can answer. -/
theorem busCheck_cases (pf : Platform) (s : State) (width : Width) (off : Nat) :
    ((width ≠ .w32 ∨ off % 4 ≠ 0 ∨ windowReg pf off = .reserved) ∧
      busCheck pf s width off = .error (.busError off)) ∨
    (width = .w32 ∧ off % 4 = 0 ∧ windowReg pf off ≠ .reserved ∧
      s.status.busy = true ∧ operandOffset off = true ∧ busCheck pf s width off = .error (.busyAccess off)) ∨
    (width = .w32 ∧ off % 4 = 0 ∧ windowReg pf off ≠ .reserved ∧
      (s.status.busy = false ∨ operandOffset off = false) ∧ busCheck pf s width off = .ok (windowReg pf off)) := by
  unfold busCheck
  by_cases h : width ≠ .w32 ∨ off % 4 ≠ 0 ∨ windowReg pf off = .reserved
  · exact .inl ⟨h, by rw [if_pos h]⟩
  · have h' := h
    simp only [not_or, not_not] at h'
    obtain ⟨h1, h2, h3⟩ := h'
    rw [if_neg h]
    cases hb : s.status.busy <;> cases ho : operandOffset off <;> simp [h1, h2, h3]

/-- A write that is answered wrote exactly the register it names. -/
theorem busWrite_eq_ok {pf : Platform} {s s' : State} {width : Width} {off : Nat} {w : Word} :
    busWrite pf s width off w = .ok s' ↔
      busCheck pf s width off = .ok (windowReg pf off) ∧ s' = writeReg s off w (windowReg pf off) := by
  unfold busWrite
  rcases busCheck_cases pf s width off with ⟨-, h⟩ | ⟨-, -, -, -, -, h⟩ | ⟨-, -, -, -, h⟩ <;> rw [h]
  · exact ⟨nofun, fun e => nomatch e.1⟩
  · exact ⟨nofun, fun e => nomatch e.1⟩
  · exact ⟨fun e => ⟨rfl, (Except.ok.inj e).symm⟩, fun e => e.2 ▸ rfl⟩

/-- A read that is answered gives the register it names. -/
theorem busRead_eq_ok {pf : Platform} {s : State} {width : Width} {off : Nat} {v : Word} :
    busRead pf s width off = .ok v ↔
      busCheck pf s width off = .ok (windowReg pf off) ∧ readReg pf s off (windowReg pf off) = .ok v := by
  unfold busRead
  rcases busCheck_cases pf s width off with ⟨-, h⟩ | ⟨-, -, -, -, -, h⟩ | ⟨-, -, -, -, h⟩ <;> rw [h]
  · exact ⟨nofun, fun e => nomatch e.1⟩
  · exact ⟨nofun, fun e => nomatch e.1⟩
  · exact ⟨fun e => ⟨rfl, e⟩, fun e => e.2⟩

/-- R61: the register map, region by region. -/
theorem windowReg_cases (pf : Platform) (off : Nat) :
    (off = 0x000 ∧ windowReg pf off = .caps) ∨ (off = 0x004 ∧ windowReg pf off = .cmd) ∨
    (off = 0x008 ∧ windowReg pf off = .status) ∨ (off = 0x00C ∧ windowReg pf off = .cfg) ∨
    ((off ≠ 0x000 ∧ off ≠ 0x004 ∧ off ≠ 0x008 ∧ off ≠ 0x00C ∧ off < 0x030) ∧
      windowReg pf off = .param (pRegAt ((off - 0x010) / 8)) ((off - 0x010) / 4 % 2)) ∨
    ((0x030 ≤ off ∧ off < 0x040) ∧ windowReg pf off = .reserved) ∨
    ((0x040 ≤ off ∧ off < 0x060) ∧ windowReg pf off = .key .key0 ((off - 0x040) / 4)) ∨
    ((0x060 ≤ off ∧ off < 0x080) ∧ windowReg pf off = .key .key1 ((off - 0x060) / 4)) ∨
    ((0x080 ≤ off ∧ off < 0x090) ∧ windowReg pf off = .tag ((off - 0x080) / 4)) ∨
    ((0x090 ≤ off ∧ off < 0x1000) ∧ windowReg pf off = .reserved) ∨
    ((0x1000 ≤ off ∧ off < 0x1000 + 16 * pf.maxBlocks) ∧ windowReg pf off = .data) ∨
    (0x1000 + 16 * pf.maxBlocks ≤ off ∧ windowReg pf off = .reserved) := by
  unfold windowReg
  generalize pf.maxBlocks = mb
  by_cases h0 : off = 0x000
  · exact .inl ⟨h0, if_pos h0⟩
  refine .inr ?_
  rw [if_neg h0]
  by_cases h1 : off = 0x004
  · exact .inl ⟨h1, if_pos h1⟩
  refine .inr ?_
  rw [if_neg h1]
  by_cases h2 : off = 0x008
  · exact .inl ⟨h2, if_pos h2⟩
  refine .inr ?_
  rw [if_neg h2]
  by_cases h3 : off = 0x00C
  · exact .inl ⟨h3, if_pos h3⟩
  refine .inr ?_
  rw [if_neg h3]
  by_cases h4 : off < 0x030
  · exact .inl ⟨⟨h0, h1, h2, h3, h4⟩, if_pos h4⟩
  refine .inr ?_
  rw [if_neg h4]
  by_cases h5 : off < 0x040
  · exact .inl ⟨⟨by omega, h5⟩, if_pos h5⟩
  refine .inr ?_
  rw [if_neg h5]
  by_cases h6 : off < 0x060
  · exact .inl ⟨⟨by omega, h6⟩, if_pos h6⟩
  refine .inr ?_
  rw [if_neg h6]
  by_cases h7 : off < 0x080
  · exact .inl ⟨⟨by omega, h7⟩, if_pos h7⟩
  refine .inr ?_
  rw [if_neg h7]
  by_cases h8 : off < 0x090
  · exact .inl ⟨⟨by omega, h8⟩, if_pos h8⟩
  refine .inr ?_
  rw [if_neg h8]
  by_cases h9 : off < 0x1000
  · exact .inl ⟨⟨by omega, h9⟩, if_pos h9⟩
  refine .inr ?_
  rw [if_neg h9]
  by_cases h10 : off < 0x1000 + 16 * mb
  · exact .inl ⟨⟨by omega, h10⟩, if_pos h10⟩
  · exact .inr ⟨by omega, if_neg h10⟩

/-- R66: the reserved offsets. -/
theorem windowReg_eq_reserved {pf : Platform} {off : Nat} :
    windowReg pf off = .reserved ↔ (0x030 ≤ off ∧ off < 0x040) ∨
      (0x090 ≤ off ∧ off < 0x1000) ∨ 0x1000 + 16 * pf.maxBlocks ≤ off := by
  rcases windowReg_cases pf off with ⟨h, e⟩ | ⟨h, e⟩ | ⟨h, e⟩ | ⟨h, e⟩ | ⟨h, e⟩ | ⟨h, e⟩ | ⟨h, e⟩ | ⟨h, e⟩ |
    ⟨h, e⟩ | ⟨h, e⟩ | ⟨h, e⟩ | ⟨h, e⟩ <;> rw [e] <;> simp <;> omega

/-- R61, R66: no offset past the window is listed (log 23). -/
theorem windowReg_outside {off : Nat} (h : 0x2000 ≤ off) : windowReg Config.platform off = .reserved := by
  have := Config.maxBlocks_le
  rw [windowReg_eq_reserved, Config.platform_maxBlocks]
  omega

/-- R61: DATA. -/
theorem windowReg_eq_data {pf : Platform} {off : Nat} :
    windowReg pf off = .data ↔ 0x1000 ≤ off ∧ off < 0x1000 + 16 * pf.maxBlocks := by
  rcases windowReg_cases pf off with ⟨h, e⟩ | ⟨h, e⟩ | ⟨h, e⟩ | ⟨h, e⟩ | ⟨h, e⟩ | ⟨h, e⟩ | ⟨h, e⟩ | ⟨h, e⟩ |
    ⟨h, e⟩ | ⟨h, e⟩ | ⟨h, e⟩ | ⟨h, e⟩ <;> rw [e] <;> simp <;> omega

/-- R61: CMD is at offset 4 and nowhere else. -/
theorem windowReg_eq_cmd {pf : Platform} {off : Nat} : windowReg pf off = .cmd ↔ off = 4 := by
  rcases windowReg_cases pf off with ⟨h, e⟩ | ⟨h, e⟩ | ⟨h, e⟩ | ⟨h, e⟩ | ⟨h, e⟩ | ⟨h, e⟩ | ⟨h, e⟩ | ⟨h, e⟩ |
    ⟨h, e⟩ | ⟨h, e⟩ | ⟨h, e⟩ | ⟨h, e⟩ <;> rw [e] <;> simp <;> omega

/-- R61: STATUS is at offset 8 and nowhere else. -/
theorem windowReg_eq_status {pf : Platform} {off : Nat} : windowReg pf off = .status ↔ off = 8 := by
  rcases windowReg_cases pf off with ⟨h, e⟩ | ⟨h, e⟩ | ⟨h, e⟩ | ⟨h, e⟩ | ⟨h, e⟩ | ⟨h, e⟩ | ⟨h, e⟩ | ⟨h, e⟩ |
    ⟨h, e⟩ | ⟨h, e⟩ | ⟨h, e⟩ | ⟨h, e⟩ <;> rw [e] <;> simp <;> omega

/-- R21: the three fields of CAPS. -/
theorem capsWord_fields {pf : Platform} (h : pf.maxBlocks < 2 ^ 16) :
    (capsWord pf).toNat % 2 ^ 16 = pf.maxBlocks ∧ (capsWord pf).toNat / 2 ^ 16 % 2 ^ 8 = 32 ∧
      (capsWord pf).toNat / 2 ^ 24 = 16 := by
  have h1 : (capsWord pf).toNat = 0x10200000 + pf.maxBlocks := by
    unfold capsWord
    rw [BitVec.toNat_append, BitVec.toNat_ofNat, Nat.mod_eq_of_lt h, ← Nat.shiftLeft_add_eq_or_of_lt h]
    rfl
  omega

/-- R67: reading changes no state but what the host has read and has still to run. -/
theorem hostLine_rd_next {pf : Platform} {s t : State} {width : Width} {off : Nat}
    (h : hostLine pf (.rd width off) s = .next t) :
    ∃ v, busRead pf s width off = .ok v ∧ t = { s with host := s.host.advance.record false v } := by
  unfold hostLine at h
  cases hr : busRead pf s width off with
  | error f => simp [hr] at h
  | ok v => simp only [hr, Host.Outcome.next.injEq] at h; exact ⟨v, rfl, h.symm⟩

theorem hostLine_wr_next {pf : Platform} {s t : State} {width : Width} {off : Nat} {w : Word}
    (h : hostLine pf (.wr width off w) s = .next t) :
    ∃ s', busWrite pf s width off w = .ok s' ∧ t = { s' with host := s'.host.advance } := by
  unfold hostLine at h
  cases hr : busWrite pf s width off w with
  | error f => simp [hr] at h
  | ok s' => simp only [hr, Host.Outcome.next.injEq] at h; exact ⟨s', rfl, h.symm⟩

/-- R90: `wait` always answers: STATUS is read and recorded, and the line stays while BUSY = 1. -/
theorem hostLine_wait (pf : Platform) (s : State) :
    hostLine pf .wait s = .next
      (if s.status.toWord.getLsbD 0 then { s with host := s.host.record true s.status.toWord }
       else { s with host := s.host.advance.record true s.status.toWord }) := by
  have h : busRead pf s .w32 0x008 = .ok s.status.toWord := by
    unfold busRead busCheck
    simp [windowReg, operandOffset, readReg]
  unfold hostLine
  rw [h]
  dsimp only
  split <;> rfl

/-- R90: the four lines of `wrblk`. -/
theorem wrblkLines_eq (off : Nat) (b : Block) : wrblkLines off b =
    [.wr .w32 off (getWord b 0), .wr .w32 (off + 4) (getWord b 1), .wr .w32 (off + 8) (getWord b 2),
      .wr .w32 (off + 12) (getWord b 3)] := rfl

/-- Everything a step can be: the engine's turn, the host's, or the reset input's. -/
theorem step_cases (s : State) :
    (s.takeTurn.1 = .engine ∧ step s = engineTurn s.takeTurn.2) ∨
    (s.takeTurn.1 = .host ∧ step s = hostTurn Config.platform s.takeTurn.2) ∨
    (s.takeTurn.1 = .reset ∧ step s = .next s.takeTurn.2.assertReset) := by
  unfold step
  rcases h : s.takeTurn with ⟨t, s'⟩
  cases t <;> simp

end Sys2Proof.Machine
end

