-- ==== Sys2Proof/Laws/Bytes.lean ====
section
/-! SUPPORT. Laws/Bytes.lean: the bytes of blocks and the words of registers (00_scope.md R12; 20_memory.md R65;
40_primitives.md R107, R108; 41_cmac.md R130, R133). -/

namespace Sys2Proof.Machine

theorem toNat_append_eq {n m : Nat} (x : BitVec n) (y : BitVec m) :
    (x ++ y).toNat = x.toNat * 2 ^ m + y.toNat := by
  rw [BitVec.toNat_append, ← Nat.shiftLeft_add_eq_or_of_lt y.isLt, Nat.shiftLeft_eq]

theorem leSum_lt (f : Nat → Byte) (n : Nat) : leSum f n < 2 ^ (8 * n) := by
  induction n with
  | zero => simp [leSum]
  | succ n ih =>
    have := (f n).isLt
    rw [leSum, show 8 * (n + 1) = 8 + 8 * n by omega, Nat.pow_add]
    have h : (f n).toNat * 2 ^ (8 * n) ≤ 255 * 2 ^ (8 * n) := Nat.mul_le_mul_right _ (by omega)
    omega

theorem leSum_byte (f : Nat → Byte) {n j : Nat} (h : j < n) :
    leSum f n / 2 ^ (8 * j) % 256 = (f j).toNat := by
  induction n with
  | zero => omega
  | succ n ih =>
    rw [leSum]
    by_cases hj : j = n
    · subst hj
      rw [Nat.add_mul_div_right _ _ (Nat.two_pow_pos _), Nat.div_eq_of_lt (leSum_lt f j), Nat.zero_add]
      exact Nat.mod_eq_of_lt (f j).isLt
    · have e : (f n).toNat * 2 ^ (8 * n) = (f n).toNat * 2 ^ (8 * (n - j - 1)) * 256 * 2 ^ (8 * j) := by
        rw [show (256 : Nat) = 2 ^ 8 from rfl, Nat.mul_assoc, Nat.mul_assoc, ← Nat.pow_add, ← Nat.pow_add]
        congr 2; omega
      rw [e, Nat.add_mul_div_right _ _ (Nat.two_pow_pos _), Nat.add_mul_mod_self_right]
      exact ih (by omega)

theorem toNat_blockByte (b : Block) (j : Nat) : (blockByte b j).toNat = b.toNat / 2 ^ (8 * j) % 256 := by
  simp [blockByte, BitVec.extractLsb'_toNat, Nat.shiftRight_eq_div_pow]

/-- R12: byte `j` of a block made of bytes. -/
theorem blockByte_blockOfBytes (f : Nat → Byte) {j : Nat} (h : j < 16) : blockByte (blockOfBytes f) j = f j := by
  apply BitVec.eq_of_toNat_eq
  rw [toNat_blockByte, blockOfBytes, BitVec.toNat_ofNat, Nat.mod_eq_of_lt (leSum_lt f 16), leSum_byte f h]

/-- R12: bit `i` of a block is bit `i % 8` of its byte `i / 8`. -/
theorem getLsbD_eq_blockByte (b : Block) (i : Nat) : b.getLsbD i = (blockByte b (i / 8)).getLsbD (i % 8) := by
  unfold blockByte
  rw [BitVec.getLsbD_extractLsb', show 8 * (i / 8) + i % 8 = i by omega]
  simp
  omega

/-- Blocks with the same bytes are the same block. -/
theorem block_ext {a b : Block} (h : ∀ j, j < 16 → blockByte a j = blockByte b j) : a = b := by
  apply BitVec.eq_of_getLsbD_eq
  intro i hi
  rw [getLsbD_eq_blockByte, getLsbD_eq_blockByte b, h _ (by omega)]

/-- R12: the bytes of a reversed block. -/
theorem blockByte_byteReverse (b : Block) {j : Nat} (h : j < 16) :
    blockByte (byteReverse b) j = blockByte b (15 - j) := blockByte_blockOfBytes _ h

/-- R130: the bytes of `dbl`. -/
theorem blockByte_dbl (r : Block) {j : Nat} (h : j < 16) :
    blockByte (dbl r) j =
      if j = 15 then
        if (blockByte r 0).getLsbD 7 then blockByte r 15 <<< 1 ^^^ 0x87 else blockByte r 15 <<< 1
      else blockByte r j <<< 1 ||| blockByte r (j + 1) >>> 7 := blockByte_blockOfBytes _ h

/-- R65: bit `i` of a register after its word `m` is replaced. -/
theorem getLsbD_setWord {n : Nat} (v : BitVec n) (m : Nat) (x : Word) {i : Nat} (hi : i < n) :
    (setWord v m x).getLsbD i =
      if 32 * m ≤ i ∧ i < 32 * m + 32 then x.getLsbD (i - 32 * m) else v.getLsbD i := by
  simp only [setWord, BitVec.getLsbD_or, BitVec.getLsbD_and, BitVec.getLsbD_not, BitVec.getLsbD_shiftLeft,
    BitVec.getLsbD_setWidth, BitVec.getLsbD_allOnes, hi]
  by_cases h1 : i < 32 * m
  · rw [if_neg (by omega)]; simp [h1]
  · have h4 : i - 32 * m < n := by omega
    by_cases h2 : i - 32 * m < 32
    · rw [if_pos (by omega)]; simp [h1, h2, h4]
    · rw [if_neg (by omega), x.getLsbD_of_ge (i - 32 * m) (by omega)]; simp [h1, h2, h4]

/-- R65: bit `i` of word `m` of a register. -/
theorem getLsbD_getWord {n : Nat} (v : BitVec n) (m : Nat) {i : Nat} (hi : i < 32) :
    (getWord v m).getLsbD i = v.getLsbD (32 * m + i) := by
  simp [getWord, hi]

/-- R108: the two halves of `Cat64`. -/
theorem toNat_cat64 (a b : Nat) : (cat64 a b).toNat = a % 2 ^ 64 + b % 2 ^ 64 * 2 ^ 64 := by
  unfold cat64
  rw [BitVec.toNat_ofNat]
  omega

/-- R107: `Pack64` is `Cat64` with a zero second field. -/
theorem pack64_eq_cat64 (v : DWord) : pack64 v = cat64 v.toNat 0 := by
  apply BitVec.eq_of_toNat_eq
  rw [toNat_cat64]
  simp [pack64]
  omega

end Sys2Proof.Machine
end

