-- ==== Sys2Proof/Laws/Modes.lean ====
section
/-! SUPPORT. Laws/Modes.lean: every mode gives as many blocks as it takes (40_primitives.md R110). -/

namespace Sys2Proof.Machine

@[simp] theorem xtsBlocks_length (f : Block → Block) (t : Block) (bs : List Block) :
    (xtsBlocks f t bs).length = bs.length := by
  induction bs generalizing t with
  | nil => rfl
  | cons b bs ih => simp [xtsBlocks, ih]

/-- R170, R171: block `i` of the XTS transform, under `α^i` of the first tweak. -/
theorem xtsBlocks_getElem (f : Block → Block) (t : Block) (bs : List Block) (i : Nat) (h : i < bs.length) :
    (xtsBlocks f t bs)[i]? = some (f (bs[i] ^^^ alpha^[i] t) ^^^ alpha^[i] t) := by
  induction bs generalizing t i with
  | nil => simp at h
  | cons b bs ih =>
    cases i with
    | zero => simp [xtsBlocks]
    | succ i => simp [xtsBlocks, ih (alpha t) i (by simpa using h)]

@[simp] theorem cbcForward_length (e : Block → Block) (chain : Block) (bs : List Block) :
    (cbcForward e chain bs).length = bs.length := by
  induction bs generalizing chain with
  | nil => rfl
  | cons b bs ih => simp [cbcForward, ih]

@[simp] theorem cbcBackward_length (d : Block → Block) (chain : Block) (bs : List Block) :
    (cbcBackward d chain bs).length = bs.length := by
  induction bs generalizing chain with
  | nil => rfl
  | cons b bs ih => simp [cbcBackward, ih]

@[simp] theorem xorAll_length (m : Block) (bs : List Block) : (xorAll m bs).length = bs.length := by
  simp [xorAll]

@[simp] theorem cmcReverse_length (e : Block → Block) (t : Block) (bs : List Block) :
    (cmcReverse e t bs).length = bs.length := by
  induction bs with
  | nil => rfl
  | cons b bs ih => simp [cmcReverse, ih]

@[simp] theorem cmcUnreverse_length (d : Block → Block) (t : Block) (bs : List Block) :
    (cmcUnreverse d t bs).length = bs.length := by
  induction bs with
  | nil => rfl
  | cons b bs ih => simp [cmcUnreverse, ih]

@[simp] theorem cmcEncrypt_length (e : Block → Block) (t : Block) (bs : List Block) :
    (cmcEncrypt e t bs).length = bs.length := by simp [cmcEncrypt]

@[simp] theorem cmcDecrypt_length (d : Block → Block) (t : Block) (bs : List Block) :
    (cmcDecrypt d t bs).length = bs.length := by simp [cmcDecrypt]

@[simp] theorem hehMaskBlocks_length (y e : Block) (bs : List Block) :
    (hehMaskBlocks y e bs).length = bs.length := by
  induction bs generalizing e with
  | nil => rfl
  | cons b bs ih => simp [hehMaskBlocks, ih]

/-- R191, R192: block `i` after the HEH masks. -/
theorem hehMaskBlocks_getElem (y e : Block) (bs : List Block) (i : Nat) (h : i < bs.length) :
    (hehMaskBlocks y e bs)[i]? = some (bs[i] ^^^ y ^^^ alpha^[i] e) := by
  induction bs generalizing e i with
  | nil => simp at h
  | cons b bs ih =>
    cases i with
    | zero => simp [hehMaskBlocks]
    | succ i => simp [hehMaskBlocks, ih (alpha e) i (by simpa using h)]

theorem psi_length (tau : Block) {bs : List Block} (h : bs ≠ []) : (psi tau bs).length = bs.length := by
  have h1 : 0 < bs.length := List.length_pos_iff.2 h
  simp only [psi, List.length_append, hehMaskBlocks_length, List.length_dropLast, List.length_singleton]
  omega

theorem psiInv_length (tau : Block) {bs : List Block} (h : bs ≠ []) : (psiInv tau bs).length = bs.length := by
  have h1 : 0 < bs.length := List.length_pos_iff.2 h
  simp only [psiInv, List.length_append, hehMaskBlocks_length, List.length_dropLast, List.length_singleton]
  omega

theorem hehTransform_length (f : Block → Block) (tau : Block) {bs : List Block} (h : bs ≠ []) :
    (hehTransform f tau bs).length = bs.length := by
  have h1 : (psi tau bs).map f ≠ [] := by
    intro hc
    have := congrArg List.length hc
    simp only [List.length_map, psi_length tau h, List.length_nil] at this
    exact h (List.eq_nil_of_length_eq_zero this)
  unfold hehTransform
  rw [psiInv_length tau h1, List.length_map, psi_length tau h]

@[simp] theorem keystreamXor_length (e : Block → Block) (sector sectorCounter n t : Nat) (bs : List Block) :
    (keystreamXor e sector sectorCounter n t bs).length = bs.length := by
  induction bs generalizing t with
  | nil => rfl
  | cons b bs ih => simp [keystreamXor, ih]

/-- R215, R216: block `i` of the keystream transform. -/
theorem keystreamXor_getElem (e : Block → Block) (sector sectorCounter n t : Nat) (bs : List Block) (i : Nat)
    (h : i < bs.length) :
    (keystreamXor e sector sectorCounter n t bs)[i]? =
      some (bs[i] ^^^ e (counterBlock sector sectorCounter n (t + i))) := by
  induction bs generalizing t i with
  | nil => simp at h
  | cons b bs ih =>
    cases i with
    | zero => simp [keystreamXor]
    | succ i =>
      have e1 : t + 1 + i = t + (i + 1) := by omega
      simp [keystreamXor, ih (t + 1) i (by simpa using h), e1]

end Sys2Proof.Machine
end

