-- ==== Sys2Proof/Laws/Commands.lean ====
section
/-! SUPPORT. Laws/Commands.lean: the error checks of each family, and once for all commands everything `exec` can
answer (30_encoding.md R93, R94; 60_exceptions.md R242, R243). -/

namespace Sys2Proof.Machine

/-! ### The checks -/

/-- A code that a check of a decoded command can give: neither success nor ILLEGAL_COMMAND. -/
def IsCheckCode (e : ErrCode) : Prop := e ≠ .ok ∧ e ≠ .illegalCommand

theorem checkN_eq_ok {pf : Platform} {n min : Nat} (h : checkN pf n min = .ok ()) :
    min ≤ n ∧ n ≤ pf.maxBlocks := by
  rcases checkN_cases pf n min with ⟨_, h'⟩ | ⟨_, _, h'⟩ | ⟨h1, h2, _⟩
  · rw [h'] at h; cases h
  · rw [h'] at h; cases h
  · exact ⟨h1, h2⟩

theorem checkN_of_le {pf : Platform} {n min : Nat} (h1 : min ≤ n) (h2 : n ≤ pf.maxBlocks) :
    checkN pf n min = .ok () := by
  unfold checkN
  rw [if_neg (by omega), if_neg (by omega)]

theorem checkN_error {pf : Platform} {n min : Nat} {e : ErrCode} (h : checkN pf n min = .error e) :
    IsCheckCode e := by
  rcases checkN_cases pf n min with ⟨_, h'⟩ | ⟨_, _, h'⟩ | ⟨_, _, h'⟩ <;> rw [h'] at h <;> cases h <;>
    exact ⟨nofun, nofun⟩

theorem keyFetch_error {pf : Platform} {form : KeyForm} {r : KeyReg} {o : Orientation} {s : State} {e : ErrCode}
    (h : keyFetch pf form r o s = .error e) : IsCheckCode e := by
  rcases keyFetch_cases pf form r o s with ⟨-, k, -, h'⟩ | ⟨-, -, h'⟩ | ⟨-, k, -, h'⟩ | ⟨-, -, h'⟩ <;>
    rw [h'] at h <;> cases h <;> exact ⟨nofun, nofun⟩

theorem orRejected_error {κ : Type} {x : Option κ} {e : ErrCode} (h : orRejected x = .error e) :
    IsCheckCode e := by
  cases x <;> simp only [orRejected] at h <;> cases h
  exact ⟨nofun, nofun⟩

theorem cmacCheck_error {pf : Platform} {form : KeyForm} {tagBits : BitVec 8} {n : BitVec 16} {s : State}
    {e : ErrCode} (h : cmacCheck pf form tagBits n s = .error e) : IsCheckCode e := by
  unfold cmacCheck at h
  split at h
  · rename_i h0
    cases h
    rcases checkTagBits_cases tagBits with ⟨_, h'⟩ | ⟨_, _, h'⟩ <;> rw [h'] at h0 <;> cases h0
    exact ⟨nofun, nofun⟩
  split at h
  · rename_i h0; cases h; exact checkN_error h0
  exact keyFetch_error h

theorem cmcCheck_error {pf : Platform} {form : KeyForm} {o : Orientation} {n : BitVec 16} {s : State}
    {e : ErrCode} (h : cmcCheck pf form o n s = .error e) : IsCheckCode e := by
  unfold cmcCheck at h
  split at h
  · rename_i h0; cases h; exact checkN_error h0
  split at h
  · rename_i h0; cases h; exact keyFetch_error h0
  split at h
  · rename_i h0; cases h; exact keyFetch_error h0
  cases h

theorem cmcCheck_ok {pf : Platform} {form : KeyForm} {o : Orientation} {n : BitVec 16} {s : State}
    {k : Key × Key} (h : cmcCheck pf form o n s = .ok k) : 2 ≤ n.toNat ∧ n.toNat ≤ pf.maxBlocks := by
  unfold cmcCheck at h
  split at h
  · cases h
  · rename_i h0; exact checkN_eq_ok h0

theorem xtsCheck_error {pf : Platform} {form : KeyForm} {o : Orientation} {n : BitVec 16} {s : State}
    {e : ErrCode} (h : xtsCheck pf form o n s = .error e) : IsCheckCode e := by
  unfold xtsCheck at h
  split at h
  · rename_i h0; cases h; exact checkN_error h0
  split at h
  · rename_i h0; cases h; exact keyFetch_error h0
  split at h
  · rename_i h0; cases h; exact keyFetch_error h0
  cases h

theorem xtsCheck_ok {pf : Platform} {form : KeyForm} {o : Orientation} {n : BitVec 16} {s : State}
    {k : Key × Key} (h : xtsCheck pf form o n s = .ok k) : 1 ≤ n.toNat ∧ n.toNat ≤ pf.maxBlocks := by
  unfold xtsCheck at h
  split at h
  · cases h
  · rename_i h0; exact checkN_eq_ok h0

theorem hehCheck_error {pf : Platform} {form : KeyForm} {o : Orientation} {n : BitVec 16} {s : State}
    {e : ErrCode} (h : hehCheck pf form o n s = .error e) : IsCheckCode e := by
  unfold hehCheck at h
  split at h
  · rename_i h0; cases h; exact checkN_error h0
  split at h
  · rename_i h0; cases h; exact keyFetch_error h0
  split at h
  · cases h
  split at h
  · rename_i h0; cases h; exact keyFetch_error h0
  cases h

theorem hehCheck_ok {pf : Platform} {form : KeyForm} {o : Orientation} {n : BitVec 16} {s : State}
    {k : Key × Key} (h : hehCheck pf form o n s = .ok k) : 2 ≤ n.toNat ∧ n.toNat ≤ pf.maxBlocks := by
  unfold hehCheck at h
  split at h
  · cases h
  · rename_i h0; exact checkN_eq_ok h0

theorem decCheck_error {pf : Platform} {n : BitVec 16} {s : State} {e : ErrCode}
    (h : decCheck pf n s = .error e) : IsCheckCode e := by
  unfold decCheck at h
  split at h
  · rename_i h0; cases h; exact checkN_error h0
  split at h
  · rename_i h0; cases h; exact orRejected_error h0
  split at h
  · rename_i h0; cases h; exact orRejected_error h0
  exact orRejected_error h

theorem decCheck_ok {pf : Platform} {n : BitVec 16} {s : State} {k : Key} (h : decCheck pf n s = .ok k) :
    1 ≤ n.toNat ∧ n.toNat ≤ pf.maxBlocks := by
  unfold decCheck at h
  split at h
  · cases h
  · rename_i h0; exact checkN_eq_ok h0

/-- R112: a slot after KEYSCHED holds both schedules of its key register, or was not selected and is as it was. -/
theorem scheduleSlot_cases (pf : Platform) (selected : Bool) (k : RawKey) (old : KeySlot) :
    (selected = false ∧ scheduleSlot pf selected k old = .ok old) ∨
    (selected = true ∧ ∃ ke kd, pf.ksEnc k = some ke ∧ pf.ksDec k = some kd ∧
      scheduleSlot pf selected k old = .ok (some { kenc := ke, kdec := kd })) ∨
    (selected = true ∧ (pf.ksEnc k = none ∨ pf.ksDec k = none) ∧
      scheduleSlot pf selected k old = .error .keyRejected) := by
  cases selected with
  | false => exact .inl ⟨rfl, rfl⟩
  | true =>
    cases he : pf.ksEnc k with
    | none => exact .inr (.inr ⟨rfl, .inl rfl, by simp [scheduleSlot, scheduleBoth, he]⟩)
    | some ke =>
      cases hd : pf.ksDec k with
      | none => exact .inr (.inr ⟨rfl, .inr rfl, by simp [scheduleSlot, scheduleBoth, he, hd]⟩)
      | some kd => exact .inr (.inl ⟨rfl, ke, kd, rfl, rfl, by simp [scheduleSlot, scheduleBoth, he, hd]⟩)

theorem scheduleSlots_error {pf : Platform} {slotMask : BitVec 2} {s : State} {e : ErrCode}
    (h : scheduleSlots pf slotMask s = .error e) : IsCheckCode e := by
  unfold scheduleSlots at h
  split at h
  · rename_i h0
    cases h
    rcases scheduleSlot_cases pf (slotMask.getLsbD 0) s.key0 s.slot0 with ⟨-, h'⟩ | ⟨-, _, _, -, -, h'⟩ | ⟨-, -, h'⟩ <;>
      rw [h'] at h0 <;> cases h0
    exact ⟨nofun, nofun⟩
  split at h
  · rename_i h0
    cases h
    rcases scheduleSlot_cases pf (slotMask.getLsbD 1) s.key1 s.slot1 with ⟨-, h'⟩ | ⟨-, _, _, -, -, h'⟩ | ⟨-, -, h'⟩ <;>
      rw [h'] at h0 <;> cases h0
    exact ⟨nofun, nofun⟩
  cases h

theorem scheduleSlots_ok {pf : Platform} {slotMask : BitVec 2} {s : State} {slots : KeySlot × KeySlot}
    (h : scheduleSlots pf slotMask s = .ok slots) :
    scheduleSlot pf (slotMask.getLsbD 0) s.key0 s.slot0 = .ok slots.1 ∧
      scheduleSlot pf (slotMask.getLsbD 1) s.key1 s.slot1 = .ok slots.2 := by
  unfold scheduleSlots at h
  split at h
  · cases h
  rename_i h0
  split at h
  · cases h
  rename_i h1
  cases h
  exact ⟨h0, h1⟩

/-! ### Everything a command can answer -/

/-- The effects of a command before the completion writes STATUS and LATCH: the sector commands replace N blocks,
CMAC_DIGEST replaces TAG, CMAC_VERIFY replaces VALID, KEYSCHED replaces the slots. -/
inductive Effect (i : Instr) (s : State) : State → Prop
  | sector (out : List Block) (hout : out.length = blocksWritten i) (hmax : out.length ≤ Config.maxBlocks) :
      Effect i s { s with data := writeBlocks s.data 0 out }
  | digest (h : isDigest i = true) (tag : Block) : Effect i s { s with tag := tag }
  | verify (h : isVerify i = true) (valid : Bool) :
      Effect i s { s with status := { s.status with valid := valid } }
  | keysched (slotMask : BitVec 2) (h : i = .keysched slotMask) (slots : KeySlot × KeySlot)
      (hs : scheduleSlots Config.platform slotMask s = .ok slots) :
      Effect i s { s with slot0 := slots.1, slot1 := slots.2 }

/-- What a command can answer: an error completion, the fault of an unwritten input block, or its effect,
completed with ERR = 0. -/
def Answers (i : Instr) (s : State) (r : Host.Outcome State Fault Refusal) : Prop :=
  (∃ e, IsCheckCode e ∧ r = .next (s.finish e)) ∨
  (∃ f, readBlocks s.data 0 (blocksRead i) = .error f ∧ r = .fault f) ∨
  (∃ t, Effect i s t ∧ r = .next (t.finish .ok))

theorem answers_sector {κ : Type} (i : Instr) (n : Nat) (checked : Except ErrCode κ)
    (f : κ → List Block → List Block) (s : State) (hr : blocksRead i = n) (hw : blocksWritten i = n)
    (hok : ∀ k, checked = .ok k → 1 ≤ n ∧ n ≤ Config.platform.maxBlocks)
    (he : ∀ e, checked = .error e → IsCheckCode e)
    (hf : ∀ k bs, bs ≠ [] → (f k bs).length = bs.length) :
    Answers i s (complete checked (fun k => transformSector n (f k) s) s) := by
  rcases complete_cases checked (fun k => transformSector n (f k) s) s with
    ⟨e, h, hc⟩ | ⟨k, fl, h, hk, hc⟩ | ⟨k, s', h, hk, hc⟩
  · exact .inl ⟨e, he e h, hc⟩
  · rcases transformSector_cases n (f k) s with ⟨e, h1, h2⟩ | ⟨input, h1, h2⟩
    · rw [h2] at hk; cases hk; exact .inr (.inl ⟨_, hr ▸ h1, hc⟩)
    · rw [h2] at hk; cases hk
  · rcases transformSector_cases n (f k) s with ⟨e, h1, h2⟩ | ⟨input, h1, h2⟩
    · rw [h2] at hk; cases hk
    · rw [h2] at hk
      cases hk
      have hl := (readBlocks_eq_ok.1 h1).1
      have hn := hok k h
      rw [Config.platform_maxBlocks] at hn
      have hne : input ≠ [] := by
        rintro rfl
        simp only [List.length_nil] at hl
        omega
      have hlen := hf k input hne
      exact .inr (.inr ⟨_, .sector (f k input) (by omega) (by omega), hc⟩)

theorem answers_xts (i : Instr) (form : KeyForm) (o : Orientation) (n : BitVec 16) (s : State)
    (hr : blocksRead i = n.toNat) (hw : blocksWritten i = n.toNat) :
    Answers i s (xtsCommand Config.platform form o n s) := by
  unfold xtsCommand
  exact answers_sector i n.toNat _ (fun k => xtsBlocks (crypt Config.platform o k.1) (xtsTweak Config.platform k.2 s)) s hr hw
    (fun k h => xtsCheck_ok h)
    (fun e h => xtsCheck_error h) (fun _ _ _ => xtsBlocks_length ..)

theorem answers_cmcEnc (i : Instr) (form : KeyForm) (n : BitVec 16) (s : State)
    (hr : blocksRead i = n.toNat) (hw : blocksWritten i = n.toNat) :
    Answers i s (cmcEncCommand Config.platform form n s) := by
  unfold cmcEncCommand
  exact answers_sector i n.toNat _ (fun k => cmcEncrypt (Config.platform.enc k.1) (cmcTweak Config.platform k.2 s)) s hr hw
    (fun k h => ⟨Nat.le_of_succ_le (cmcCheck_ok h).1, (cmcCheck_ok h).2⟩)
    (fun e h => cmcCheck_error h) (fun _ _ _ => cmcEncrypt_length ..)

theorem answers_cmcDec (i : Instr) (form : KeyForm) (n : BitVec 16) (s : State)
    (hr : blocksRead i = n.toNat) (hw : blocksWritten i = n.toNat) :
    Answers i s (cmcDecCommand Config.platform form n s) := by
  unfold cmcDecCommand
  exact answers_sector i n.toNat _ (fun k => cmcDecrypt (Config.platform.dec k.1) (cmcTweak Config.platform k.2 s)) s hr hw
    (fun k h => ⟨Nat.le_of_succ_le (cmcCheck_ok h).1, (cmcCheck_ok h).2⟩)
    (fun e h => cmcCheck_error h) (fun _ _ _ => cmcDecrypt_length ..)

theorem answers_heh (i : Instr) (form : KeyForm) (o : Orientation) (n : BitVec 16) (s : State)
    (hr : blocksRead i = n.toNat) (hw : blocksWritten i = n.toNat) :
    Answers i s (hehCommand Config.platform form o n s) := by
  unfold hehCommand
  have hok : ∀ k, hehCheck Config.platform form o n s = .ok k → 1 ≤ n.toNat ∧ n.toNat ≤ Config.platform.maxBlocks :=
    fun k h => ⟨Nat.le_of_succ_le (hehCheck_ok h).1, (hehCheck_ok h).2⟩
  have hf : ∀ (k : Key × Key) (bs : List Block), bs ≠ [] →
      (hehTransform (crypt Config.platform o k.2) (hehTau Config.platform k.1 s) bs).length = bs.length :=
    fun k bs h => hehTransform_length _ _ h
  have he : ∀ e, hehCheck Config.platform form o n s = .error e → IsCheckCode e := fun e h => hehCheck_error h
  exact answers_sector i n.toNat (hehCheck Config.platform form o n s)
    (fun k => hehTransform (crypt Config.platform o k.2) (hehTau Config.platform k.1 s)) s hr hw hok he hf

theorem answers_dec (i : Instr) (n : BitVec 16) (s : State)
    (hr : blocksRead i = n.toNat) (hw : blocksWritten i = n.toNat) :
    Answers i s (decCommand Config.platform n s) := by
  unfold decCommand
  exact answers_sector i n.toNat _
    (fun ks => keystreamXor (Config.platform.enc ks) s.p2.toNat s.p3.toNat n.toNat 0) s hr hw
    (fun k h => decCheck_ok h)
    (fun e h => decCheck_error h) (fun _ _ _ => keystreamXor_length ..)

/-- R134, R136: the tag of the message, or the fault of an unwritten message block. -/
theorem sectorTag_cases (pf : Platform) (k : Key) (tagBits : BitVec 8) (n : BitVec 16) (s : State) :
    (∃ f, readBlocks s.data 0 n.toNat = .error f ∧ sectorTag pf k tagBits n s = .error f) ∨
    (∃ message, readBlocks s.data 0 n.toNat = .ok message ∧
      sectorTag pf k tagBits n s = .ok (trunc (cmac (pf.enc k) message) tagBits.toNat)) := by
  unfold sectorTag
  cases h : readBlocks s.data 0 n.toNat with
  | error f => exact .inl ⟨f, rfl, rfl⟩
  | ok message => exact .inr ⟨message, rfl, rfl⟩

theorem answers_digest (i : Instr) (form : KeyForm) (tagBits : BitVec 8) (n : BitVec 16) (s : State)
    (hr : blocksRead i = n.toNat) (hi : isDigest i = true) :
    Answers i s (cmacDigestCommand Config.platform form tagBits n s) := by
  unfold cmacDigestCommand
  cases hc : cmacCheck Config.platform form tagBits n s with
  | error e => exact .inl ⟨e, cmacCheck_error hc, rfl⟩
  | ok k =>
    rcases sectorTag_cases Config.platform k tagBits n s with ⟨f, h1, h2⟩ | ⟨message, h1, h2⟩
    · exact .inr (.inl ⟨f, hr ▸ h1, by simp [complete, h2]⟩)
    · exact .inr (.inr ⟨_, .digest hi _, by simp [complete, h2]; rfl⟩)

theorem answers_verify (i : Instr) (form : KeyForm) (tagBits : BitVec 8) (n : BitVec 16) (s : State)
    (hr : blocksRead i = n.toNat) (hi : isVerify i = true) :
    Answers i s (cmacVerifyCommand Config.platform form tagBits n s) := by
  unfold cmacVerifyCommand
  cases hc : cmacCheck Config.platform form tagBits n s with
  | error e => exact .inl ⟨e, cmacCheck_error hc, rfl⟩
  | ok k =>
    rcases sectorTag_cases Config.platform k tagBits n s with ⟨f, h1, h2⟩ | ⟨message, h1, h2⟩
    · exact .inr (.inl ⟨f, hr ▸ h1, by simp [complete, h2]⟩)
    · exact .inr (.inr ⟨_, .verify hi _, by simp [complete, h2]; rfl⟩)

/-- Everything `exec` can answer, for every command and state. -/
theorem exec_answers (i : Instr) (s : State) : Answers i s (exec i s) := by
  cases i with
  | keysched slotMask =>
    show Answers _ s (keyschedCommand Config.platform slotMask s)
    unfold keyschedCommand
    cases hc : scheduleSlots Config.platform slotMask s with
    | error e => exact .inl ⟨e, scheduleSlots_error hc, rfl⟩
    | ok slots => exact .inr (.inr ⟨_, .keysched slotMask rfl slots hc, rfl⟩)
  | cmacDigestRaw tagBits n => exact answers_digest _ .raw tagBits n s rfl rfl
  | cmacDigestSlot tagBits n => exact answers_digest _ .slot tagBits n s rfl rfl
  | cmacVerifyRaw tagBits n => exact answers_verify _ .raw tagBits n s rfl rfl
  | cmacVerifySlot tagBits n => exact answers_verify _ .slot tagBits n s rfl rfl
  | cmcEncRaw n => exact answers_cmcEnc _ .raw n s rfl rfl
  | cmcEncSlot n => exact answers_cmcEnc _ .slot n s rfl rfl
  | cmcDecRaw n => exact answers_cmcDec _ .raw n s rfl rfl
  | cmcDecSlot n => exact answers_cmcDec _ .slot n s rfl rfl
  | xtsEncRaw n => exact answers_xts _ .raw .enc n s rfl rfl
  | xtsEncSlot n => exact answers_xts _ .slot .enc n s rfl rfl
  | xtsDecRaw n => exact answers_xts _ .raw .dec n s rfl rfl
  | xtsDecSlot n => exact answers_xts _ .slot .dec n s rfl rfl
  | hehEncRaw n => exact answers_heh _ .raw .enc n s rfl rfl
  | hehEncSlot n => exact answers_heh _ .slot .enc n s rfl rfl
  | hehDecRaw n => exact answers_heh _ .raw .dec n s rfl rfl
  | hehDecSlot n => exact answers_heh _ .slot .dec n s rfl rfl
  | decEncRaw n => exact answers_dec _ n s rfl rfl
  | decDecRaw n => exact answers_dec _ n s rfl rfl

end Sys2Proof.Machine
end

