-- ==== Sys2Proof/Laws/Decode.lean ====
section
/-! SUPPORT. Laws/Decode.lean: what `assemble` puts where (30_encoding.md R81, R89). -/

namespace Sys2Proof

/-- R81, R89: each field of an assembled word holds what was put there, and RSV is 0. -/
theorem fields_assemble (op : BitVec 4) (raw : Bool) (arg : BitVec 8) (n : BitVec 16) :
    opField (assemble op raw arg n) = op ∧ rawField (assemble op raw arg n) = raw ∧
      rsvField (assemble op raw arg n) = 0 ∧ argField (assemble op raw arg n) = arg ∧
      nField (assemble op raw arg n) = n := by
  unfold opField rawField rsvField argField nField assemble
  refine ⟨?_, ?_, ?_, ?_, ?_⟩
  · ext i hi; simp; interval_cases i <;> simp
  · cases raw <;> simp
  · ext i hi; simp; interval_cases i <;> simp
  · ext i hi; simp; interval_cases i <;> simp
  · ext i hi; simp; interval_cases i <;> simp

/-- The bits of the two masks of the opcode table that are not KEYSCHED's. -/
theorem mask_bit : ∀ i : Fin 32, (0x000000FF : Word).getLsbD i = decide (i.val < 8) ∧
    (0x0000FFFF : Word).getLsbD i = decide (i.val < 16) := by decide

/-- R81: the low byte of an assembled word is OP and RAW. -/
theorem assemble_and_ff (op : BitVec 4) (raw : Bool) (arg : BitVec 8) (n : BitVec 16) :
    assemble op raw arg n &&& 0x000000FF = assemble op raw 0 0 := by
  apply BitVec.eq_of_getLsbD_eq
  intro i hi
  rw [BitVec.getLsbD_and, (mask_bit ⟨i, hi⟩).1]
  unfold assemble
  simp only [BitVec.getLsbD_or, BitVec.getLsbD_shiftLeft, BitVec.getLsbD_setWidth, hi]
  by_cases h : i < 8
  · have : i < 16 := by omega
    simp [h, this]
  · have h1 : ¬ i < 4 := by omega
    simp [h, BitVec.getLsbD_of_ge op i (by omega)]
    intro; omega

/-- R81: without ARG, the low half of an assembled word is OP and RAW. -/
theorem assemble_and_ffff (op : BitVec 4) (raw : Bool) (n : BitVec 16) :
    assemble op raw 0 n &&& 0x0000FFFF = assemble op raw 0 0 := by
  apply BitVec.eq_of_getLsbD_eq
  intro i hi
  rw [BitVec.getLsbD_and, (mask_bit ⟨i, hi⟩).2]
  unfold assemble
  simp only [BitVec.getLsbD_or, BitVec.getLsbD_shiftLeft, BitVec.getLsbD_setWidth, hi]
  by_cases h : i < 16
  · simp [h]
  · simp [h, BitVec.getLsbD_of_ge op i (by omega)]
    intro; omega

end Sys2Proof
end

