-- ==== Sys2Proof/Laws/Observe.lean ====
section
/-! SUPPORT. Laws/Observe.lean: a run has at most one end, a fault is none, and what an observation can tell
(70_reset_and_hazards.md R288). -/

namespace Sys2Proof.Machine

/-- The end of a run is an end. -/
theorem EndsAt.is_ended {s t : State} (h : EndsAt s t) : Ended t := by
  induction h with
  | ended h => exact h
  | next _ _ _ ih => exact ih

/-- A run has at most one end. -/
theorem EndsAt.unique {s t u : State} (ht : EndsAt s t) (hu : EndsAt s u) : t = u := by
  induction ht with
  | ended h =>
    cases hu with
    | ended => rfl
    | next hn => exact absurd h hn
  | next hn hs _ ih =>
    cases hu with
    | ended h => exact absurd h hn
    | next _ hs' hu' => exact ih (Host.Outcome.next.inj (hs.symm.trans hs') ▸ hu')

/-- A run that faults before its end does not end (R288). -/
theorem not_endsAt_of_fault {s t : State} {f : Fault} (hn : ¬Ended s) (hs : step s = .fault f) : ¬EndsAt s t := by
  intro h
  cases h with
  | ended h => exact hn h
  | next _ hs' _ => exact nomatch hs.symm.trans hs'

@[simp] theorem observe_caps (held : Nat → Byte) (s : State) : (s.observe held).caps = capsWord Config.platform := rfl
@[simp] theorem observe_cmd (held : Nat → Byte) (s : State) : (s.observe held).cmd = s.latch.word := rfl
@[simp] theorem observe_status (held : Nat → Byte) (s : State) : (s.observe held).status = s.status := rfl
@[simp] theorem observe_cfg (held : Nat → Byte) (s : State) : (s.observe held).cfg = s.cfg := rfl
@[simp] theorem observe_p0 (held : Nat → Byte) (s : State) : (s.observe held).p0 = s.p0 := rfl
@[simp] theorem observe_p1 (held : Nat → Byte) (s : State) : (s.observe held).p1 = s.p1 := rfl
@[simp] theorem observe_p2 (held : Nat → Byte) (s : State) : (s.observe held).p2 = s.p2 := rfl
@[simp] theorem observe_p3 (held : Nat → Byte) (s : State) : (s.observe held).p3 = s.p3 := rfl
@[simp] theorem observe_key0 (held : Nat → Byte) (s : State) : (s.observe held).key0 = s.key0 := rfl
@[simp] theorem observe_key1 (held : Nat → Byte) (s : State) : (s.observe held).key1 = s.key1 := rfl
@[simp] theorem observe_tag (held : Nat → Byte) (s : State) : (s.observe held).tag = s.tag := rfl
@[simp] theorem observe_data (held : Nat → Byte) (s : State) :
    (s.observe held).data = observedData Config.maxBlocks held s.data := rfl
@[simp] theorem observe_slot0 (held : Nat → Byte) (s : State) : (s.observe held).slot0 = s.slot0 := rfl
@[simp] theorem observe_slot1 (held : Nat → Byte) (s : State) : (s.observe held).slot1 = s.slot1 := rfl
@[simp] theorem observe_latch (held : Nat → Byte) (s : State) : (s.observe held).latch = s.latch := rfl
@[simp] theorem observe_reads (held : Nat → Byte) (s : State) : (s.observe held).reads = s.host.observedReads := rfl

/-- The schedule and the lines still to run are no part of the observation. -/
theorem observe_schedule (held : Nat → Byte) (s : State) (ts : List Turn) (lines : List HostLine) :
    State.observe held { s with turns := ts, host := { s.host with program := lines } } = s.observe held := rfl

/-- A written byte of DATA is observed as it is, whatever the hardware holds in the others. -/
theorem observe_data_written {held : Nat → Byte} {s : State} {i : Nat} {b : Byte} (hi : i < 16 * Config.maxBlocks)
    (h : Memory.read s.data (0x1000 + i) = some b) : (s.observe held).data[i]? = some b := by
  simp [State.observe, State.observeOn, observedData, hi, h]

/-- WRITTEN is not observed: some content of the unwritten bytes makes any two DATA buffers alike that do not differ
in a byte written in both. -/
theorem observedData_agree (maxBlocks : Nat) (m m' : Memory)
    (h : ∀ a b b', Memory.read m a = some b → Memory.read m' a = some b' → b = b') :
    ∃ held held', observedData maxBlocks held m = observedData maxBlocks held' m' := by
  refine ⟨fun i => (Memory.read m' (0x1000 + i)).getD 0, fun i => (Memory.read m (0x1000 + i)).getD 0,
    List.map_congr_left fun i _ => ?_⟩
  cases hm : Memory.read m (0x1000 + i) <;> cases hm' : Memory.read m' (0x1000 + i) <;> simp [hm, hm']
  exact h _ _ _ hm hm'

/-- A poll of `wait` that saw BUSY = 1 is not observed. -/
theorem observedReads_record_busy {h : HostAgent} {v : Word} (hv : v.getLsbD 0 = true) :
    (h.record true v).observedReads = h.observedReads := by
  simp [HostAgent.observedReads, HostAgent.record, HostRead.observed, hv, -BitVec.getLsbD_eq_getElem]

/-- Every value a `rd` line gives is observed. -/
theorem observedReads_record_rd (h : HostAgent) (v : Word) :
    (h.record false v).observedReads = h.observedReads ++ [v] := by
  simp [HostAgent.observedReads, HostAgent.record, HostRead.observed]

end Sys2Proof.Machine
end

