-- ==== Sys2Proof/Laws/PerInstr.lean ====
section
/-! SUPPORT. Laws/PerInstr.lean: the opcode table's row of each command: the encoding lies in its row
(30_encoding.md R82, R88). -/

namespace Sys2Proof.Laws.TableRow

/-- The bits a command's row of the opcode table fixes (R88). -/
def mask : Instr → Word
  | .keysched _ => 0xFFFFFCFF
  | .cmacDigestRaw _ _ => 0x000000FF
  | .cmacDigestSlot _ _ => 0x000000FF
  | .cmacVerifyRaw _ _ => 0x000000FF
  | .cmacVerifySlot _ _ => 0x000000FF
  | .cmcEncRaw _ => 0x0000FFFF
  | .cmcEncSlot _ => 0x0000FFFF
  | .cmcDecRaw _ => 0x0000FFFF
  | .cmcDecSlot _ => 0x0000FFFF
  | .xtsEncRaw _ => 0x0000FFFF
  | .xtsEncSlot _ => 0x0000FFFF
  | .xtsDecRaw _ => 0x0000FFFF
  | .xtsDecSlot _ => 0x0000FFFF
  | .hehEncRaw _ => 0x0000FFFF
  | .hehEncSlot _ => 0x0000FFFF
  | .hehDecRaw _ => 0x0000FFFF
  | .hehDecSlot _ => 0x0000FFFF
  | .decEncRaw _ => 0x0000FFFF
  | .decDecRaw _ => 0x0000FFFF

/-- What those bits are (R88). -/
def pattern : Instr → Word
  | .keysched _ => 0x00000001
  | .cmacDigestRaw _ _ => 0x00000012
  | .cmacDigestSlot _ _ => 0x00000002
  | .cmacVerifyRaw _ _ => 0x00000013
  | .cmacVerifySlot _ _ => 0x00000003
  | .cmcEncRaw _ => 0x00000014
  | .cmcEncSlot _ => 0x00000004
  | .cmcDecRaw _ => 0x00000015
  | .cmcDecSlot _ => 0x00000005
  | .xtsEncRaw _ => 0x00000016
  | .xtsEncSlot _ => 0x00000006
  | .xtsDecRaw _ => 0x00000017
  | .xtsDecSlot _ => 0x00000007
  | .hehEncRaw _ => 0x00000018
  | .hehEncSlot _ => 0x00000008
  | .hehDecRaw _ => 0x00000019
  | .hehDecSlot _ => 0x00000009
  | .decEncRaw _ => 0x0000001A
  | .decDecRaw _ => 0x0000001B

/-- The command word lies in the command's row of the opcode table (R88). -/
def Statement (i : Instr) : Prop := encode i &&& mask i = pattern i

theorem keysched (slotMask : BitVec 2) : Statement (.keysched slotMask) := by
  revert slotMask; unfold Statement; decide

theorem cmacDigestRaw (tagBits : BitVec 8) (n : BitVec 16) : Statement (.cmacDigestRaw tagBits n) :=
  assemble_and_ff _ _ _ _

theorem cmacDigestSlot (tagBits : BitVec 8) (n : BitVec 16) : Statement (.cmacDigestSlot tagBits n) :=
  assemble_and_ff _ _ _ _

theorem cmacVerifyRaw (tagBits : BitVec 8) (n : BitVec 16) : Statement (.cmacVerifyRaw tagBits n) :=
  assemble_and_ff _ _ _ _

theorem cmacVerifySlot (tagBits : BitVec 8) (n : BitVec 16) : Statement (.cmacVerifySlot tagBits n) :=
  assemble_and_ff _ _ _ _

theorem cmcEncRaw (n : BitVec 16) : Statement (.cmcEncRaw n) := assemble_and_ffff _ _ _

theorem cmcEncSlot (n : BitVec 16) : Statement (.cmcEncSlot n) := assemble_and_ffff _ _ _

theorem cmcDecRaw (n : BitVec 16) : Statement (.cmcDecRaw n) := assemble_and_ffff _ _ _

theorem cmcDecSlot (n : BitVec 16) : Statement (.cmcDecSlot n) := assemble_and_ffff _ _ _

theorem xtsEncRaw (n : BitVec 16) : Statement (.xtsEncRaw n) := assemble_and_ffff _ _ _

theorem xtsEncSlot (n : BitVec 16) : Statement (.xtsEncSlot n) := assemble_and_ffff _ _ _

theorem xtsDecRaw (n : BitVec 16) : Statement (.xtsDecRaw n) := assemble_and_ffff _ _ _

theorem xtsDecSlot (n : BitVec 16) : Statement (.xtsDecSlot n) := assemble_and_ffff _ _ _

theorem hehEncRaw (n : BitVec 16) : Statement (.hehEncRaw n) := assemble_and_ffff _ _ _

theorem hehEncSlot (n : BitVec 16) : Statement (.hehEncSlot n) := assemble_and_ffff _ _ _

theorem hehDecRaw (n : BitVec 16) : Statement (.hehDecRaw n) := assemble_and_ffff _ _ _

theorem hehDecSlot (n : BitVec 16) : Statement (.hehDecSlot n) := assemble_and_ffff _ _ _

theorem decEncRaw (n : BitVec 16) : Statement (.decEncRaw n) := assemble_and_ffff _ _ _

theorem decDecRaw (n : BitVec 16) : Statement (.decDecRaw n) := assemble_and_ffff _ _ _

end Sys2Proof.Laws.TableRow
end

