-- ==== Sys2Proof/Tests/Slice0.lean ====
section
/-! SUPPORT. Tests/Slice0.lean: the model's own tests. Expected results are the spec's: 95_test_vectors.md,
and words written out bit by bit from 30_encoding.md R81, R82 and R88. -/

namespace Sys2Proof.Tests

/- One theorem at a time: checked side by side, the kernel evaluations below hold one thread each. -/
set_option Elab.async false

open Sys2Proof.Machine Sys2Proof.Claims

/-! ### The test instantiation of 95_test_vectors.md section 2 -/

/-- A block from its bytes written as one hexadecimal number, byte 0 first. -/
def blk (v : Nat) : Block := byteReverse (BitVec.ofNat 128 v)

/-- A raw key from its two halves, each as `blk` takes it. -/
def raw (lo hi : Nat) : RawKey := BitVec.ofNat 256 ((blk lo).toNat + (blk hi).toNat * 2 ^ 128)

def keyA : RawKey := raw 0x000102030405060708090a0b0c0d0e0f 0x101112131415161718191a1b1c1d1e1f
def keyB : RawKey := raw 0x202122232425262728292a2b2c2d2e2f 0x303132333435363738393a3b3c3d3e3f
def keyFF : RawKey := BitVec.allOnes 256
def blockA (i : Nat) : Block := blockOfBytes fun j => BitVec.ofNat 8 (16 * i + j)

/-- TOY's key schedule (section 2.2). -/
def toySchedule (k : RawKey) : Option Key :=
  if k = BitVec.allOnes 256 then none
  else some ⟨(blockOfBytes fun i => k.extractLsb' (8 * i) 8 + k.extractLsb' (8 * (i + 16)) 8).toNat⟩

/-- TOY's `E` and `D` (section 2.2). -/
def toyEnc (k : Key) (x : Block) : Block :=
  let kb := BitVec.ofNat 128 k.handle
  blockOfBytes fun i => 5 * (blockByte x ((i + 1) % 16) ^^^ blockByte kb ((i + 1) % 16)) + 1
def toyDec (k : Key) (y : Block) : Block :=
  let kb := BitVec.ofNat 128 k.handle
  blockOfBytes fun j => (205 * (blockByte y ((j + 15) % 16) - 1)) ^^^ blockByte kb j

/-- TOYKDF (section 2.2) as moves: `MAC128(k, [IV, P]) ‖ MAC128(k, [P, IV])`. -/
def toyKdfMove (k : RawKey) (input replies : List Block) : KdfMove :=
  match input, replies with
  | [iv, p], [] => .mac k iv [p]
  | [iv, p], [_] => .mac k p [iv]
  | _, [a, b] => .derive (BitVec.ofNat 256 (a.toNat + b.toNat * 2 ^ 128))
  | _, _ => .fail

/-- The parameters of section 2.1: TOY, TOYKDF, MAX_BLOCKS = 8. -/
def toy : Platform :=
  { maxBlocks := 8, ksEnc := toySchedule, ksDec := toySchedule, enc := toyEnc, dec := toyDec,
    kdfMove := toyKdfMove, kdfMoves := 3 }

/-- Section 3.6's start state with some DATA: KEY0 = KA, KEY1 = KB, P0 = TW. -/
def start (blocks : List Block) : State :=
  { State.reset with key0 := keyA, key1 := keyB, p0 := 0x0123456789abcdef, data := writeBlocks [] 0 blocks }

/-- The next state, if there is one. -/
def next? (r : Host.Outcome State Fault Refusal) : Option State :=
  match r with
  | .next s => some s
  | .fault _ => none
  | .refused _ => none

/-- The fault, if there is one. -/
def fault? (r : Host.Outcome State Fault Refusal) : Option Fault :=
  match r with
  | .next _ => none
  | .fault f => some f
  | .refused _ => none

/-- What a host reads back: STATUS and the first `n` blocks of DATA. -/
def result (n : Nat) (r : Host.Outcome State Fault Refusal) : Option (Word × List Block) :=
  match next? r with
  | some s =>
    match readBlocks s.data 0 n with
    | .ok bs => some (s.status.toWord, bs)
    | .error _ => none
  | none => none

/-- The state after a completion, for a second command. -/
def after (r : Host.Outcome State Fault Refusal) : State :=
  match r with
  | .next s => s
  | .fault _ => State.reset
  | .refused _ => State.reset

/-! ### Encoding: WellFormed, the words of 30_encoding.md R88 written out, and the words of section 3.3 -/

theorem test_wellFormed_refuses_empty_slotMask : (Instr.keysched 0).wellFormed = false := by decide

theorem test_wellFormed_accepts_slotMask : (Instr.keysched 1).wellFormed = true := by decide

theorem test_decode_keysched : decode 0x00000101 = .ok (.keysched 1) ∧ decode 0x00000201 = .ok (.keysched 2) ∧
    decode 0x00000301 = .ok (.keysched 3) := by decide +kernel

theorem test_decode_cmac : decode 0x00044012 = .ok (.cmacDigestRaw 0x40 4) ∧
    decode 0x00034002 = .ok (.cmacDigestSlot 0x40 3) ∧ decode 0x00038013 = .ok (.cmacVerifyRaw 0x80 3) ∧
    decode 0x0000ff03 = .ok (.cmacVerifySlot 0xff 0) := by decide +kernel

theorem test_decode_cmc : decode 0x00020014 = .ok (.cmcEncRaw 2) ∧ decode 0x00020004 = .ok (.cmcEncSlot 2) ∧
    decode 0x00030015 = .ok (.cmcDecRaw 3) ∧ decode 0x00030005 = .ok (.cmcDecSlot 3) := by decide +kernel

theorem test_decode_xts : decode 0x02010016 = .ok (.xtsEncRaw 513) ∧ decode 0x00020006 = .ok (.xtsEncSlot 2) ∧
    decode 0x00020017 = .ok (.xtsDecRaw 2) ∧ decode 0x80010007 = .ok (.xtsDecSlot 0x8001) := by decide +kernel

theorem test_decode_heh : decode 0x00020018 = .ok (.hehEncRaw 2) ∧ decode 0x00020008 = .ok (.hehEncSlot 2) ∧
    decode 0xffff0019 = .ok (.hehDecRaw 65535) ∧ decode 0x00030009 = .ok (.hehDecSlot 3) := by decide +kernel

theorem test_decode_dec : decode 0x0002001a = .ok (.decEncRaw 2) ∧ decode 0x0002001b = .ok (.decDecRaw 2) := by
  decide +kernel

/-- Section 3.3's illegal words, each with the check that refuses it. -/
theorem test_decode_illegal : decode 0x00000000 = .error .reservedOp ∧ decode 0x00000010 = .error .reservedOp ∧
    decode 0x0002000c = .error .reservedOp ∧ decode 0x0002000f = .error .reservedOp ∧
    decode 0x00020036 = .error .reservedBits ∧ decode 0x00020116 = .error .argNotZero ∧
    decode 0x00000001 = .error .keyschedNoSlot ∧ decode 0x00000401 = .error .keyschedArg ∧
    decode 0x00000701 = .error .keyschedArg ∧ decode 0x00000311 = .error .keyschedRaw ∧
    decode 0x00010301 = .error .keyschedBlockCount ∧ decode 0x0002000a = .error .decSlotForm ∧
    decode 0x0002000b = .error .decSlotForm := by decide +kernel

/-- The table's numbering is the word's own, and bits above `nbits` are 0. -/
theorem test_decodeTableWord : decodeTableWord 32 0x00020016 = some (.xtsEncRaw 2) ∧
    decodeTableWord 16 0x00020016 = some (.xtsEncRaw 0) ∧ decodeTableWord 32 0x00000001 = none := by
  decide +kernel

/-! ### Section 3.1: field functions and packing -/

theorem test_alpha : alpha (blk 0x80000000000000000000000000000000) = blk 0x00010000000000000000000000000000 ∧
    alpha (blk 0x00000000000000000000000000000080) = blk 0x87000000000000000000000000000000 ∧
    alpha (blk 0xffffffffffffffffffffffffffffffff) = blk 0x79ffffffffffffffffffffffffffffff := by decide +kernel

theorem test_gfMul : gfMul (blk 0x00000000000000000000000000000080) (blk 0x00000000000000000000000000000080) =
      blk 0x671000000000000000000000000000c0 ∧
    gfMul (blockA 0) (blockA 1) = blk 0xc041ee395862761aa00a8e7238291651 := by decide +kernel

theorem test_dbl : dbl (blk 0x80000000000000000000000000000000) = blk 0x00000000000000000000000000000087 ∧
    dbl (blk 0xffffffffffffffffffffffffffffffff) = blk 0xffffffffffffffffffffffffffffff79 ∧
    dbl (blk 0x94bec15e269cf1e506f02b994c0a8ea0) = blk 0x297d82bc4d39e3ca0de0573298151dc7 ∧
    dbl (blk 0x297d82bc4d39e3ca0de0573298151dc7) = blk 0x52fb05789a73c7941bc0ae65302a3b8e := by decide +kernel

theorem test_pack64 : pack64 0x123456789abcdef = blk 0xefcdab89674523010000000000000000 := by decide +kernel

theorem test_cat64 : cat64 0x3333333333 0xcafebabe = blk 0x3333333333000000bebafeca00000000 ∧
    cat64 0xffffffffffffffff 0xfffffffffffffffe = blk 0xfffffffffffffffffeffffffffffffff := by decide +kernel

/-- Section 3.2. -/
theorem test_toy_cipher : toySchedule keyA = some ⟨(blk 0x10121416181a1c1e20222426282a2c2e).toNat⟩ ∧
    toyEnc ⟨(blk 0x10121416181a1c1e20222426282a2c2e).toNat⟩ (blockA 0) =
      blk 0x606f6a8d9c837ec9d8e7e2b5c4aba651 := by decide +kernel

/-- R212's table of `v`. -/
theorem test_rekeyDivisor : rekeyDivisor 1 = 18446744073709551616 ∧ rekeyDivisor 3 = 6148914691236517204 ∧
    rekeyDivisor 255 = 72340172838076672 := by decide +kernel

/-! ### Sections 3.4 to 3.7: the commands -/

/-- The start state with both slots scheduled under TOY from KA and KB. -/
def scheduled (blocks : List Block) : State := after (keyschedCommand toy 3 (start blocks))

/-- STATUS and TAG after a CMAC command. -/
def tagResult (r : Host.Outcome State Fault Refusal) : Option (Word × Block) :=
  (next? r).map fun s => (s.status.toWord, s.tag)

def message : List Block := [blockA 0, blockA 1, blockA 2]

/-- KEYSCHED-1. -/
theorem test_keysched_both : ((next? (keyschedCommand toy 3 (start []))).map
    fun s => (s.status.toWord, s.slot0.map (·.kenc.handle), s.slot1.map (·.kdec.handle))) =
    some (0x002, some (blk 0x10121416181a1c1e20222426282a2c2e).toNat,
      some (blk 0x50525456585a5c5e60626466686a6c6e).toNat) := by decide +kernel

/-- KEYSCHED-2: neither slot changes, SLOT0 included. -/
theorem test_keysched_rejected : (next? (keyschedCommand toy 3 { start [] with key1 := keyFF })) =
    some { start [] with key1 := keyFF, status := ⟨false, true, false, false, .keyRejected⟩ } := by decide +kernel

/-- CMAC-3 and CMAC-4. -/
theorem test_cmac_digest_raw :
    tagResult (cmacDigestCommand toy .raw 128 3 (start message)) =
      some (0x002, blk 0x7546749fe625885be239ec67bee24b08) ∧
    tagResult (cmacDigestCommand toy .raw 64 3 (start message)) =
      some (0x002, blk 0x7546749fe625885b0000000000000000) := by decide +kernel

/-- CMAC-9. -/
theorem test_cmac_digest_slot : tagResult (cmacDigestCommand toy .slot 64 3 (scheduled message)) =
    some (0x002, blk 0x7546749fe625885b0000000000000000) := by decide +kernel

/-- CMAC-5, CMAC-6 and CMAC-7. -/
theorem test_cmac_verify_raw :
    (tagResult (cmacVerifyCommand toy .raw 64 3
      { start message with tag := blk 0x7546749fe625885b0000000000000000 })).map (·.1) = some 0x006 ∧
    (tagResult (cmacVerifyCommand toy .raw 64 3
      { start message with tag := blk 0x7446749fe625885b0000000000000000 })).map (·.1) = some 0x002 ∧
    (tagResult (cmacVerifyCommand toy .raw 64 3
      { start message with tag := blk 0x7546749fe625885be239ec67bee24b08 })).map (·.1) = some 0x002 := by
  decide +kernel

/-- CMAC-8 in its SLOT form. -/
theorem test_cmac_verify_slot : (tagResult (cmacVerifyCommand toy .slot 128 3
    { scheduled message with tag := blk 0x7546749fe625885be239ec67bee24b08 })).map (·.1) = some 0x006 := by
  decide +kernel

/-- CMAC-11 to CMAC-15: the error checks and their order. -/
theorem test_cmac_errors :
    tagResult (cmacDigestCommand toy .raw 32 0 (start message)) = some (0x202, 0) ∧
    tagResult (cmacDigestCommand toy .raw 64 0 (start message)) = some (0x102, 0) ∧
    tagResult (cmacDigestCommand toy .raw 64 9 (start message)) = some (0x302, 0) ∧
    tagResult (cmacDigestCommand toy .slot 64 1 (start message)) = some (0x502, 0) ∧
    tagResult (cmacDigestCommand toy .raw 64 1 { start message with key0 := keyFF }) = some (0x602, 0) := by
  decide +kernel

/-- CMC-3, and CMC-12. -/
theorem test_cmc_enc_raw :
    result 3 (cmcEncCommand toy .raw 3 (start message)) = some (0x002,
      [blk 0x906beadb5f9f3795444863a3b76c76c1, blk 0xf09bfa3323db8709245c1313e31c668d,
        blk 0x262c5cf1942aefa6969738e5d0c1fb7e]) ∧
    result 3 (cmcEncCommand toy .raw 2 { start message with key1 := keyFF }) = some (0x602, message) := by
  decide +kernel

/-- CMC-11, and CMC-10: SLOT1 is not scheduled. -/
theorem test_cmc_enc_slot :
    result 2 (cmcEncCommand toy .slot 2 (scheduled [blockA 0, blockA 1])) = some (0x002,
      [blk 0xaefeaee6f0ece558871a821a04304202, blk 0x1bf3ecc446de24af0f672460fe9aa734]) ∧
    result 2 (cmcEncCommand toy .slot 2 (after (keyschedCommand toy 1 (start [blockA 0, blockA 1])))) =
      some (0x502, [blockA 0, blockA 1]) := by decide +kernel

/-- CMC-4. -/
theorem test_cmc_dec_raw :
    result 3 (cmcDecCommand toy .raw 3 (start [blk 0x906beadb5f9f3795444863a3b76c76c1,
      blk 0xf09bfa3323db8709245c1313e31c668d, blk 0x262c5cf1942aefa6969738e5d0c1fb7e])) =
      some (0x002, message) := by decide +kernel

/-- CMC-2 in its SLOT form. -/
theorem test_cmc_dec_slot :
    result 2 (cmcDecCommand toy .slot 2 (scheduled [blk 0xaefeaee6f0ece558871a821a04304202,
      blk 0x1bf3ecc446de24af0f672460fe9aa734])) = some (0x002, [blockA 0, blockA 1]) := by decide +kernel

/-- XTS-3. -/
theorem test_xts_enc_raw : result 3 (xtsCommand toy .raw .enc 3 (start message)) = some (0x002,
    [blk 0xb08f92bd6ca30531bce34a1d30073581, blk 0x5744cb7df7824b6fc62d1848645720c4,
      blk 0xb5aba68c728ac6c3e2612c4e0c632a77]) := by decide +kernel

/-- XTS-8. -/
theorem test_xts_enc_slot : result 3 (xtsCommand toy .slot .enc 3 (scheduled message)) = some (0x002,
    [blk 0xb08f92bd6ca30531bce34a1d30073581, blk 0x5744cb7df7824b6fc62d1848645720c4,
      blk 0xb5aba68c728ac6c3e2612c4e0c632a77]) := by decide +kernel

/-- XTS-4. -/
theorem test_xts_dec_raw : result 3 (xtsCommand toy .raw .dec 3 (start
    [blk 0xb08f92bd6ca30531bce34a1d30073581, blk 0x5744cb7df7824b6fc62d1848645720c4,
      blk 0xb5aba68c728ac6c3e2612c4e0c632a77])) = some (0x002, message) := by decide +kernel

/-- XTS-2 in its SLOT form. -/
theorem test_xts_dec_slot : result 1 (xtsCommand toy .slot .dec 1 (scheduled
    [blk 0xb08f92bd6ca30531bce34a1d30073581])) = some (0x002, [blockA 0]) := by decide +kernel

/-- HEH-3. -/
theorem test_heh_enc_raw : result 3 (hehCommand toy .raw .enc 3 (start message)) = some (0x002,
    [blk 0xa11b92af044016f2bdd827c127de6fd4, blk 0x329305c9a92e2115976e6d61511cfadc,
      blk 0x5f895334b8aecce0715b5faddd5e05a5]) := by decide +kernel

/-- HEH-8, and HEH-1 in its SLOT form. -/
theorem test_heh_enc_slot :
    result 2 (hehCommand toy .slot .enc 2 (start [blockA 0, blockA 1])) = some (0x502, [blockA 0, blockA 1]) ∧
    result 2 (hehCommand toy .slot .enc 2 (scheduled [blockA 0, blockA 1])) = some (0x002,
      [blk 0xa96bb25300c00232bd60bbc9a3da63d4, blk 0xa0fc8d9d9ae849714cd17d659639d32e]) := by decide +kernel

/-- HEH-4, and HEH-7. -/
theorem test_heh_dec_raw :
    result 3 (hehCommand toy .raw .dec 3 (start [blk 0xa11b92af044016f2bdd827c127de6fd4,
      blk 0x329305c9a92e2115976e6d61511cfadc, blk 0x5f895334b8aecce0715b5faddd5e05a5])) = some (0x002, message) ∧
    result 2 (hehCommand toy .raw .dec 2 { start [blockA 0, blockA 1] with key0 := keyFF }) =
      some (0x602, [blockA 0, blockA 1]) := by decide +kernel

/-- HEH-2 in its SLOT form. -/
theorem test_heh_dec_slot : result 2 (hehCommand toy .slot .dec 2 (scheduled
    [blk 0xa96bb25300c00232bd60bbc9a3da63d4, blk 0xa0fc8d9d9ae849714cd17d659639d32e])) =
    some (0x002, [blockA 0, blockA 1]) := by decide +kernel

/-- Section 3.7's source P. -/
def decStart (blocks : List Block) : State :=
  { start blocks with p0 := 0x3333333333, p1 := 0xcafebabe, p2 := 0x3333333333, p3 := 0xdeadbeef }

/-- Section 3.7's small P with P3 = 2^64 - 1. -/
def decWrap (blocks : List Block) : State :=
  { start blocks with p0 := 1, p1 := 2, p2 := 3, p3 := 0xffffffffffffffff }

/-- DEC-3. -/
theorem test_dec_enc : result 3 (decCommand toy 3 (decStart message)) = some (0x002,
    [blk 0x56b7f1af2721fd69bfff006a09497bdf, blk 0x46a7e1bf3731ed64afef107a19596bcf,
      blk 0x7697d18f0701dd5f9fdf204a29695bff]) := by decide +kernel

/-- DEC-6, where the counter product wraps. -/
theorem test_dec_wraps : result 2 (decCommand toy 2 (decWrap [blockA 0, blockA 1])) = some (0x002,
    [blk 0x195845b6654568b89ead40f51e8982e9, blk 0x094855a6755578d38ebd50e50e9992f9]) := by decide +kernel

/-- DEC-11. -/
theorem test_dec_rejected : result 1 (decCommand toy 1 { start [blockA 0] with key0 := keyFF }) =
    some (0x602, [blockA 0]) := by decide +kernel

/-! ### Section 3.8: the bus -/

/-- An accepted command: STATUS is 1. -/
def busyState : State := (start [blockA 0]).accept 0x00010016

/-- BUS-1, BUS-3 to BUS-7. -/
theorem test_bus_reads :
    busRead toy State.reset .w32 0x000 = .ok 0x10200008 ∧
    busRead toy State.reset .w32 0x1000 = .error (.uninit 0x1000) ∧
    busRead toy State.reset .w32 0x1002 = .error (.busError 0x1002) ∧
    busRead toy State.reset .w8 0x000 = .error (.busError 0x000) ∧
    busRead toy State.reset .w32 0x090 = .error (.busError 0x090) ∧
    busRead toy State.reset .w32 0x1080 = .error (.busError 0x1080) ∧
    busRead toy busyState .w32 0x010 = .error (.busyAccess 0x010) ∧
    busRead toy busyState .w32 0x008 = .ok 0x00000001 ∧
    busRead toy (start [blockA 0]) .w32 0x100c = .ok 0x0f0e0d0c := by decide +kernel

/-- What a read gives after a write of `w` at `off`. -/
def readBack (s : State) (off : Nat) (w : Word) (from_ : Nat) : Except Fault Word :=
  match busWrite toy s .w32 off w with
  | .error f => .error f
  | .ok s' => busRead toy s' .w32 from_

/-- BUS-2, BUS-8, BUS-9 and BUS-10, and a byte lane of DATA and of P0. -/
theorem test_bus_writes :
    readBack State.reset 0x040 0x12345678 0x040 = .ok 0 ∧
    (match busWrite toy State.reset .w32 0x044 0x12345678 with
      | .ok s => decide (s.key0 = 0x1234567800000000)
      | .error _ => false) = true ∧
    readBack busyState 0x004 0 0x008 = .ok 0x00000009 ∧
    readBack { State.reset with status := ⟨false, true, true, true, .ok⟩ } 0x008 0x0000000a 0x008 = .ok 0x4 ∧
    (match busWrite toy { State.reset with status := ⟨false, true, false, false, .ok⟩ } .w32 0x00c 1 with
      | .ok s => irq s
      | .error _ => false) = true ∧
    readBack State.reset 0x1004 0xa1b2c3d4 0x1004 = .ok 0xa1b2c3d4 ∧
    readBack State.reset 0x014 0x01234567 0x014 = .ok 0x01234567 := by decide +kernel

/-- R90's lines: `wrkey` writes a key's eight words, lowest first (program 2). -/
theorem test_wrkey : (wrkeyLines .key0 keyA).take 2 = [.wr .w32 0x040 0x03020100, .wr .w32 0x044 0x07060504] ∧
    (wrkeyLines .key1 keyB).getLast? = some (.wr .w32 0x07c 0x3f3e3d3c) ∧
    cmdLine (.xtsEncRaw 2) = .wr .w32 0x004 0x00020016 := by decide +kernel

/-- R90: the last word of DATA on MAX_BLOCKS = 256 is followed by no register: a block written from 0x1FF8 on has its
third line at 0x2000, which does not wrap to CAPS or CMD (log 23). -/
theorem test_wrblk_past_window :
    wrblkLines 0x1FF8 (blockA 0) = [.wr .w32 0x1FF8 0x03020100, .wr .w32 0x1FFC 0x07060504,
      .wr .w32 0x2000 0x0b0a0908, .wr .w32 0x2004 0x0f0e0d0c] ∧
    (next? (hostLine { toy with maxBlocks := 256 } (.wr .w32 0x1FFC 1) State.reset)).isSome = true ∧
    fault? (hostLine { toy with maxBlocks := 256 } (.wr .w32 0x2000 1) State.reset) = some (.busError 0x2000) := by
  decide +kernel

/-- R288: the values a host observes of the reads of program 3 at one more poll than shown. -/
theorem test_observedReads :
    HostAgent.observedReads ⟨[], [⟨0x001, true⟩, ⟨0x001, true⟩, ⟨0x102, true⟩, ⟨0x102, false⟩]⟩ = [0x102, 0x102] := by
  decide

/-- Program 3's illegal word, run as the first command after reset. -/
theorem test_step_illegal : (next? (step (State.reset.withFetchWord 32 0x00020034))).map
    (fun s => (s.status.toWord, s.latch)) = some (0x402, ⟨false, 0x00020034⟩) := by decide +kernel

/-- Program 5's two schedules at its second CMD write: dropped with OVR, or accepted. -/
theorem test_schedules :
    readBack { start [blockA 0] with latch := ⟨true, 0x00010016⟩, status := ⟨true, false, false, false, .ok⟩ }
      0x004 0x00010017 0x004 = .ok 0x00010016 ∧
    readBack (after (xtsCommand toy .raw .enc 1 busyState)) 0x004 0x00010017 0x004 = .ok 0x00010017 := by
  decide +kernel

/-! ### Witnesses: for every obligation with hypotheses, a state and operands that meet them together -/

/-- Two keys for a slot. -/
def pair : SlotKeys := ⟨⟨0⟩, ⟨0⟩⟩

/-- An idle engine with both slots scheduled and the blocks in DATA. -/
def ready (blocks : List Block) : State :=
  { State.reset with slot0 := some pair, slot1 := some pair, data := writeBlocks [] 0 blocks }

/-- The largest block count the checks let pass. -/
def nMax : BitVec 16 := BitVec.ofNat 16 Config.maxBlocks

theorem nMax_toNat : nMax.toNat = Config.maxBlocks := by
  have := Config.maxBlocks_le
  unfold nMax
  rw [BitVec.toNat_ofNat]
  exact Nat.mod_eq_of_lt (by omega)

theorem inputIs_ready (blocks : List Block) :
    InputIs (ready blocks) blocks.length (fun i => blocks.getD i 0) := by
  intro i h
  have := readBlock_writeBlocks blocks [] 0 h
  rw [Nat.zero_add] at this
  simpa [ready, h] using this

/-- The hypotheses of the RAW and SLOT results of CMAC, XTS and DEC, of XtsRoundTrip, DecRoundTrip and
DigestThenVerifyIsValid, at the least block count. -/
theorem test_witness_inputs_one : (64 : BitVec 8) = 64 ∧ 1 ≤ (1 : BitVec 16).toNat ∧
    (1 : BitVec 16).toNat ≤ Config.maxBlocks ∧ (ready [blockA 0]).slot0 = some pair ∧
    (ready [blockA 0]).slot1 = some pair ∧ InputIs (ready [blockA 0]) (1 : BitVec 16).toNat (fun _ => blockA 0) :=
  ⟨rfl, by decide, Nat.le_of_succ_le Config.two_le_maxBlocks, rfl, rfl, fun i h => by
    obtain rfl : i = 0 := by have : i < 1 := h; omega
    exact inputIs_ready [blockA 0] 0 (by decide)⟩

/-- The hypotheses of every result and round trip, CMC and HEH among them, at the least block count of those. -/
theorem test_witness_inputs_two : (128 : BitVec 8) = 128 ∧ 2 ≤ (2 : BitVec 16).toNat ∧
    (2 : BitVec 16).toNat ≤ Config.maxBlocks ∧ (ready [blockA 0, blockA 1]).slot0 = some pair ∧
    (ready [blockA 0, blockA 1]).slot1 = some pair ∧
    InputIs (ready [blockA 0, blockA 1]) (2 : BitVec 16).toNat (fun i => [blockA 0, blockA 1].getD i 0) :=
  ⟨rfl, by decide, Config.two_le_maxBlocks, rfl, rfl, inputIs_ready [blockA 0, blockA 1]⟩

/-- The same at the largest block count. -/
theorem test_witness_inputs_max : 2 ≤ nMax.toNat ∧ nMax.toNat ≤ Config.maxBlocks ∧
    InputIs (ready (List.replicate Config.maxBlocks 0)) nMax.toNat
      (fun i => (List.replicate Config.maxBlocks (0 : Block)).getD i 0) := by
  rw [nMax_toNat]
  refine ⟨Config.two_le_maxBlocks, Nat.le_refl _, ?_⟩
  have := inputIs_ready (List.replicate Config.maxBlocks 0)
  rwa [List.length_replicate] at this

theorem test_witness_DecodeEncodeRoundTrip : (Instr.keysched 3).wellFormed = true ∧
    (Instr.hehDecRaw 0xffff).wellFormed = true := by decide

theorem test_witness_LegalWordNamesOneCommand : decode 0x00000201 = .ok (.keysched 2) ∧
    (Instr.keysched 2).wellFormed = true ∧ encode (.keysched 2) = 0x00000201 := by decide +kernel

/-- A busy engine with a word latched, and a schedule. -/
def latched (w : Word) (ts : List Turn) : State :=
  { State.reset with
    latch := ⟨true, w⟩, status := ⟨true, false, false, false, .ok⟩, turns := ts, data := writeBlocks [] 0 [0] }

theorem test_witness_StepRunsDecodedCommand : (latched 0x00020014 []).latch.valid = true ∧
    decode (latched 0x00020014 []).latch.word = .ok (.cmcEncRaw 2) ∧ (latched 0x00020014 []).turns = [] ∧
    decode (latched 0x00000101 [.engine, .host]).latch.word = .ok (.keysched 1) ∧
    (latched 0x00000101 [.engine, .host]).turns = [.engine, .host] := by decide +kernel

/-- A latched illegal word, the engine to move with a schedule and with none. -/
theorem test_witness_IllegalWordsCompleteAsIllegal : (∀ e, decode 0x00020016 ≠ .error e) ∧
    ∀ ts ∈ [[], [Turn.engine, .host]], (latched 0x0002000a ts).takeTurn.1 = .engine ∧
      (latched 0x0002000a ts).latch.valid = true ∧
      decode (latched 0x0002000a ts).latch.word = .error .decSlotForm :=
  ⟨fun _ h => (nomatch h.symm.trans (by decide +kernel : decode 0x00020016 = .ok (.xtsEncRaw 2))),
    by decide +kernel⟩

/-- ResetInputResetsEngine, and ResetValues with a command in flight. -/
theorem test_witness_ResetInputResetsEngine :
    (latched 0x00020014 [.reset, .engine]).turns = .reset :: [.engine] ∧
    (latched 0x00020014 [.reset, .engine]).takeTurn.1 = .reset ∧
    (latched 0x00020014 [.reset, .engine]).latch.valid = true := ⟨rfl, rfl, rfl⟩

theorem test_witness_StepKeepsInv : MachineInv State.reset ∧ step State.reset = .next State.reset :=
  ⟨⟨rfl, nofun, nofun, nofun, rfl, nofun, nofun⟩, rfl⟩

/-- A host with one line to run. -/
def hostWith (line : HostLine) (st : Status) (ts : List Turn := [.host]) : State :=
  { State.reset with host := ⟨[line], []⟩, turns := ts, status := st, latch := ⟨st.busy, 0⟩ }

/-- A status of an idle engine. -/
def idle : Status := ⟨false, false, false, false, .ok⟩

/-- R288: the run of one `rd` of STATUS ends after it, and the value read is observed. -/
theorem test_observed_rd : ∃ o, Observed (hostWith (.rd .w32 0x008) idle []) o ∧ o.reads = [0] :=
  ⟨_, ⟨_, fun _ => 0, .next (fun h => nomatch h.1) rfl (.ended ⟨rfl, rfl⟩), rfl⟩, by decide +kernel⟩

/-- Each kind of line, on a turn that the schedule gives and, of an idle engine, with no schedule. -/
theorem test_witness_HostTurnRunsNextLine :
    (∀ ts ∈ [[], [Turn.host]], (hostWith (.rd .w32 0x008) idle ts).takeTurn.1 = .host ∧
      (hostWith (.rd .w32 0x008) idle ts).host.program = .rd .w32 0x008 :: [] ∧
      (hostWith (.wr .w32 0x1000 7) idle ts).takeTurn.1 = .host ∧
      (hostWith (.wr .w32 0x1000 7) idle ts).host.program = .wr .w32 0x1000 7 :: [] ∧
      (hostWith .wait idle ts).takeTurn.1 = .host ∧ (hostWith .wait idle ts).status.busy = false) ∧
    (hostWith .wait ⟨true, false, false, false, .ok⟩).takeTurn.1 = .host ∧
    (hostWith .wait ⟨true, false, false, false, .ok⟩).host.program = .wait :: [] ∧
    (hostWith .wait ⟨true, false, false, false, .ok⟩).status.busy = true ∧
    ∃ t, step (hostWith .wait ⟨true, false, false, false, .ok⟩) = .next t :=
  ⟨by decide, rfl, rfl, rfl, _, rfl⟩

theorem test_witness_BadAccessIsBusError : Width.w8 ≠ .w32 ∧ 0x002 % 4 ≠ 0 ∧
    (0x030 ≤ 0x030 ∧ 0x030 < 0x040) ∧ (0x030 ≤ 0x03C ∧ 0x03C < 0x040) ∧
    (0x090 ≤ 0x090 ∧ 0x090 < 0x1000) ∧
    (0x090 ≤ 0xFFC ∧ 0xFFC < 0x1000) ∧
    0x1000 + 16 * Config.maxBlocks ≤ 0x1000 + 16 * Config.maxBlocks ∧ 0x1000 + 16 * Config.maxBlocks ≤ 0x2000 := by
  have := Config.maxBlocks_le
  refine ⟨by decide, by decide, by decide, by decide, by decide, by decide, Nat.le_refl _, by omega⟩

/-- The last word of DATA. -/
def lastWord : Nat := 0x1000 + 16 * Config.maxBlocks - 4

theorem test_witness_OperandAccessWhileBusyFaults : busyState.status.busy = true ∧
    0x010 % 4 = 0 ∧ (0x010 ≤ 0x010 ∧ 0x010 < 0x030) ∧
    (0x010 ≤ 0x02C ∧ 0x02C < 0x030) ∧
    (0x040 ≤ 0x040 ∧ 0x040 < 0x090) ∧
    (0x040 ≤ 0x08C ∧ 0x08C < 0x090) := by decide +kernel

/-- The DATA offsets of IdleDataReads, DataWriteStoresFourBytes and OperandAccessWhileBusyFaults: the first word
and the last. -/
theorem test_witness_dataOffsets : State.reset.status.busy = false ∧
    (0x1000 % 4 = 0 ∧ 0x1000 ≤ 0x1000 ∧
      0x1000 < 0x1000 + 16 * Config.maxBlocks) ∧
    (lastWord % 4 = 0 ∧ 0x1000 ≤ lastWord ∧ lastWord < 0x1000 + 16 * Config.maxBlocks) := by
  have h := Config.two_le_maxBlocks
  unfold lastWord
  refine ⟨rfl, ⟨rfl, Nat.le_refl _, ?_⟩, ?_, ?_, ?_⟩ <;> omega

/-- IdleOperandReads, ControlAndParameterWrites and KeyAndTagWrites: the key registers' offsets, and the word
numbers, at both ends. -/
theorem test_witness_idleOperands : (ready []).status.busy = false ∧
    (0x040 ≤ 0x040 ∧ 0x040 < 0x080 ∧ 0x040 % 4 = 0) ∧
    (0x040 ≤ 0x07C ∧ 0x07C < 0x080 ∧ 0x07C % 4 = 0) ∧
    0 < 4 ∧ 3 < 4 ∧ 0 < 8 ∧ 7 < 8 := by decide +kernel

theorem test_witness_IrqFollowsDoneAndEnable : (latched 0 []).latch.valid = true ∧
    ∃ t, engineTurn (latched 0 []) = .next t := ⟨rfl, _, rfl⟩

/-- A completion with an error: of an illegal word, and of a command. -/
theorem test_witness_ErrorCompletionChangesOnlyStatus :
    (∃ t, completionStep (latched 0 []) = .next t ∧ t.status.err ≠ .ok) ∧
    (∃ t, completionStep (latched 0x00012012 []) = .next t ∧ t.status.err = .invalidTagSize) :=
  ⟨⟨_, rfl, by decide⟩, ⟨_, rfl, by decide +kernel⟩⟩

theorem checkN_ok {n : BitVec 16} {min : Nat} (h1 : min ≤ n.toNat) (h2 : n.toNat ≤ Config.maxBlocks) :
    checkN Config.platform n.toNat min = .ok () := by
  rcases checkN_cases Config.platform n.toNat min with ⟨h, -⟩ | ⟨-, h, -⟩ | ⟨-, -, h⟩
  · omega
  · exact absurd h2 (Nat.not_le.2 h)
  · exact h

theorem one_le_max : (1 : BitVec 16).toNat ≤ Config.maxBlocks := Nat.le_of_succ_le Config.two_le_maxBlocks

theorem xtsCheck_ready (blocks : List Block) :
    xtsCheck Config.platform .slot .enc 1 (ready blocks) = .ok (pair.kenc, pair.kenc) := by
  simp only [xtsCheck, checkN_ok (show 1 ≤ (1 : BitVec 16).toNat by decide) one_le_max]
  rfl

theorem read_ready : readBlocks (ready [blockA 0]).data 0 (1 : BitVec 16).toNat = .ok [blockA 0] := by
  decide +kernel

/-- CommandFrame: a completion that writes DATA. -/
theorem test_witness_CommandFrame : ∃ t, exec (.xtsEncSlot 1) (ready [blockA 0]) = .next t := by
  show ∃ t, xtsCommand Config.platform .slot .enc 1 (ready [blockA 0]) = .next t
  unfold xtsCommand
  rcases transformSector_cases (1 : BitVec 16).toNat (xtsBlocks (crypt Config.platform .enc pair.kenc)
    (xtsTweak Config.platform pair.kenc (ready [blockA 0]))) (ready [blockA 0]) with ⟨e, h, -⟩ | ⟨input, -, h⟩
  · rw [read_ready] at h; cases h
  · exact ⟨_, complete_of_ok (xtsCheck_ready _) h⟩

theorem test_witness_BadTagSizeCompletes : (32 : BitVec 8) ≠ 64 ∧ (32 : BitVec 8) ≠ 128 := by decide

theorem test_witness_BadBlockCountCompletes : (0 : BitVec 16).toNat < 1 ∧ (1 : BitVec 16).toNat < 2 ∧
    Config.maxBlocks < (BitVec.ofNat 16 (Config.maxBlocks + 1)).toNat ∧
    Config.maxBlocks < (0xffff : BitVec 16).toNat := by
  have h := Config.maxBlocks_le
  refine ⟨by decide, by decide, ?_, ?_⟩
  · rw [BitVec.toNat_ofNat, Nat.mod_eq_of_lt (by omega)]; omega
  · have e : (0xffff : BitVec 16).toNat = 0xffff := rfl
    rw [e]; omega

theorem test_witness_UnscheduledSlotCompletes : State.reset.slot0 = none ∧
    ({ ready [] with slot1 := none } : State).slot0 = some pair ∧
    ({ ready [] with slot1 := none } : State).slot1 = none ∧
    (1 ≤ (1 : BitVec 16).toNat ∧ (1 : BitVec 16).toNat ≤ Config.maxBlocks) ∧
    (2 ≤ (2 : BitVec 16).toNat ∧ (2 : BitVec 16).toNat ≤ Config.maxBlocks) ∧
    (2 ≤ nMax.toNat ∧ nMax.toNat ≤ Config.maxBlocks) :=
  ⟨rfl, rfl, rfl, ⟨by decide, one_le_max⟩, ⟨by decide, Config.two_le_maxBlocks⟩,
    by rw [nMax_toNat]; exact ⟨Config.two_le_maxBlocks, Nat.le_refl _⟩⟩

/-- Block 0 was never written. -/
theorem test_witness_CommandFaultsOnlyOnUnwrittenInput :
    exec (.xtsEncSlot 1) (ready []) = .fault (.uninit 0x1000) := by
  have hr : readBlocks (ready []).data 0 (1 : BitVec 16).toNat = .error (.uninit 0x1000) := by decide +kernel
  show xtsCommand Config.platform .slot .enc 1 (ready []) = _
  unfold xtsCommand
  refine complete_of_fault (xtsCheck_ready _) ?_
  unfold transformSector
  rw [hr]

/-- With N = 1, block 0 never written; with N = 2, block 0 written and the last byte of block 1 not. -/
theorem test_witness_UnwrittenInputFaults :
    (FirstUnwritten (ready []) (1 : BitVec 16).toNat 0 ∧ (1 : BitVec 16).toNat ≤ Config.maxBlocks) ∧
    (FirstUnwritten (ready [blockA 0]) (2 : BitVec 16).toNat 1 ∧ (2 : BitVec 16).toNat ≤ Config.maxBlocks) ∧
    (ready [blockA 0]).slot0.isSome ∧ (ready [blockA 0]).slot1.isSome :=
  ⟨⟨⟨by decide, ⟨0x1000, by decide +kernel⟩, fun k h => absurd h (Nat.not_lt_zero k)⟩, one_le_max⟩,
    ⟨⟨by decide, ⟨0x101f, by decide +kernel⟩, fun k h => by
      obtain rfl : k = 0 := by omega
      exact ⟨_, inputIs_ready [blockA 0] 0 (by decide)⟩⟩, Config.two_le_maxBlocks⟩, rfl, rfl⟩

theorem test_witness_PsiInverts : 2 ≤ [blockA 0, blockA 1].length := by decide

/-- WritersOfBusy: a CMD write sets BUSY; a completion and the reset input clear it. -/
theorem test_witness_WritersOfBusy :
    (∃ t, step (hostWith (.wr .w32 0x004 0) idle) = .next t ∧ t.status.busy = true) ∧
    (∃ t, step (latched 0 [.engine]) = .next t ∧ t.status.busy = false) ∧
    (∃ t, step (latched 0 [.reset]) = .next t ∧ t.status.busy = false) :=
  ⟨⟨_, rfl, by decide +kernel⟩, ⟨_, rfl, rfl⟩, ⟨_, rfl, rfl⟩⟩

/-- A busy engine about to verify the tag that TAG already holds. -/
def verifying (ts : List Turn) : State :=
  { ready [blockA 0] with
    latch := ⟨true, 0x00014003⟩, status := ⟨true, false, false, false, .ok⟩, turns := ts
    tag := trunc (cmac (Config.encryptBlock pair.kenc) [blockA 0]) 64 }

theorem step_verifying : step (verifying [.engine]) = exec (.cmacVerifySlot 64 1) (verifying []) := by
  have hd : decode (verifying []).latch.word = .ok (.cmacVerifySlot 64 1) := by
    show decode 0x00014003 = _
    decide +kernel
  show engineTurn (verifying []) = _
  unfold engineTurn completionStep
  rw [if_pos (show (verifying []).latch.valid = true from rfl), hd]

theorem sectorTag_verifying :
    sectorTag Config.platform pair.kenc 64 1 (verifying []) = .ok (verifying []).tag := by
  unfold sectorTag
  rw [show readBlocks (verifying []).data 0 (1 : BitVec 16).toNat = _ from read_ready]
  rfl

theorem cmacCheck_verifying : cmacCheck Config.platform .slot 64 1 (verifying []) = .ok pair.kenc := by
  simp only [cmacCheck, checkN_ok (show 1 ≤ (1 : BitVec 16).toNat by decide) one_le_max]
  rfl

/-- WritersOfValid: a CMAC_VERIFY.SLOT of a matching tag. -/
theorem test_witness_WritersOfValid : ∃ t, step (verifying [.engine]) = .next t ∧
    (verifying [.engine]).status.valid = false ∧ t.status.valid = true := by
  rw [step_verifying]
  show ∃ t, cmacVerifyCommand Config.platform .slot 64 1 (verifying []) = .next t ∧ _
  unfold cmacVerifyCommand
  refine ⟨_, complete_of_ok (s' := { verifying [] with
    status := { (verifying []).status with valid := true } }) cmacCheck_verifying ?_, rfl, rfl⟩
  rw [sectorTag_verifying]
  simp

/-- WritersOfOvr: a CMD write while busy sets OVR; a STATUS write with bit 3 and the reset input clear it. -/
theorem test_witness_WritersOfOvr :
    (∃ t, step (hostWith (.wr .w32 0x004 0) ⟨true, false, false, false, .ok⟩) = .next t ∧ t.status.ovr = true) ∧
    (∃ t, step (hostWith (.wr .w32 0x008 8) ⟨false, true, false, true, .ok⟩) = .next t ∧ t.status.ovr = false) ∧
    (∃ t, step { State.reset with turns := [.reset], status := ⟨false, true, false, true, .ok⟩ } = .next t ∧
      t.status.ovr = false) :=
  ⟨⟨_, rfl, by decide +kernel⟩, ⟨_, rfl, by decide +kernel⟩, ⟨_, rfl, rfl⟩⟩

/-- WritersOfSlots: the reset input empties a slot. -/
theorem test_witness_WritersOfSlots : ∃ t, step { ready [] with turns := [.reset] } = .next t ∧
    t.getSlot .key0 ≠ State.getSlot { ready [] with turns := [.reset] } .key0 := ⟨_, rfl, nofun⟩

end Sys2Proof.Tests
end

section
/-! The rules of the state that the statements of 10_state.md need: whose turn it is, the accesses to the control
registers, the bytes of a block, and once for each agent everything its move can be. -/

namespace Sys2Proof.Machine

/-! ### Taking the turn (R69) -/

/-- Taking the turn changes the schedule and nothing else. -/
theorem takeTurn_snd (s : State) : s.takeTurn.2 = { s with turns := s.takeTurn.2.turns } := by
  rcases takeTurn_cases s with ⟨-, -, h⟩ | ⟨-, -, h⟩ | ⟨t, ts, -, h⟩ <;> rw [h]

@[simp] theorem takeTurn_status (s : State) : s.takeTurn.2.status = s.status := by rw [takeTurn_snd]
@[simp] theorem takeTurn_latch (s : State) : s.takeTurn.2.latch = s.latch := by rw [takeTurn_snd]
@[simp] theorem takeTurn_slot0 (s : State) : s.takeTurn.2.slot0 = s.slot0 := by rw [takeTurn_snd]
@[simp] theorem takeTurn_slot1 (s : State) : s.takeTurn.2.slot1 = s.slot1 := by rw [takeTurn_snd]
@[simp] theorem takeTurn_data (s : State) : s.takeTurn.2.data = s.data := by rw [takeTurn_snd]
@[simp] theorem takeTurn_host (s : State) : s.takeTurn.2.host = s.host := by rw [takeTurn_snd]

@[simp] theorem takeTurn_getSlot (s : State) (r : KeyReg) : s.takeTurn.2.getSlot r = s.getSlot r := by
  cases r
  · exact takeTurn_slot0 s
  · exact takeTurn_slot1 s

/-- The step of the engine's turn. -/
theorem step_of_engine {s : State} (h : s.takeTurn.1 = .engine) : step s = engineTurn s.takeTurn.2 := by
  rcases step_cases s with ⟨-, hs⟩ | ⟨ht, -⟩ | ⟨ht, -⟩
  · exact hs
  · exact nomatch h.symm.trans ht
  · exact nomatch h.symm.trans ht

/-- The step of the host's turn. -/
theorem step_of_host {s : State} (h : s.takeTurn.1 = .host) :
    step s = hostTurn Config.platform s.takeTurn.2 := by
  rcases step_cases s with ⟨ht, -⟩ | ⟨-, hs⟩ | ⟨ht, -⟩
  · exact nomatch h.symm.trans ht
  · exact hs
  · exact nomatch h.symm.trans ht

/-- The step of the reset input's turn. -/
theorem step_of_reset {s : State} (h : s.takeTurn.1 = .reset) : step s = .next s.takeTurn.2.assertReset := by
  rcases step_cases s with ⟨ht, -⟩ | ⟨ht, -⟩ | ⟨-, hs⟩
  · exact nomatch h.symm.trans ht
  · exact nomatch h.symm.trans ht
  · exact hs

/-! ### A write to CMD (R91, R92) -/

@[simp] theorem State.issue_slot0 (s : State) (w : Word) : (s.issue w).slot0 = s.slot0 := by
  rcases issue_cases s w with ⟨-, h⟩ | ⟨-, h⟩ <;> simp [h]

@[simp] theorem State.issue_slot1 (s : State) (w : Word) : (s.issue w).slot1 = s.slot1 := by
  rcases issue_cases s w with ⟨-, h⟩ | ⟨-, h⟩ <;> simp [h]

@[simp] theorem State.issue_data (s : State) (w : Word) : (s.issue w).data = s.data := by
  rcases issue_cases s w with ⟨-, h⟩ | ⟨-, h⟩ <;> simp [h]

@[simp] theorem State.issue_host (s : State) (w : Word) : (s.issue w).host = s.host := by
  rcases issue_cases s w with ⟨-, h⟩ | ⟨-, h⟩ <;> simp [h]

/-- Accepted or dropped, the engine is busy after it. -/
@[simp] theorem State.issue_busy (s : State) (w : Word) : (s.issue w).status.busy = true := by
  rcases issue_cases s w with ⟨-, h⟩ | ⟨hb, h⟩ <;> simp [h]
  exact hb

/-- R27: OVR is set by a write while busy, and acceptance does not clear it. -/
@[simp] theorem State.issue_ovr (s : State) (w : Word) :
    (s.issue w).status.ovr = (s.status.ovr || s.status.busy) := by
  rcases issue_cases s w with ⟨hb, h⟩ | ⟨hb, h⟩ <;> simp [h, hb]

/-- A write to CMD sets VALID in no case. -/
theorem State.issue_valid_of_false {s : State} (h : s.status.valid = false) (w : Word) :
    (s.issue w).status.valid = false := by
  rcases issue_cases s w with ⟨-, hi⟩ | ⟨-, hi⟩ <;> simp [hi, h]

/-! ### Accesses to the control registers (20_memory.md R63, R64) -/

/-- An access that passes its checks is a 32-bit one, aligned, to a register of the window. -/
theorem busCheck_ok {pf : Platform} {s : State} {width : Width} {off : Nat} {r : WindowReg}
    (h : busCheck pf s width off = .ok r) : width = .w32 ∧ off % 4 = 0 ∧ windowReg pf off ≠ .reserved := by
  rcases busCheck_cases pf s width off with ⟨-, he⟩ | ⟨-, -, -, -, -, he⟩ | ⟨hw, ha, hr, -, -⟩
  · exact nomatch he.symm.trans h
  · exact nomatch he.symm.trans h
  · exact ⟨hw, ha, hr⟩

/-- The four control registers are open to a 32-bit access in every state, busy or not. -/
theorem busCheck_control (pf : Platform) (s : State) {off : Nat} (h : off ≤ 0x00C) (ha : off % 4 = 0) :
    busCheck pf s .w32 off = .ok (windowReg pf off) := by
  rcases busCheck_cases pf s .w32 off with ⟨hbad, -⟩ | ⟨-, -, -, -, ho, -⟩ | ⟨-, -, -, -, hok⟩
  · rw [windowReg_eq_reserved] at hbad
    rcases hbad with hw | hm | hr
    · exact absurd rfl hw
    · exact absurd ha hm
    · omega
  · simp only [operandOffset, decide_eq_true_eq] at ho
    omega
  · exact hok

@[simp] theorem busRead_caps (pf : Platform) (s : State) : busRead pf s .w32 0x000 = .ok (capsWord pf) :=
  busRead_eq_ok.2 ⟨busCheck_control pf s (by decide) rfl, rfl⟩

@[simp] theorem busRead_cmd (pf : Platform) (s : State) : busRead pf s .w32 0x004 = .ok s.latch.word :=
  busRead_eq_ok.2 ⟨busCheck_control pf s (by decide) rfl, rfl⟩

@[simp] theorem busRead_status (pf : Platform) (s : State) :
    busRead pf s .w32 0x008 = .ok s.status.toWord :=
  busRead_eq_ok.2 ⟨busCheck_control pf s (by decide) rfl, rfl⟩

@[simp] theorem busRead_cfg (pf : Platform) (s : State) : busRead pf s .w32 0x00C = .ok s.cfg.toWord :=
  busRead_eq_ok.2 ⟨busCheck_control pf s (by decide) rfl, rfl⟩

@[simp] theorem busWrite_caps (pf : Platform) (s : State) (w : Word) : busWrite pf s .w32 0x000 w = .ok s :=
  busWrite_eq_ok.2 ⟨busCheck_control pf s (by decide) rfl, rfl⟩

@[simp] theorem busWrite_cmd (pf : Platform) (s : State) (w : Word) :
    busWrite pf s .w32 0x004 w = .ok (s.issue w) :=
  busWrite_eq_ok.2 ⟨busCheck_control pf s (by decide) rfl, rfl⟩

@[simp] theorem busWrite_status (pf : Platform) (s : State) (w : Word) :
    busWrite pf s .w32 0x008 w = .ok { s with status := s.status.hostWrite w } :=
  busWrite_eq_ok.2 ⟨busCheck_control pf s (by decide) rfl, rfl⟩

/-- The host's turn when its next line writes CMD. -/
theorem hostTurn_cmdWrite (pf : Platform) {s : State} {w : Word} {rest : List HostLine}
    (h : s.host.program = .wr .w32 0x004 w :: rest) :
    hostTurn pf s = .next { s.issue w with host := s.host.advance } := by
  simp [hostTurn, h, hostLine]

/-- The host's turn when its next line writes STATUS. -/
theorem hostTurn_statusWrite (pf : Platform) {s : State} {w : Word} {rest : List HostLine}
    (h : s.host.program = .wr .w32 0x008 w :: rest) :
    hostTurn pf s = .next { s with status := s.status.hostWrite w, host := s.host.advance } := by
  simp [hostTurn, h, hostLine]

/-- No register reads differently under other contents of the key registers and the slots. -/
theorem readReg_of_keys (pf : Platform) (s : State) (k0 k1 : RawKey) (sl0 sl1 : KeySlot) (off : Nat)
    (reg : WindowReg) :
    readReg pf { s with key0 := k0, key1 := k1, slot0 := sl0, slot1 := sl1 } off reg = readReg pf s off reg := by
  cases reg with
  | param r half => cases r <;> rfl
  | _ => rfl

/-! ### The bits of STATUS (R23) -/

theorem getLsbD_flagBit (b : Bool) {pos : Nat} (hpos : pos < 32) (i : Nat) :
    (flagBit b pos).getLsbD i = (decide (i = pos) && b) := by
  unfold flagBit
  simp only [BitVec.getLsbD_shiftLeft, BitVec.getLsbD_setWidth, BitVec.getLsbD_ofBool]
  by_cases h : i = pos
  · subst h; simp [hpos]
  · by_cases hlt : i < pos
    · simp [h, hlt]
    · have hne : i - pos ≠ 0 := by omega
      simp [h, hne]

/-- Each bit of the word a read of STATUS gives: the four flags, and ERR from bit 8 on. -/
theorem Status.getLsbD_toWord (st : Status) {i : Nat} (hi : i < 32) :
    st.toWord.getLsbD i = ((decide (i = 0) && st.busy) || (decide (i = 1) && st.done) ||
      (decide (i = 2) && st.valid) || (decide (i = 3) && st.ovr) ||
      (decide (8 ≤ i) && st.err.code.getLsbD (i - 8))) := by
  have hlt : i - 8 < 32 := by omega
  have hge : (!decide (i < 8)) = decide (8 ≤ i) := by rw [← decide_not]; simp only [Nat.not_lt]
  unfold Status.toWord
  simp only [BitVec.getLsbD_or, getLsbD_flagBit _ (show 0 < 32 by decide),
    getLsbD_flagBit _ (show 1 < 32 by decide), getLsbD_flagBit _ (show 2 < 32 by decide),
    getLsbD_flagBit _ (show 3 < 32 by decide), BitVec.getLsbD_shiftLeft, BitVec.getLsbD_setWidth, hi, hlt, hge,
    decide_true, Bool.true_and]

/-- Above the flags STATUS holds ERR and nothing else. -/
theorem Status.getLsbD_toWord_of_four_le (st : Status) {i : Nat} (h : 4 ≤ i) (hi : i < 32) :
    st.toWord.getLsbD i = (decide (8 ≤ i) && st.err.code.getLsbD (i - 8)) := by
  have hflags : i ≠ 0 ∧ i ≠ 1 ∧ i ≠ 2 ∧ i ≠ 3 := by omega
  simp [st.getLsbD_toWord hi, hflags]

/-- R23: ERR lies in bits 11:8. -/
theorem Status.toWord_err (st : Status) : st.toWord.extractLsb' 8 4 = st.err.code := by
  apply BitVec.eq_of_getLsbD_eq
  intro i hi
  rw [BitVec.getLsbD_extractLsb', st.getLsbD_toWord_of_four_le (by omega) (by omega)]
  simp [hi]

/-- R23: bits 7:4 read 0. -/
theorem Status.toWord_reserved_low (st : Status) : st.toWord.extractLsb' 4 4 = 0 := by
  apply BitVec.eq_of_getLsbD_eq
  intro i hi
  have hlow : ¬ 8 ≤ 4 + i := by omega
  rw [BitVec.getLsbD_extractLsb', st.getLsbD_toWord_of_four_le (by omega) (by omega)]
  simp [hlow]

/-- R23: bits 31:12 read 0. -/
theorem Status.toWord_reserved_high (st : Status) : st.toWord.extractLsb' 12 20 = 0 := by
  apply BitVec.eq_of_getLsbD_eq
  intro i hi
  rw [BitVec.getLsbD_extractLsb', st.getLsbD_toWord_of_four_le (by omega) (by omega),
    BitVec.getLsbD_of_ge st.err.code (12 + i - 8) (by omega)]
  simp

/-! ### The bytes of a block (R11, R34) -/

/-- Byte `j` of a block is digit `j` of its number to the base 256 (R12). -/
theorem blockByte_eq_ofNat (b : Block) (j : Nat) : blockByte b j = BitVec.ofNat 8 (b.toNat / 256 ^ j) := by
  apply BitVec.eq_of_toNat_eq
  rw [toNat_blockByte, BitVec.toNat_ofNat, Nat.pow_mul]

/-- A little-endian read gives `v` exactly when the bytes read are the digits of `v`. -/
theorem Memory.readLe_eq_some (n : Nat) {m : Memory} {off v : Nat} :
    Memory.readLe m off n = some v ↔
      v < 256 ^ n ∧ ∀ j, j < n → Memory.read m (off + j) = some (BitVec.ofNat 8 (v / 256 ^ j)) := by
  constructor
  · intro h
    refine ⟨Memory.readLe_lt n h, ?_⟩
    induction n generalizing off v with
    | zero => exact fun j hj => absurd hj (Nat.not_lt_zero j)
    | succ n ih =>
      simp only [Memory.readLe] at h
      split at h
      · rename_i b r hb hr
        obtain rfl : b.toNat + 256 * r = v := Option.some.inj h
        have hbyte := b.isLt
        intro j hj
        cases j with
        | zero =>
          rw [Nat.add_zero, hb, Option.some.injEq]
          exact BitVec.eq_of_toNat_eq (by rw [BitVec.toNat_ofNat]; omega)
        | succ j =>
          have hdiv : (b.toNat + 256 * r) / 256 ^ (j + 1) = r / 256 ^ j := by
            rw [Nat.pow_succ', ← Nat.div_div_eq_div_mul]
            congr 1
            omega
          rw [hdiv, show off + (j + 1) = off + 1 + j by omega]
          exact ih hr j (by omega)
      · cases h
  · rintro ⟨hv, hbytes⟩
    have hsame := Memory.readLe_congr n (m := m) (m' := Memory.writeLe m off n v) (off := off) fun a h1 h2 => by
      rw [Memory.read_writeLe, if_pos ⟨h1, h2⟩, ← hbytes (a - off) (by omega)]
      congr 1
      omega
    rw [hsame, Memory.readLe_writeLe_same, Nat.mod_eq_of_lt hv]

/-- A block reads as `b` exactly when its 16 bytes read as the number of `b`. -/
theorem readBlock_eq_ok {m : Memory} {i : Nat} {b : Block} :
    readBlock m i = .ok b ↔ Memory.readLe m (blockOffset i) 16 = some b.toNat := by
  unfold readBlock
  cases h : Memory.readLe m (blockOffset i) 16 with
  | none => simp
  | some v =>
    have hv : v < 2 ^ 128 := Memory.readLe_lt 16 h
    simp only [Except.ok.injEq, Option.some.injEq]
    constructor
    · rintro rfl
      rw [BitVec.toNat_ofNat, Nat.mod_eq_of_lt hv]
    · rintro rfl
      simp

/-! ### What the engine's turn can be (R93) -/

/-- The engine's turn with no command latched (log 6). -/
theorem engineTurn_idle {s : State} (h : s.latch.valid = false) : engineTurn s = .next s := by
  simp [engineTurn, h]

/-- The engine's turn with a command latched. -/
theorem engineTurn_latched {s : State} (h : s.latch.valid = true) : engineTurn s = completionStep s := by
  simp [engineTurn, h]

/-- Every state the engine's turn can lead to. -/
inductive EngineMove (s : State) : State → Prop
  | idle (hv : s.latch.valid = false) : EngineMove s s
  | illegal (hv : s.latch.valid = true) (e : Illegal) (hd : decode s.latch.word = .error e) :
      EngineMove s (s.finish .illegalCommand)
  | failed (hv : s.latch.valid = true) (i : Instr) (hd : decode s.latch.word = .ok i) (e : ErrCode)
      (he : IsCheckCode e) : EngineMove s (s.finish e)
  | done (hv : s.latch.valid = true) (i : Instr) (hd : decode s.latch.word = .ok i) (u : State)
      (hu : Effect i s u) : EngineMove s (u.finish .ok)

theorem engineMove_of_engineTurn {s t : State} (h : engineTurn s = .next t) : EngineMove s t := by
  cases hv : s.latch.valid with
  | false =>
    obtain rfl := Host.Outcome.next.inj ((engineTurn_idle hv).symm.trans h)
    exact .idle hv
  | true =>
    rw [engineTurn_latched hv] at h
    unfold completionStep at h
    cases hd : decode s.latch.word with
    | error e =>
      simp only [hd, Host.Outcome.next.injEq] at h
      subst h
      exact .illegal hv e hd
    | ok i =>
      simp only [hd] at h
      rcases exec_answers i s with ⟨e, he, hx⟩ | ⟨f, -, hx⟩ | ⟨u, hu, hx⟩
      · obtain rfl := Host.Outcome.next.inj (hx.symm.trans h)
        exact .failed hv i hd e he
      · exact nomatch hx.symm.trans h
      · obtain rfl := Host.Outcome.next.inj (hx.symm.trans h)
        exact .done hv i hd u hu

/-! ### What the effect of a command leaves unchanged -/

/-- No effect touches LATCH. -/
theorem Effect.latch {i : Instr} {s u : State} (h : Effect i s u) : u.latch = s.latch := by
  cases h <;> rfl

/-- No effect touches OVR (R27). -/
theorem Effect.ovr {i : Instr} {s u : State} (h : Effect i s u) : u.status.ovr = s.status.ovr := by
  cases h <;> rfl

/-- Only CMAC_VERIFY writes VALID (R26). -/
theorem Effect.valid {i : Instr} {s u : State} (h : Effect i s u) :
    u.status.valid = s.status.valid ∨ isVerify i = true := by
  cases h with
  | verify hi => exact .inr hi
  | sector | digest | keysched => exact .inl rfl

/-- Every effect keeps DATA canonical and inside the buffer (R34). -/
theorem Effect.data_wf {i : Instr} {s u : State} (h : Effect i s u)
    (hs : Memory.wf Config.maxBlocks s.data = true) : Memory.wf Config.maxBlocks u.data = true := by
  cases h with
  | sector out _ hmax => exact wf_writeBlocks out hs (by omega)
  | digest | verify | keysched => exact hs

/-- R112: a slot that KEYSCHED gives is the old one, or is selected and holds both schedules of its key register. -/
theorem scheduleSlot_ok {pf : Platform} {selected : Bool} {k : RawKey} {old new : KeySlot}
    (h : scheduleSlot pf selected k old = .ok new) :
    new = old ∨ (selected = true ∧ ∃ ke kd, pf.ksEnc k = some ke ∧ pf.ksDec k = some kd ∧
      new = some { kenc := ke, kdec := kd }) := by
  rcases scheduleSlot_cases pf selected k old with ⟨-, hc⟩ | ⟨hsel, ke, kd, he, hd, hc⟩ | ⟨-, -, hc⟩
  · exact .inl (Except.ok.inj (h.symm.trans hc))
  · exact .inr ⟨hsel, ke, kd, he, hd, Except.ok.inj (h.symm.trans hc)⟩
  · exact nomatch h.symm.trans hc

/-- R112: each slot after KEYSCHED, by its register's number. -/
theorem keysched_getSlot {slotMask : BitVec 2} {s : State} {slots : KeySlot × KeySlot}
    (hs : scheduleSlots Config.platform slotMask s = .ok slots) (r : KeyReg) :
    (State.getSlot { s with slot0 := slots.1, slot1 := slots.2 } r = s.getSlot r) ∨
    (writesSlot (.keysched slotMask) r = true ∧ ∃ ke kd, Config.ksEnc (s.getKey r) = some ke ∧
      Config.ksDec (s.getKey r) = some kd ∧
      State.getSlot { s with slot0 := slots.1, slot1 := slots.2 } r = some { kenc := ke, kdec := kd }) := by
  obtain ⟨h0, h1⟩ := scheduleSlots_ok hs
  cases r with
  | key0 => exact scheduleSlot_ok h0
  | key1 => exact scheduleSlot_ok h1

/-- Only a KEYSCHED that selects a slot writes it (R31). -/
theorem Effect.getSlot {i : Instr} {s u : State} (h : Effect i s u) (r : KeyReg) :
    u.getSlot r = s.getSlot r ∨ writesSlot i r = true := by
  cases h with
  | keysched slotMask hi slots hs =>
    subst hi
    exact (keysched_getSlot hs r).imp_right And.left
  | sector | digest | verify => exact .inl (by cases r <;> rfl)

/-- A slot that an effect writes holds both schedules of one raw key (R31). -/
theorem Effect.slot_scheduled {i : Instr} {s u : State} (h : Effect i s u) {r : KeyReg}
    (hs : SlotScheduled (s.getSlot r)) : SlotScheduled (u.getSlot r) := by
  cases h with
  | keysched slotMask hi slots hok =>
    rcases keysched_getSlot hok r with hsame | ⟨-, ke, kd, he, hd, hnew⟩
    · rw [hsame]; exact hs
    · rw [hnew]
      intro k hk
      obtain rfl := Option.some.inj hk
      exact ⟨_, he, hd⟩
  | sector | digest | verify => cases r <;> exact hs

/-! ### What the host's turn can be (R67, R90) -/

/-- STATUS, LATCH, the slots and DATA are the same in both states. -/
structure SameControl (s t : State) : Prop where
  status : t.status = s.status
  latch : t.latch = s.latch
  slot0 : t.slot0 = s.slot0
  slot1 : t.slot1 = s.slot1
  data : t.data = s.data

/-- Every state the host's turn can lead to. A read, a poll of `wait`, a turn with no line left, and a write to CAPS,
CFG, P0..P3, KEY0, KEY1 or TAG leave STATUS, LATCH, the slots and DATA as they were. -/
inductive HostMove (s : State) : State → Prop
  | other {t : State} (h : SameControl s t) : HostMove s t
  | cmd (w : Word) (rest : List HostLine) (hp : s.host.program = .wr .w32 0x004 w :: rest) :
      HostMove s { s.issue w with host := s.host.advance }
  | status (w : Word) (rest : List HostLine) (hp : s.host.program = .wr .w32 0x008 w :: rest) :
      HostMove s { s with status := s.status.hostWrite w, host := s.host.advance }
  | data (off : Nat) (w : Word) (hlo : 0x1000 ≤ off) (hhi : off + 4 ≤ 0x1000 + 16 * Config.maxBlocks) :
      HostMove s { s with data := Memory.writeLe s.data off 4 w.toNat, host := s.host.advance }

/-- The move of a line that writes a register. -/
theorem hostMove_of_write {s s' : State} {width : Width} {off : Nat} {w : Word} {rest : List HostLine}
    (hp : s.host.program = .wr width off w :: rest) (hw : busWrite Config.platform s width off w = .ok s') :
    HostMove s { s' with host := s'.host.advance } := by
  obtain ⟨hcheck, rfl⟩ := busWrite_eq_ok.1 hw
  obtain ⟨rfl, halign, hres⟩ := busCheck_ok hcheck
  cases hreg : windowReg Config.platform off with
  | cmd =>
    obtain rfl := windowReg_eq_cmd.1 hreg
    have hmove := HostMove.cmd w rest hp
    rwa [← State.issue_host s w] at hmove
  | status =>
    obtain rfl := windowReg_eq_status.1 hreg
    exact .status w rest hp
  | data =>
    obtain ⟨hlo, hhi⟩ := windowReg_eq_data.1 hreg
    rw [Config.platform_maxBlocks] at hhi
    exact .data off w hlo (by omega)
  | reserved => exact absurd hreg hres
  | caps | cfg | tag => exact .other ⟨rfl, rfl, rfl, rfl, rfl⟩
  | param r half => exact .other (by constructor <;> simp [writeReg])
  | key r m => exact .other (by constructor <;> simp [writeReg])

theorem hostMove_of_hostTurn {s t : State} (h : hostTurn Config.platform s = .next t) : HostMove s t := by
  unfold hostTurn at h
  cases hp : s.host.program with
  | nil =>
    simp only [hp, Host.Outcome.next.injEq] at h
    subst h
    exact .other ⟨rfl, rfl, rfl, rfl, rfl⟩
  | cons line rest =>
    simp only [hp] at h
    cases line with
    | rd width off =>
      obtain ⟨v, -, rfl⟩ := hostLine_rd_next h
      exact .other ⟨rfl, rfl, rfl, rfl, rfl⟩
    | wr width off w =>
      obtain ⟨s', hw, rfl⟩ := hostLine_wr_next h
      exact hostMove_of_write hp hw
    | wait =>
      rw [hostLine_wait] at h
      split at h <;> obtain rfl := Host.Outcome.next.inj h <;> exact .other ⟨rfl, rfl, rfl, rfl, rfl⟩

/-! ### What a step can be -/

/-- Every step that has a next state, by whose turn it is. -/
theorem step_next_cases {s t : State} (h : step s = .next t) :
    (s.takeTurn.1 = .engine ∧ EngineMove s.takeTurn.2 t) ∨ (s.takeTurn.1 = .host ∧ HostMove s.takeTurn.2 t) ∨
    (s.takeTurn.1 = .reset ∧ t = s.takeTurn.2.assertReset) := by
  rcases step_cases s with ⟨ht, hs⟩ | ⟨ht, hs⟩ | ⟨ht, hs⟩
  · exact .inl ⟨ht, engineMove_of_engineTurn (hs.symm.trans h)⟩
  · exact .inr (.inl ⟨ht, hostMove_of_hostTurn (hs.symm.trans h)⟩)
  · exact .inr (.inr ⟨ht, (Host.Outcome.next.inj (hs.symm.trans h)).symm⟩)

end Sys2Proof.Machine
end

section
/-! The machine invariant: at reset, and after every move of each agent. -/

namespace Sys2Proof.Machine

/-- The invariant speaks of STATUS, LATCH, the slots and DATA only. -/
theorem MachineInv.of_sameControl {s t : State} (hs : MachineInv s) (h : SameControl s t) : MachineInv t := by
  obtain ⟨hstatus, hlatch, hslot0, hslot1, hdata⟩ := h
  constructor
  · rw [hlatch, hstatus]; exact hs.latch_busy
  · rw [hstatus]; exact hs.busy_flags
  · rw [hlatch, hstatus]; exact hs.valid_verify
  · rw [hlatch, hstatus]; exact hs.illegal_word
  · rw [hdata]; exact hs.data_wf
  · rw [hslot0]; exact hs.slot0_scheduled
  · rw [hslot1]; exact hs.slot1_scheduled

theorem machineInv_reset : MachineInv State.reset where
  latch_busy := rfl
  busy_flags := nofun
  valid_verify := nofun
  illegal_word := nofun
  data_wf := rfl
  slot0_scheduled := nofun
  slot1_scheduled := nofun

theorem machineInv_assertReset (s : State) : MachineInv s.assertReset :=
  machineInv_reset.of_sameControl ⟨rfl, rfl, rfl, rfl, rfl⟩

theorem MachineInv.takeTurn {s : State} (h : MachineInv s) : MachineInv s.takeTurn.2 :=
  h.of_sameControl ⟨by simp, by simp, by simp, by simp, by simp⟩

/-- Acceptance sets BUSY with LATCH.valid and clears the other flags; an overrun sets OVR alone. -/
theorem MachineInv.issue {s : State} (h : MachineInv s) (w : Word) : MachineInv (s.issue w) := by
  rcases issue_cases s w with ⟨-, hi⟩ | ⟨-, hi⟩ <;> rw [hi]
  · exact { latch_busy := rfl
            busy_flags := fun _ => ⟨rfl, rfl, rfl⟩
            valid_verify := nofun
            illegal_word := nofun
            data_wf := h.data_wf
            slot0_scheduled := h.slot0_scheduled
            slot1_scheduled := h.slot1_scheduled }
  · exact { latch_busy := h.latch_busy
            busy_flags := h.busy_flags
            valid_verify := h.valid_verify
            illegal_word := h.illegal_word
            data_wf := h.data_wf
            slot0_scheduled := h.slot0_scheduled
            slot1_scheduled := h.slot1_scheduled }

/-- A host write of STATUS clears DONE and OVR at most. -/
theorem MachineInv.statusWrite {s : State} (h : MachineInv s) (w : Word) :
    MachineInv { s with status := s.status.hostWrite w } where
  latch_busy := h.latch_busy
  busy_flags hb := by
    obtain ⟨hdone, hvalid, herr⟩ := h.busy_flags hb
    exact ⟨by simp [hdone], hvalid, herr⟩
  valid_verify := h.valid_verify
  illegal_word := h.illegal_word
  data_wf := h.data_wf
  slot0_scheduled := h.slot0_scheduled
  slot1_scheduled := h.slot1_scheduled

/-- A host write inside DATA keeps its form. -/
theorem MachineInv.dataWrite {s : State} (h : MachineInv s) {off : Nat} (w : Word) (hlo : 0x1000 ≤ off)
    (hhi : off + 4 ≤ 0x1000 + 16 * Config.maxBlocks) :
    MachineInv { s with data := Memory.writeLe s.data off 4 w.toNat } where
  latch_busy := h.latch_busy
  busy_flags := h.busy_flags
  valid_verify := h.valid_verify
  illegal_word := h.illegal_word
  data_wf := Memory.wf_writeLe 4 w.toNat h.data_wf hlo hhi
  slot0_scheduled := h.slot0_scheduled
  slot1_scheduled := h.slot1_scheduled

theorem HostMove.keeps_inv {s t : State} (hm : HostMove s t) (h : MachineInv s) : MachineInv t := by
  cases hm with
  | other hsame => exact h.of_sameControl hsame
  | cmd w => exact (h.issue w).of_sameControl ⟨rfl, rfl, rfl, rfl, rfl⟩
  | status w => exact (h.statusWrite w).of_sameControl ⟨rfl, rfl, rfl, rfl, rfl⟩
  | data off w hlo hhi => exact (h.dataWrite w hlo hhi).of_sameControl ⟨rfl, rfl, rfl, rfl, rfl⟩

/-- What a completion of the state `u` with code `e` owes the invariant: BUSY and LATCH.valid are 0 after it, so the
clauses on VALID, ILLEGAL_COMMAND, DATA and the slots remain. -/
theorem machineInv_finish {u : State} {e : ErrCode}
    (hvalid : u.status.valid = true → e = .ok ∧ ∃ i, decode u.latch.word = .ok i ∧ isVerify i = true)
    (hillegal : e = .illegalCommand → ∃ ill, decode u.latch.word = .error ill)
    (hdata : Memory.wf Config.maxBlocks u.data = true) (hslots : ∀ r, SlotScheduled (u.getSlot r)) :
    MachineInv (u.finish e) where
  latch_busy := rfl
  busy_flags := nofun
  valid_verify := hvalid
  illegal_word := hillegal
  data_wf := hdata
  slot0_scheduled := hslots .key0
  slot1_scheduled := hslots .key1

theorem MachineInv.slots_scheduled {s : State} (h : MachineInv s) (r : KeyReg) : SlotScheduled (s.getSlot r) := by
  cases r
  · exact h.slot0_scheduled
  · exact h.slot1_scheduled

/-- While a command is in flight VALID is 0. -/
theorem MachineInv.valid_of_latched {s : State} (h : MachineInv s) (hv : s.latch.valid = true) :
    s.status.valid = false := by
  obtain ⟨-, hvalid, -⟩ := h.busy_flags (h.latch_busy ▸ hv)
  exact hvalid

theorem EngineMove.keeps_inv {s t : State} (hm : EngineMove s t) (h : MachineInv s) : MachineInv t := by
  cases hm with
  | idle => exact h
  | illegal hv e hd =>
    exact machineInv_finish (fun hvalid => nomatch hvalid.symm.trans (h.valid_of_latched hv)) (fun _ => ⟨e, hd⟩)
      h.data_wf h.slots_scheduled
  | failed hv i hd e he =>
    exact machineInv_finish (fun hvalid => nomatch hvalid.symm.trans (h.valid_of_latched hv))
      (fun hill => absurd hill he.2) h.data_wf h.slots_scheduled
  | done hv i hd u hu =>
    refine machineInv_finish (fun hvalid => ⟨rfl, i, hu.latch ▸ hd, ?_⟩) nofun (hu.data_wf h.data_wf)
      fun r => hu.slot_scheduled (h.slots_scheduled r)
    refine hu.valid.resolve_left fun hsame => ?_
    exact nomatch hvalid.symm.trans (hsame.trans (h.valid_of_latched hv))

/-- Settles O8: every clause is read off the reset values. -/
theorem invAtReset : Obligations.InvAtReset := machineInv_reset

/-- Settles O9, by cases on who makes the step and on what that agent's move can be. -/
theorem stepKeepsInv : Obligations.StepKeepsInv := by
  intro s t hinv hstep
  rcases step_next_cases hstep with ⟨-, hm⟩ | ⟨-, hm⟩ | ⟨-, rfl⟩
  · exact hm.keeps_inv hinv.takeTurn
  · exact hm.keeps_inv hinv.takeTurn
  · exact machineInv_assertReset _

end Sys2Proof.Machine
end

section
/-! The writers of BUSY, VALID, OVR and the slots (10_state.md R24, R26, R27, R31). -/

namespace Sys2Proof.Machine

/-! ### The engine's moves -/

theorem EngineMove.busy_of_latched {s t : State} (h : EngineMove s t) (hv : s.latch.valid = true) :
    t.status.busy = false := by
  cases h with
  | idle hidle => exact nomatch hv.symm.trans hidle
  | illegal | failed | done => rfl

theorem EngineMove.eq_of_idle {s t : State} (h : EngineMove s t) (hv : s.latch.valid = false) : t = s := by
  cases h with
  | idle => rfl
  | illegal hl | failed hl | done hl => exact nomatch hl.symm.trans hv

theorem EngineMove.ovr {s t : State} (h : EngineMove s t) : t.status.ovr = s.status.ovr := by
  cases h with
  | idle | illegal | failed => rfl
  | done _ i _ u hu => exact hu.ovr

/-- The engine changes VALID only as the effect of a CMAC_VERIFY. -/
theorem EngineMove.valid {s t : State} (h : EngineMove s t) :
    t.status.valid = s.status.valid ∨ (s.latch.valid = true ∧ t.status.err = .ok ∧
      ∃ i, decode s.latch.word = .ok i ∧ isVerify i = true) := by
  cases h with
  | idle | illegal | failed => exact .inl rfl
  | done hv i hd u hu => exact hu.valid.imp_right fun hi => ⟨hv, rfl, i, hd, hi⟩

/-- The engine changes a slot only as the effect of a KEYSCHED that selects it. -/
theorem EngineMove.getSlot {s t : State} (h : EngineMove s t) (r : KeyReg) :
    t.getSlot r = s.getSlot r ∨ (s.latch.valid = true ∧ t.status.err = .ok ∧
      ∃ i, decode s.latch.word = .ok i ∧ writesSlot i r = true) := by
  cases h with
  | idle => exact .inl rfl
  | illegal | failed => exact .inl (by cases r <;> rfl)
  | done hv i hd u hu =>
    have hfinish : (u.finish .ok).getSlot r = u.getSlot r := by cases r <;> rfl
    rw [hfinish]
    exact (hu.getSlot r).imp_right fun hi => ⟨hv, rfl, i, hd, hi⟩

/-! ### The host's moves -/

/-- The host changes BUSY only by writing CMD. -/
theorem HostMove.busy {s t : State} (h : HostMove s t) :
    t.status.busy = s.status.busy ∨ ∃ w rest, s.host.program = .wr .w32 0x004 w :: rest := by
  cases h with
  | other hsame => exact .inl (by rw [hsame.status])
  | cmd w rest hp => exact .inr ⟨w, rest, hp⟩
  | status | data => exact .inl rfl

/-- The host never sets VALID. -/
theorem HostMove.valid_of_false {s t : State} (h : HostMove s t) (hs : s.status.valid = false) :
    t.status.valid = false := by
  cases h with
  | other hsame => rw [hsame.status]; exact hs
  | cmd w => exact State.issue_valid_of_false hs w
  | status | data => exact hs

/-- The host changes no slot. -/
theorem HostMove.getSlot {s t : State} (h : HostMove s t) (r : KeyReg) : t.getSlot r = s.getSlot r := by
  cases h with
  | other hsame =>
    cases r
    · exact hsame.slot0
    · exact hsame.slot1
  | cmd w =>
    cases r
    · exact State.issue_slot0 s w
    · exact State.issue_slot1 s w
  | status | data => cases r <;> rfl

/-- The host changes OVR only by writing CMD, which sets it when the engine is busy, or STATUS, which clears it where
the word has bit 3. -/
theorem HostMove.ovr {s t : State} (h : HostMove s t) :
    t.status.ovr = s.status.ovr ∨
    (t.status.ovr = (s.status.ovr || s.status.busy) ∧ ∃ w rest, s.host.program = .wr .w32 0x004 w :: rest) ∨
    (∃ w rest, t.status.ovr = (s.status.ovr && !w.getLsbD 3) ∧ s.host.program = .wr .w32 0x008 w :: rest) := by
  cases h with
  | other hsame => exact .inl (by rw [hsame.status])
  | cmd w rest hp => exact .inr (.inl ⟨State.issue_ovr s w, w, rest, hp⟩)
  | status w rest hp => exact .inr (.inr ⟨w, rest, rfl, hp⟩)
  | data => exact .inl rfl

/-! ### The steps of a host line that writes CMD or STATUS -/

theorem step_cmdWrite {s : State} {w : Word} {rest : List HostLine} (ht : s.takeTurn.1 = .host)
    (hp : s.host.program = .wr .w32 0x004 w :: rest) :
    step s = .next { s.takeTurn.2.issue w with host := s.host.advance } := by
  rw [step_of_host ht, hostTurn_cmdWrite Config.platform ((congrArg _ (takeTurn_host s)).trans hp), takeTurn_host]

theorem step_statusWrite {s : State} {w : Word} {rest : List HostLine} (ht : s.takeTurn.1 = .host)
    (hp : s.host.program = .wr .w32 0x008 w :: rest) :
    step s = .next { s.takeTurn.2 with status := s.status.hostWrite w, host := s.host.advance } := by
  rw [step_of_host ht, hostTurn_statusWrite Config.platform ((congrArg _ (takeTurn_host s)).trans hp), takeTurn_host,
    takeTurn_status]

/-! ### The obligations -/

/-- Settles O57: each clause from the move it names, the last by cases on whose turn it was. -/
theorem writersOfBusy : Obligations.WritersOfBusy := by
  intro s t hstep
  refine ⟨?_, ?_, ?_, ?_⟩
  · rintro ht ⟨w, rest, hp⟩
    obtain rfl := Host.Outcome.next.inj ((step_cmdWrite ht hp).symm.trans hstep)
    exact State.issue_busy _ w
  · intro ht hv
    rw [step_of_engine ht] at hstep
    exact (engineMove_of_engineTurn hstep).busy_of_latched (by rw [takeTurn_latch]; exact hv)
  · intro ht
    obtain rfl := Host.Outcome.next.inj ((step_of_reset ht).symm.trans hstep)
    rfl
  · intro hne
    rcases step_next_cases hstep with ⟨ht, hm⟩ | ⟨ht, hm⟩ | ⟨ht, -⟩
    · refine .inr (.inl ⟨ht, ?_⟩)
      by_contra hv
      refine hne ?_
      rw [hm.eq_of_idle (by rw [takeTurn_latch]; exact Bool.eq_false_iff.2 hv), takeTurn_status]
    · have hbusy := hm.busy
      rw [takeTurn_status, takeTurn_host] at hbusy
      exact .inr (.inr ⟨ht, hbusy.resolve_left hne⟩)
    · exact .inl ht

/-- Settles O58: neither the host nor the reset input sets VALID, and of the engine's moves only the effect of a
CMAC_VERIFY does. -/
theorem writersOfValid : Obligations.WritersOfValid := by
  intro s t hstep hbefore hafter
  rcases step_next_cases hstep with ⟨ht, hm⟩ | ⟨-, hm⟩ | ⟨-, rfl⟩
  · have hvalid := hm.valid
    rw [takeTurn_status, takeTurn_latch] at hvalid
    exact ⟨ht, hvalid.resolve_left fun hsame => nomatch hafter.symm.trans (hsame.trans hbefore)⟩
  · have hclear := hm.valid_of_false (by rw [takeTurn_status]; exact hbefore)
    exact nomatch hafter.symm.trans hclear
  · exact nomatch hafter

/-- Settles O59: the first three clauses from the step they name, the last two by what each agent's move does to OVR. -/
theorem writersOfOvr : Obligations.WritersOfOvr := by
  intro s t hstep
  refine ⟨?_, ?_, ?_, ?_, ?_⟩
  · rintro ht hbusy ⟨w, rest, hp⟩
    obtain rfl := Host.Outcome.next.inj ((step_cmdWrite ht hp).symm.trans hstep)
    simp [hbusy]
  · rintro ht ⟨w, rest, hp, hbit⟩
    obtain rfl := Host.Outcome.next.inj ((step_statusWrite ht hp).symm.trans hstep)
    simp [hbit, -BitVec.getLsbD_eq_getElem]
  · intro ht
    obtain rfl := Host.Outcome.next.inj ((step_of_reset ht).symm.trans hstep)
    rfl
  · intro hbefore hafter
    rcases step_next_cases hstep with ⟨-, hm⟩ | ⟨ht, hm⟩ | ⟨-, rfl⟩
    · simp [hm.ovr, hbefore] at hafter
    · have hovr := hm.ovr
      rw [takeTurn_status, takeTurn_host, hbefore, hafter] at hovr
      rcases hovr with hsame | ⟨hset, hp⟩ | ⟨w, rest, hclear, -⟩
      · exact nomatch hsame
      · exact ⟨ht, by simpa using hset.symm, hp⟩
      · exact nomatch hclear
    · exact nomatch hafter
  · intro hbefore hafter
    rcases step_next_cases hstep with ⟨-, hm⟩ | ⟨ht, hm⟩ | ⟨ht, -⟩
    · simp [hm.ovr, hbefore] at hafter
    · have hovr := hm.ovr
      rw [takeTurn_status, takeTurn_host, hbefore, hafter] at hovr
      rcases hovr with hsame | ⟨hset, -⟩ | ⟨w, rest, hclear, hp⟩
      · exact nomatch hsame
      · exact nomatch hset
      · exact .inr ⟨ht, w, rest, hp, by simpa [-BitVec.getLsbD_eq_getElem] using hclear⟩
    · exact .inl ht

/-- Settles O60: the host changes no slot, and the engine only one that a KEYSCHED selects. -/
theorem writersOfSlots : Obligations.WritersOfSlots := by
  intro s t r hstep hne
  rcases step_next_cases hstep with ⟨ht, hm⟩ | ⟨-, hm⟩ | ⟨ht, -⟩
  · have hslot := hm.getSlot r
    rw [takeTurn_getSlot, takeTurn_latch] at hslot
    exact .inr ⟨ht, hslot.resolve_left hne⟩
  · exact absurd ((hm.getSlot r).trans (takeTurn_getSlot s r)) hne
  · exact .inl ht

end Sys2Proof.Machine
end

section
/-! What the registers read as, what reset leaves in them, and where the bytes of DATA lie (10_state.md R21, R22,
R23, R29, R31, R32, R34, R39). -/

namespace Sys2Proof.Machine

open Sys2Proof.Claims

/-- The reset input leaves what R39 says, whatever the state before it. -/
theorem atReset_assertReset (s : State) : AtReset s.assertReset where
  caps s' := by rw [busRead_caps, busRead_caps]
  cmd := busRead_cmd Config.platform s.assertReset
  status := by rw [State.assertReset_status]; decide
  cfg := rfl
  params r := by cases r <;> rfl
  keys r := by cases r <;> rfl
  tag := rfl
  slots r := by cases r <;> rfl
  data _ := rfl
  irq := rfl
  latch := rfl
  idle := engineTurn_idle rfl

/-- Settles O6: `State.reset` is what the reset input makes of itself, and the step of the reset input gives
`assertReset`. -/
theorem resetValues : Obligations.ResetValues :=
  ⟨atReset_assertReset State.reset, fun s ht => ⟨_, step_of_reset ht, atReset_assertReset s.takeTurn.2⟩⟩

/-- Settles O14, from the three fields of the constant `capsWord`. -/
theorem capsIsHardwired : Obligations.CapsIsHardwired := by
  intro s w
  have hmax := Config.maxBlocks_le
  obtain ⟨hblk, hkey, hbyte⟩ := capsWord_fields (pf := Config.platform) (by rw [Config.platform_maxBlocks]; omega)
  exact ⟨_, busRead_caps _ s, hblk, hkey, hbyte, busWrite_caps _ s w⟩

/-- Settles O15: the four flags and the three fields of STATUS are bits of `Status.toWord`. -/
theorem controlRegisterReads : Obligations.ControlRegisterReads := by
  intro s
  have hcfg : s.cfg.toWord = if s.cfg.irqen then 1 else 0 := by
    unfold Cfg.toWord
    cases s.cfg.irqen <;> rfl
  refine ⟨busRead_cmd _ s, hcfg ▸ busRead_cfg _ s, _, busRead_status _ s, ?_, ?_, ?_, ?_,
    s.status.toWord_err, s.status.toWord_reserved_low, s.status.toWord_reserved_high⟩ <;>
  · rw [Status.getLsbD_toWord _ (by decide)]
    simp

/-- Settles O21: a block is the number of its 16 bytes, and byte `j` of it is that number's digit `j`. -/
theorem blockBytesLieAtTheirOffsets : Obligations.BlockBytesLieAtTheirOffsets := by
  intro m i b
  have hlt : b.toNat < 256 ^ 16 := b.isLt
  simp only [readBlock_eq_ok, Memory.readLe_eq_some, hlt, true_and, blockByte_eq_ofNat, blockOffset]

/-- Settles O22: the checks of an access look at BUSY alone, and no register reads a key or a slot. -/
theorem keysAreNotReadable : Obligations.KeysAreNotReadable := by
  intro s k0 k1 sl0 sl1 width off
  have hcheck : busCheck Config.platform { s with key0 := k0, key1 := k1, slot0 := sl0, slot1 := sl1 } width off =
      busCheck Config.platform s width off := rfl
  simp only [busRead, hcheck, readReg_of_keys]

end Sys2Proof.Machine
end

section
/-! What an access to the register window does (20_memory.md R62 to R66): the checks first, then the register of an
idle engine that each offset names, then the words and bytes an access moves. -/

namespace Sys2Proof.Machine

open Sys2Proof.Claims

/-! ### The checks of an access (R62 to R66) -/

/-- R62, R66: an access of another width, misaligned or to a reserved offset fails, busy or not. -/
theorem busCheck_bad {pf : Platform} (s : State) {width : Width} {off : Nat}
    (h : width ≠ .w32 ∨ off % 4 ≠ 0 ∨ windowReg pf off = .reserved) :
    busCheck pf s width off = .error (.busError off) := if_pos h

/-- R63, R64: while BUSY, an access that R62 allows fails at an operand's offset. -/
theorem busCheck_busy {pf : Platform} {s : State} {off : Nat} (hb : s.status.busy = true) (ha : off % 4 = 0)
    (hr : windowReg pf off ≠ .reserved) (ho : operandOffset off = true) :
    busCheck pf s .w32 off = .error (.busyAccess off) := by
  simp [busCheck, ha, hr, hb, ho]

/-- R63, R64: an idle engine lets through every access that R62 allows. -/
theorem busCheck_idle {pf : Platform} {s : State} {off : Nat} (hb : s.status.busy = false) (ha : off % 4 = 0)
    (hr : windowReg pf off ≠ .reserved) : busCheck pf s .w32 off = .ok (windowReg pf off) := by
  simp [busCheck, ha, hr, hb]

/-- A failed check is the answer of a read and of a write. -/
theorem bus_fault_of_busCheck {pf : Platform} {s : State} {width : Width} {off : Nat} {f : Fault}
    (h : busCheck pf s width off = .error f) (w : Word) :
    busRead pf s width off = .error f ∧ busWrite pf s width off w = .error f := by
  simp [busRead, busWrite, h]

/-- What an aligned read of an idle engine answers at the offset of a register. -/
theorem busRead_idle {pf : Platform} {s : State} {off : Nat} {r : WindowReg} (hb : s.status.busy = false)
    (hr : windowReg pf off = r) (ha : off % 4 = 0) (hne : r ≠ .reserved) :
    busRead pf s .w32 off = readReg pf s off r := by
  subst hr
  simp [busRead, busCheck_idle hb ha hne]

/-- What an aligned write of an idle engine does at the offset of a register. -/
theorem busWrite_idle {pf : Platform} {s : State} {off : Nat} {r : WindowReg} (hb : s.status.busy = false)
    (hr : windowReg pf off = r) (ha : off % 4 = 0) (hne : r ≠ .reserved) (w : Word) :
    busWrite pf s .w32 off w = .ok (writeReg s off w r) := by
  subst hr
  simp [busWrite, busCheck_idle hb ha hne]

@[simp] theorem busWrite_cfg (pf : Platform) (s : State) (w : Word) :
    busWrite pf s .w32 0x00C w = .ok { s with cfg := Cfg.hostWrite w } :=
  busWrite_eq_ok.2 ⟨busCheck_control pf s (by decide) rfl, rfl⟩

/-! ### Where the registers lie (R61) -/

/-- The offset of the low word of a parameter register; its high word is 4 further on. -/
def paramOffset : PReg → Nat
  | .p0 => 0x010
  | .p1 => 0x018
  | .p2 => 0x020
  | .p3 => 0x028

/-- The offset of word 0 of a key register. -/
def keyOffset : KeyReg → Nat
  | .key0 => 0x040
  | .key1 => 0x060

theorem windowReg_paramLow (pf : Platform) (r : PReg) : windowReg pf (paramOffset r) = .param r 0 := by
  cases r <;> rfl

theorem windowReg_paramHigh (pf : Platform) (r : PReg) : windowReg pf (paramOffset r + 4) = .param r 1 := by
  cases r <;> rfl

theorem windowReg_key (pf : Platform) (r : KeyReg) {m : Nat} (h : m < 8) :
    windowReg pf (keyOffset r + 4 * m) = .key r m := by
  cases r <;> interval_cases m <;> rfl

theorem windowReg_tag (pf : Platform) {m : Nat} (h : m < 4) : windowReg pf (0x080 + 4 * m) = .tag m := by
  interval_cases m <;> rfl

theorem paramOffset_aligned (r : PReg) : paramOffset r % 4 = 0 := by cases r <;> rfl

theorem keyOffset_aligned (r : KeyReg) (m : Nat) : (keyOffset r + 4 * m) % 4 = 0 := by
  cases r <;> simp [keyOffset]

/-- Every aligned offset of the key registers is that of a word of one of them. -/
theorem exists_keyOffset {off : Nat} (hlo : 0x040 ≤ off) (hhi : off < 0x080) (ha : off % 4 = 0) :
    ∃ (r : KeyReg) (m : Nat), m < 8 ∧ off = keyOffset r + 4 * m := by
  by_cases h : off < 0x060
  · exact ⟨.key0, (off - 0x040) / 4, by omega, by simp only [keyOffset]; omega⟩
  · exact ⟨.key1, (off - 0x060) / 4, by omega, by simp only [keyOffset]; omega⟩

/-! ### The words and bytes of a register (R65) -/

theorem getWord_zero (v : DWord) : getWord v 0 = v.setWidth 32 := by
  apply BitVec.eq_of_getLsbD_eq
  intro i hi
  rw [getLsbD_getWord v 0 hi]
  simp [hi]

theorem getWord_one (v : DWord) : getWord v 1 = (v >>> 32).setWidth 32 := by
  apply BitVec.eq_of_getLsbD_eq
  intro i hi
  rw [getLsbD_getWord v 1 hi]
  simp [hi]

theorem setWord_zero (v : DWord) (w : Word) : setWord v 0 w = (v >>> 32).setWidth 32 ++ w := by
  apply BitVec.eq_of_getLsbD_eq
  intro i hi
  rw [getLsbD_setWord v 0 w hi, BitVec.getLsbD_append]
  by_cases h : i < 32
  · simp [h]
  · have hadd : 32 + (i - 32) = i := by omega
    have hlt : i - 32 < 32 := by omega
    simp [h, hadd, hlt]

theorem setWord_one (v : DWord) (w : Word) : setWord v 1 w = w ++ v.setWidth 32 := by
  apply BitVec.eq_of_getLsbD_eq
  intro i hi
  rw [getLsbD_setWord v 1 w hi, BitVec.getLsbD_append]
  by_cases h : i < 32
  · have hlow : ¬ 32 ≤ i := by omega
    simp [h, hlow]
  · have hhigh : 32 ≤ i ∧ i < 64 := by omega
    simp [h, hhigh]

/-- Word `m` of a register is its bytes `4m .. 4m+3`, byte `4m` in bits 7:0. -/
theorem getWord_eq_busWord {n : Nat} (v : BitVec n) (m : Nat) :
    getWord v m = busWord (v.extractLsb' (8 * (4 * m)) 8) (v.extractLsb' (8 * (4 * m + 1)) 8)
      (v.extractLsb' (8 * (4 * m + 2)) 8) (v.extractLsb' (8 * (4 * m + 3)) 8) := by
  have hstart : 32 * m = 8 * (4 * m) := by omega
  unfold getWord busWord
  rw [BitVec.extractLsb'_append_extractLsb'_eq_extractLsb' (by omega),
    BitVec.extractLsb'_append_extractLsb'_eq_extractLsb' (by omega),
    BitVec.extractLsb'_append_extractLsb'_eq_extractLsb' (by omega), hstart]

/-- The bytes of a register after its word `m` is replaced. -/
theorem extractByte_setWord {n : Nat} (v : BitVec n) (m : Nat) (w : Word) {j : Nat} (hj : 8 * j + 8 ≤ n) :
    (setWord v m w).extractLsb' (8 * j) 8 =
      if 4 * m ≤ j ∧ j < 4 * m + 4 then w.extractLsb' (8 * (j - 4 * m)) 8 else v.extractLsb' (8 * j) 8 := by
  apply BitVec.eq_of_getLsbD_eq
  intro i hi
  rw [BitVec.getLsbD_extractLsb', getLsbD_setWord v m w (by omega)]
  by_cases h : 4 * m ≤ j ∧ j < 4 * m + 4
  · rw [if_pos h, if_pos (by omega), BitVec.getLsbD_extractLsb']
    congr 2
    omega
  · rw [if_neg h, if_neg (by omega), BitVec.getLsbD_extractLsb']

/-- Byte `j` of a register or word is digit `j` of its number to the base 256. -/
theorem extractByte_eq_ofNat {n : Nat} (v : BitVec n) (j : Nat) :
    v.extractLsb' (8 * j) 8 = BitVec.ofNat 8 (v.toNat / 256 ^ j) := by
  apply BitVec.eq_of_toNat_eq
  rw [BitVec.extractLsb'_toNat, BitVec.toNat_ofNat, Nat.shiftRight_eq_div_pow, Nat.pow_mul]

theorem toNat_busWord (b0 b1 b2 b3 : Byte) :
    (busWord b0 b1 b2 b3).toNat = b0.toNat + 256 * (b1.toNat + 256 * (b2.toNat + 256 * b3.toNat)) := by
  unfold busWord
  simp only [toNat_append_eq]
  omega

/-! ### The words of DATA (R35, R65) -/

/-- Four written bytes read as their word. -/
theorem Memory.readLe_four {m : Memory} {off : Nat} {b0 b1 b2 b3 : Byte} (h0 : Memory.read m off = some b0)
    (h1 : Memory.read m (off + 1) = some b1) (h2 : Memory.read m (off + 2) = some b2)
    (h3 : Memory.read m (off + 3) = some b3) : Memory.readLe m off 4 = some (busWord b0 b1 b2 b3).toNat := by
  simp [Memory.readLe, toNat_busWord, h0, h1, h2, h3]

/-- Four bytes that were not all written read as nothing. -/
theorem Memory.readLe_four_eq_none {m : Memory} {off : Nat}
    (h : ∀ b0 b1 b2 b3, Memory.read m off = some b0 → Memory.read m (off + 1) = some b1 →
      Memory.read m (off + 2) = some b2 → Memory.read m (off + 3) = some b3 → False) :
    Memory.readLe m off 4 = none := by
  cases hread : Memory.readLe m off 4 with
  | none => rfl
  | some v =>
    obtain ⟨-, hbyte⟩ := (Memory.readLe_eq_some 4).1 hread
    exact (h _ _ _ _ (hbyte 0 (by decide)) (hbyte 1 (by decide)) (hbyte 2 (by decide))
      (hbyte 3 (by decide))).elim

/-- The bytes of a word written to DATA. -/
theorem Memory.read_writeWord (m : Memory) (off : Nat) (w : Word) {j : Nat} (hj : j < 4) :
    Memory.read (Memory.writeLe m off 4 w.toNat) (off + j) = some (w.extractLsb' (8 * j) 8) := by
  rw [Memory.read_writeLe, if_pos (by omega), Nat.add_sub_cancel_left, extractByte_eq_ofNat]

/-- A little-endian write leaves every byte outside it as it was. -/
theorem Memory.read_writeLe_outside (m : Memory) {off a : Nat} (n v : Nat) (h : a < off ∨ off + n ≤ a) :
    Memory.read (Memory.writeLe m off n v) a = Memory.read m a := by
  rw [Memory.read_writeLe, if_neg (by omega)]

/-- A word written to DATA reads back. -/
theorem Memory.readLe_writeWord (m : Memory) (off : Nat) (w : Word) :
    Memory.readLe (Memory.writeLe m off 4 w.toNat) off 4 = some w.toNat := by
  have hlt : w.toNat < 256 ^ 4 := w.isLt
  rw [Memory.readLe_writeLe_same, Nat.mod_eq_of_lt hlt]

/-- The value of a DATA word whose bytes were all written. -/
theorem readReg_data_of_written (pf : Platform) {s : State} {off : Nat} {w : Word}
    (h : Memory.readLe s.data off 4 = some w.toNat) : readReg pf s off .data = .ok w := by
  simp [readReg, h]

/-- The fault of a DATA word with an unwritten byte. -/
theorem readReg_data_of_unwritten (pf : Platform) {s : State} {off : Nat}
    (h : Memory.readLe s.data off 4 = none) : readReg pf s off .data = .error (.uninit off) := by
  simp [readReg, h]

/-! ### Accesses to the operands of an idle engine (R63, R64) -/

section Idle

variable (pf : Platform) {s : State} (hb : s.status.busy = false)
include hb

theorem busRead_paramLow (r : PReg) :
    busRead pf s .w32 (paramOffset r) = .ok ((s.getP r).setWidth 32) := by
  rw [busRead_idle hb (windowReg_paramLow pf r) (paramOffset_aligned r) nofun, readReg, getWord_zero]

theorem busRead_paramHigh (r : PReg) :
    busRead pf s .w32 (paramOffset r + 4) = .ok ((s.getP r >>> 32).setWidth 32) := by
  have ha := paramOffset_aligned r
  rw [busRead_idle hb (windowReg_paramHigh pf r) (by omega) nofun, readReg, getWord_one]

theorem busWrite_paramLow (r : PReg) (w : Word) :
    busWrite pf s .w32 (paramOffset r) w = .ok (s.setP r ((s.getP r >>> 32).setWidth 32 ++ w)) := by
  rw [busWrite_idle hb (windowReg_paramLow pf r) (paramOffset_aligned r) nofun, writeReg, setWord_zero]

theorem busWrite_paramHigh (r : PReg) (w : Word) :
    busWrite pf s .w32 (paramOffset r + 4) w = .ok (s.setP r (w ++ (s.getP r).setWidth 32)) := by
  have ha := paramOffset_aligned r
  rw [busWrite_idle hb (windowReg_paramHigh pf r) (by omega) nofun, writeReg, setWord_one]

theorem busRead_key (r : KeyReg) {m : Nat} (hm : m < 8) :
    busRead pf s .w32 (keyOffset r + 4 * m) = .ok 0 :=
  busRead_idle hb (windowReg_key pf r hm) (keyOffset_aligned r m) nofun

theorem busWrite_key (r : KeyReg) {m : Nat} (hm : m < 8) (w : Word) :
    busWrite pf s .w32 (keyOffset r + 4 * m) w = .ok (s.setKey r (setWord (s.getKey r) m w)) :=
  busWrite_idle hb (windowReg_key pf r hm) (keyOffset_aligned r m) nofun w

theorem busRead_tag {m : Nat} (hm : m < 4) : busRead pf s .w32 (0x080 + 4 * m) = .ok (getWord s.tag m) :=
  busRead_idle hb (windowReg_tag pf hm) (by omega) nofun

theorem busWrite_tag {m : Nat} (hm : m < 4) (w : Word) :
    busWrite pf s .w32 (0x080 + 4 * m) w = .ok { s with tag := setWord s.tag m w } :=
  busWrite_idle hb (windowReg_tag pf hm) (by omega) nofun w

variable {off : Nat} (ha : off % 4 = 0) (hlo : 0x1000 ≤ off) (hhi : off < 0x1000 + 16 * pf.maxBlocks)
include ha hlo hhi

theorem busRead_data : busRead pf s .w32 off = readReg pf s off .data :=
  busRead_idle hb (windowReg_eq_data.2 ⟨hlo, hhi⟩) ha nofun

theorem busWrite_data (w : Word) :
    busWrite pf s .w32 off w = .ok { s with data := Memory.writeLe s.data off 4 w.toNat } :=
  busWrite_idle hb (windowReg_eq_data.2 ⟨hlo, hhi⟩) ha nofun w

end Idle

/-! ### The obligations -/

/-- Settles O13: none of these offsets is reserved, and each is an operand's. -/
theorem operandAccessWhileBusyFaults : Obligations.OperandAccessWhileBusyFaults := by
  intro s off w hb ha hoff
  have hlisted : windowReg Config.platform off ≠ .reserved := by
    rw [Ne, windowReg_eq_reserved, Config.platform_maxBlocks]
    omega
  have hoperand : operandOffset off = true := decide_eq_true (by omega)
  exact bus_fault_of_busCheck (busCheck_busy hb ha hlisted hoperand) w

/-- Settles O16, register by register: the offsets are those of `paramOffset`, `keyOffset` and TAG. -/
theorem idleOperandReads : Obligations.IdleOperandReads := by
  intro s hb
  have hlow := busRead_paramLow Config.platform hb
  have hhigh := busRead_paramHigh Config.platform hb
  refine ⟨hlow .p0, hhigh .p0, hlow .p1, hhigh .p1, hlow .p2, hhigh .p2, hlow .p3, hhigh .p3, ?_, ?_⟩
  · intro off hlo hhi ha
    obtain ⟨r, m, hm, rfl⟩ := exists_keyOffset hlo hhi ha
    exact busRead_key _ hb r hm
  · intro m hm
    rw [busRead_tag _ hb hm, getWord_eq_busWord]
    rfl

/-- Settles O17: the little-endian read of four bytes gives their word, or nothing if one is unwritten. -/
theorem idleDataReads : Obligations.IdleDataReads := by
  intro s off hb ha hlo hhi
  rw [busRead_data _ hb ha hlo hhi]
  split
  next b0 b1 b2 b3 h0 h1 h2 h3 => exact readReg_data_of_written _ (Memory.readLe_four h0 h1 h2 h3)
  next hunwritten => exact readReg_data_of_unwritten _ (Memory.readLe_four_eq_none hunwritten)

/-- Settles O18: a write to half of a parameter register replaces one of its two words. -/
theorem controlAndParameterWrites : Obligations.ControlAndParameterWrites := by
  intro s w
  refine ⟨busWrite_status _ s w, busWrite_cfg _ s w, fun hb => ?_⟩
  have hlow := fun r => busWrite_paramLow Config.platform hb r w
  have hhigh := fun r => busWrite_paramHigh Config.platform hb r w
  exact ⟨hlow .p0, hhigh .p0, hlow .p1, hhigh .p1, hlow .p2, hhigh .p2, hlow .p3, hhigh .p3⟩

/-- Settles O19: each write replaces word `m` of its register, hence the bytes `4m .. 4m+3`. -/
theorem keyAndTagWrites : Obligations.KeyAndTagWrites := by
  intro s w m hb
  refine ⟨fun hm => ⟨_, busWrite_key _ hb .key0 hm w, fun j hj => ?_⟩,
    fun hm => ⟨_, busWrite_key _ hb .key1 hm w, fun j hj => ?_⟩,
    fun hm => ⟨_, busWrite_tag _ hb hm w, fun j hj => ?_⟩⟩ <;>
  exact extractByte_setWord _ m w (by omega)

/-- Settles O20, by what a little-endian write of a word does to each byte of DATA. -/
theorem dataWriteStoresFourBytes : Obligations.DataWriteStoresFourBytes := by
  intro s off w hb ha hlo hhi
  refine ⟨_, busWrite_data _ hb ha hlo hhi w, fun j hj => Memory.read_writeWord s.data off w hj,
    fun a => Memory.read_writeLe_outside s.data 4 w.toNat, ?_⟩
  have hread := busRead_data Config.platform (s := { s with data := Memory.writeLe s.data off 4 w.toNat })
    hb ha hlo hhi
  exact hread.trans (readReg_data_of_written _ (Memory.readLe_writeWord s.data off w))

/-- Settles O12: the offsets listed are the reserved ones of the register map. -/
theorem badAccessIsBusError : Obligations.BadAccessIsBusError := by
  intro s width off w h
  rw [← Config.platform_maxBlocks, ← windowReg_eq_reserved] at h
  exact bus_fault_of_busCheck (busCheck_bad s h) w

end Sys2Proof.Machine
end

section
/-! The decoder and the encoder (30_encoding.md R81 to R89): the fields of a word, what each part of `decode` answers,
and that legal words and well-formed commands name each other. -/

namespace Sys2Proof

open Sys2Proof.Machine Sys2Proof.Claims

/-! ### The fields of a word (R81) -/

theorem opField_toNat (w : Word) : (opField w).toNat = w.toNat % 16 := by
  simp [opField, BitVec.extractLsb'_toNat]

theorem rsvField_toNat (w : Word) : (rsvField w).toNat = w.toNat / 32 % 8 := by
  simp [rsvField, BitVec.extractLsb'_toNat, Nat.shiftRight_eq_div_pow]

theorem argField_toNat (w : Word) : (argField w).toNat = w.toNat / 256 % 256 := by
  simp [argField, BitVec.extractLsb'_toNat, Nat.shiftRight_eq_div_pow]

theorem nField_toNat (w : Word) : (nField w).toNat = w.toNat / 65536 := by
  have hlt := w.isLt
  simp only [nField, BitVec.extractLsb'_toNat, Nat.shiftRight_eq_div_pow]
  omega

theorem rawField_eq (w : Word) : rawField w = decide (w.toNat / 16 % 2 = 1) := by
  rw [rawField, BitVec.getLsbD, Nat.testBit_eq_decide_div_mod_eq]

/-- A word with RSV = 0 is the word assembled from its own fields. -/
theorem assemble_fields {w : Word} (h : rsvField w = 0) :
    assemble (opField w) (rawField w) (argField w) (nField w) = w := by
  apply BitVec.eq_of_getLsbD_eq
  intro i hi
  have hbit : ∀ k, (rsvField w).getLsbD k = false := by simp [h]
  have h5 : w[5] = false := by simpa [rsvField] using hbit 0
  have h6 : w[6] = false := by simpa [rsvField] using hbit 1
  have h7 : w[7] = false := by simpa [rsvField] using hbit 2
  unfold assemble opField rawField argField nField
  interval_cases i <;> simp [h5, h6, h7]

/-! ### What each part of the decoder answers (R82, R86, R87) -/

/-- R84, R86: the checks KEYSCHED's word passes, and the command it then names. -/
theorem decodeKeysched_eq_ok {raw : Bool} {arg : BitVec 8} {n : BitVec 16} {i : Instr} :
    decodeKeysched raw arg n = .ok i ↔
      raw = false ∧ arg.extractLsb' 2 6 = 0 ∧ arg.extractLsb' 0 2 ≠ 0 ∧ n = 0 ∧
        .keysched (arg.extractLsb' 0 2) = i := by
  unfold decodeKeysched
  split_ifs <;> simp_all

theorem decodeKeysched_eq_error {raw : Bool} {arg : BitVec 8} {n : BitVec 16} :
    (∃ e, decodeKeysched raw arg n = .error e) ↔
      raw = true ∨ arg.extractLsb' 2 6 ≠ 0 ∨ arg.extractLsb' 0 2 = 0 ∨ n ≠ 0 := by
  unfold decodeKeysched
  split_ifs <;> simp_all

theorem decodeMode_eq_ok {raw : Bool} {arg : BitVec 8} {rawForm slotForm i : Instr} :
    decodeMode raw arg rawForm slotForm = .ok i ↔ arg = 0 ∧ (if raw then rawForm else slotForm) = i := by
  unfold decodeMode
  split_ifs <;> simp_all

theorem decodeMode_eq_error {raw : Bool} {arg : BitVec 8} {rawForm slotForm : Instr} :
    (∃ e, decodeMode raw arg rawForm slotForm = .error e) ↔ arg ≠ 0 := by
  unfold decodeMode
  split_ifs <;> simp_all

theorem decodeDec_eq_ok {raw : Bool} {arg : BitVec 8} {rawForm i : Instr} :
    decodeDec raw arg rawForm = .ok i ↔ arg = 0 ∧ raw = true ∧ rawForm = i := by
  unfold decodeDec
  split_ifs <;> simp_all

theorem decodeDec_eq_error {raw : Bool} {arg : BitVec 8} {rawForm : Instr} :
    (∃ e, decodeDec raw arg rawForm = .error e) ↔ arg ≠ 0 ∨ raw = false := by
  unfold decodeDec
  split_ifs <;> simp_all

/-- R82, R86: the words that fail once OP is legal and RSV is 0. -/
theorem decodeOp_eq_error {op : Nat} (hlo : 0 < op) (hhi : op < 12) {raw : Bool} {arg : BitVec 8} {n : BitVec 16} :
    (∃ e, decodeOp op raw arg n = .error e) ↔
      (4 ≤ op ∧ arg ≠ 0) ∨
      (op = 1 ∧ (raw = true ∨ arg.extractLsb' 2 6 ≠ 0 ∨ arg.extractLsb' 0 2 = 0 ∨ n ≠ 0)) ∨
      ((op = 10 ∨ op = 11) ∧ raw = false) := by
  interval_cases op <;>
    simp [decodeOp, decodeKeysched_eq_error, decodeMode_eq_error, decodeDec_eq_error]

/-- R86, R87: a word fails at its OP or its RSV, or is decoded by its OP. -/
theorem decode_cases (w : Word) :
    (((opField w).toNat = 0 ∨ 12 ≤ (opField w).toNat) ∧ decode w = .error .reservedOp) ∨
    (rsvField w ≠ 0 ∧ ∃ e, decode w = .error e) ∨
    (0 < (opField w).toNat ∧ (opField w).toNat < 12 ∧ rsvField w = 0 ∧
      decode w = decodeOp (opField w).toNat (rawField w) (argField w) (nField w)) := by
  unfold decode
  by_cases hop : (opField w).toNat = 0 ∨ 12 ≤ (opField w).toNat
  · exact .inl ⟨hop, if_pos hop⟩
  · by_cases hrsv : rsvField w = 0
    · exact .inr (.inr ⟨by omega, by omega, hrsv, by rw [if_neg hop, if_neg (not_not.2 hrsv)]⟩)
    · exact .inr (.inl ⟨hrsv, _, by rw [if_neg hop, if_pos hrsv]⟩)

/-- R86: what a legal word is decoded by. -/
theorem decodeOp_of_decode {w : Word} {i : Instr} (h : decode w = .ok i) :
    rsvField w = 0 ∧ decodeOp (opField w).toNat (rawField w) (argField w) (nField w) = .ok i := by
  rcases decode_cases w with ⟨-, hd⟩ | ⟨-, e, hd⟩ | ⟨-, -, hrsv, hd⟩
  · exact nomatch h.symm.trans hd
  · exact nomatch h.symm.trans hd
  · exact ⟨hrsv, hd.symm.trans h⟩

/-- What the decoder makes of an assembled word with a legal OP. -/
theorem decode_assemble {op : BitVec 4} (hlo : 0 < op.toNat) (hhi : op.toNat < 12) (raw : Bool) (arg : BitVec 8)
    (n : BitVec 16) : decode (assemble op raw arg n) = decodeOp op.toNat raw arg n := by
  obtain ⟨hop, hraw, hrsv, harg, hn⟩ := fields_assemble op raw arg n
  rcases decode_cases (assemble op raw arg n) with ⟨hbad, -⟩ | ⟨hbad, -⟩ | ⟨-, -, -, hd⟩
  · rw [hop] at hbad
    omega
  · exact absurd hrsv hbad
  · rwa [hop, hraw, harg, hn] at hd

/-! ### Commands and their words (R88, R89) -/

/-- R84: ARG of a KEYSCHED word is its SLOTMASK. -/
theorem setWidth_slotMask {arg : BitVec 8} (h : arg.extractLsb' 2 6 = 0) :
    (arg.extractLsb' 0 2).setWidth 8 = arg := by
  revert arg
  decide

/-- The command that OP, RAW, ARG and N name is well formed, and they are the fields of its word. -/
theorem encode_of_decodeOp {op : BitVec 4} {raw : Bool} {arg : BitVec 8} {n : BitVec 16} {i : Instr}
    (h : decodeOp op.toNat raw arg n = .ok i) : i.wellFormed = true ∧ encode i = assemble op raw arg n := by
  have hop : ∀ k : Nat, op.toNat = k → op = BitVec.ofNat 4 k := by rintro k rfl; simp
  unfold decodeOp at h
  split at h <;> rename_i hk
  case h_1 =>
    obtain ⟨rfl, hhigh, hslot, rfl, rfl⟩ := decodeKeysched_eq_ok.1 h
    rw [hop _ hk]
    exact ⟨by simpa [Instr.wellFormed] using hslot, by rw [encode, setWidth_slotMask hhigh]; rfl⟩
  case h_2 | h_3 =>
    rw [hop _ hk]
    obtain rfl := Except.ok.inj h
    cases raw <;> exact ⟨rfl, rfl⟩
  case h_10 | h_11 =>
    rw [hop _ hk]
    obtain ⟨rfl, rfl, rfl⟩ := decodeDec_eq_ok.1 h
    exact ⟨rfl, rfl⟩
  case h_12 => exact nomatch h
  all_goals
    rw [hop _ hk]
    obtain ⟨rfl, rfl⟩ := decodeMode_eq_ok.1 h
    cases raw <;> exact ⟨rfl, rfl⟩

/-- Settles O1: the fields of the assembled word are those put there, and each family's part of the decoder accepts
them. -/
theorem decodeEncodeRoundTrip : Obligations.DecodeEncodeRoundTrip := by
  intro i hwf
  cases i with
  | keysched slotMask =>
    have hmask : slotMask ≠ 0 := by simpa [Instr.wellFormed] using hwf
    rw [encode, decode_assemble (by decide) (by decide)]
    refine decodeKeysched_eq_ok.2 ⟨rfl, ?_⟩
    revert slotMask
    decide
  | _ =>
    rw [encode, decode_assemble (by decide) (by decide)]
    rfl

/-- Settles O2: the fields of a legal word are those of its command, and the round trip of O1 leaves no second
command with that word. -/
theorem legalWordNamesOneCommand : Obligations.LegalWordNamesOneCommand := by
  intro w i h
  obtain ⟨hrsv, hop⟩ := decodeOp_of_decode h
  obtain ⟨hwf, hencode⟩ := encode_of_decodeOp hop
  refine ⟨hwf, hencode.trans (assemble_fields hrsv), ?_⟩
  rintro j hj rfl
  exact Except.ok.inj ((decodeEncodeRoundTrip j hj).symm.trans h)

/-- Settles O3: each word is decoded by evaluation. -/
theorem sampleWordsDecode : Obligations.SampleWordsDecode := by
  unfold Obligations.SampleWordsDecode
  decide

/-! ### The illegal words (R87) -/

/-- R87: the words that name no command, by their fields. -/
theorem decode_eq_error {w : Word} :
    (∃ e, decode w = .error e) ↔
      (opField w).toNat = 0 ∨ 12 ≤ (opField w).toNat ∨ rsvField w ≠ 0 ∨
      (4 ≤ (opField w).toNat ∧ argField w ≠ 0) ∨
      ((opField w).toNat = 1 ∧ (rawField w = true ∨ (argField w).extractLsb' 2 6 ≠ 0 ∨
        (argField w).extractLsb' 0 2 = 0 ∨ nField w ≠ 0)) ∨
      (((opField w).toNat = 10 ∨ (opField w).toNat = 11) ∧ rawField w = false) := by
  rcases decode_cases w with ⟨hop, hd⟩ | ⟨hrsv, hd⟩ | ⟨hlo, hhi, hrsv, hd⟩
  · exact iff_of_true ⟨_, hd⟩ (by omega)
  · exact iff_of_true hd (.inr (.inr (.inl hrsv)))
  · rw [hd, decodeOp_eq_error hlo hhi]
    have h0 : (opField w).toNat ≠ 0 := by omega
    have h12 : ¬ 12 ≤ (opField w).toNat := by omega
    simp only [h0, h12, hrsv, ne_eq, not_true_eq_false, false_or]

/-- R84: ARG[7:2] is not 0 exactly when ARG is 4 or more. -/
theorem extract_argHigh_eq_zero (arg : BitVec 8) : arg.extractLsb' 2 6 = 0 ↔ arg.toNat < 4 := by
  revert arg
  decide

/-- R84: SLOTMASK is ARG modulo 4. -/
theorem extract_slotMask_eq_zero (arg : BitVec 8) : arg.extractLsb' 0 2 = 0 ↔ arg.toNat % 4 = 0 := by
  revert arg
  decide

/-- R81, R87: the illegal words by the numbers of their fields. -/
theorem decode_eq_error_iff_toNat (w : Word) :
    (∃ e, decode w = .error e) ↔
      w.toNat % 16 = 0 ∨ 12 ≤ w.toNat % 16 ∨ w.toNat / 32 % 8 ≠ 0 ∨
      (4 ≤ w.toNat % 16 ∧ w.toNat / 256 % 256 ≠ 0) ∨
      (w.toNat % 16 = 1 ∧ (w.toNat / 16 % 2 = 1 ∨ w.toNat / 256 % 256 % 4 = 0 ∨ 4 ≤ w.toNat / 256 % 256 ∨
        w.toNat / 65536 ≠ 0)) ∨
      ((w.toNat % 16 = 10 ∨ w.toNat % 16 = 11) ∧ w.toNat / 16 % 2 = 0) := by
  have hrsv : rsvField w = 0 ↔ w.toNat / 32 % 8 = 0 := by rw [← BitVec.toNat_inj, rsvField_toNat]; rfl
  have harg : argField w = 0 ↔ w.toNat / 256 % 256 = 0 := by rw [← BitVec.toNat_inj, argField_toNat]; rfl
  have hn : nField w = 0 ↔ w.toNat / 65536 = 0 := by rw [← BitVec.toNat_inj, nField_toNat]; rfl
  simp only [decode_eq_error, ne_eq, extract_argHigh_eq_zero, extract_slotMask_eq_zero, hrsv, harg, hn, opField_toNat,
    argField_toNat, rawField_eq, decide_eq_true_eq, decide_eq_false_iff_not]
  omega

/-! ### The step of a latched word (R93) -/

/-- The engine's turn on a latched word that names no command. -/
theorem step_of_illegal {s : State} {e : Illegal} (ht : s.takeTurn.1 = .engine) (hv : s.latch.valid = true)
    (hd : decode s.latch.word = .error e) : step s = .next (s.takeTurn.2.finish .illegalCommand) := by
  rw [step_of_engine ht, engineTurn_latched (by rwa [takeTurn_latch])]
  simp [completionStep, hd]

/-- The engine's turn on a latched word that names a command. -/
theorem step_of_command {s : State} {i : Instr} (ht : s.takeTurn.1 = .engine) (hv : s.latch.valid = true)
    (hd : decode s.latch.word = .ok i) : step s = exec i s.takeTurn.2 := by
  rw [step_of_engine ht, engineTurn_latched (by rwa [takeTurn_latch])]
  simp [completionStep, hd]

/-- Settles O5: the failing words by the numbers of their fields, the step of one that is latched, and O2 for every
other word. -/
theorem illegalWordsCompleteAsIllegal : Obligations.IllegalWordsCompleteAsIllegal := by
  refine ⟨decode_eq_error_iff_toNat, ?_, ?_⟩
  · intro s e ht hv hd
    rw [step_of_illegal ht hv hd, takeTurn_snd]
    rfl
  · intro w hlegal
    cases hd : decode w with
    | error e => exact absurd hd (hlegal e)
    | ok i =>
      obtain ⟨hwf, hencode, hunique⟩ := legalWordNamesOneCommand w i hd
      exact ⟨i, ⟨hwf, hencode⟩, fun j hj => hunique j hj.1 hj.2⟩

/-- Settles O4: in both cases the engine has the turn, and taking it leaves the rest of the schedule. -/
theorem stepRunsDecodedCommand : Obligations.StepRunsDecodedCommand := by
  intro s i hv hd
  constructor
  · intro hts
    have hturn : s.takeTurn = (.engine, s) := by simp [State.takeTurn, hts, hv]
    rw [step_of_command (by rw [hturn]) hv hd, hturn]
  · intro ts hts
    have hturn : s.takeTurn = (.engine, { s with turns := ts }) := by simp [State.takeTurn, hts]
    rw [step_of_command (by rw [hturn]) hv hd, hturn]

end Sys2Proof
end

section
/-! The host's turn (30_encoding.md R90 to R92): a write to CMD, and each kind of line. -/

namespace Sys2Proof.Machine

/-! ### What the host's accesses do not touch (R67) -/

/-- A read does not look at the schedule. -/
theorem busRead_turns (pf : Platform) (s : State) (ts : List Turn) (width : Width) (off : Nat) :
    busRead pf { s with turns := ts } width off = busRead pf s width off := by
  have hcheck : busCheck pf { s with turns := ts } width off = busCheck pf s width off := rfl
  have hread : ∀ r, readReg pf { s with turns := ts } off r = readReg pf s off r := by
    intro r
    cases r with
    | param r half => cases r <;> rfl
    | _ => rfl
  simp only [busRead, hcheck, hread]

/-- Taking the turn changes nothing that a read looks at. -/
@[simp] theorem busRead_takeTurn (pf : Platform) (s : State) (width : Width) (off : Nat) :
    busRead pf s.takeTurn.2 width off = busRead pf s width off := by
  rw [takeTurn_snd, busRead_turns]

/-- No register's write touches the host. -/
@[simp] theorem writeReg_host (s : State) (off : Nat) (w : Word) (r : WindowReg) :
    (writeReg s off w r).host = s.host := by
  cases r <;> simp [writeReg]

theorem busWrite_host {pf : Platform} {s t : State} {width : Width} {off : Nat} {w : Word}
    (h : busWrite pf s width off w = .ok t) : t.host = s.host := by
  obtain ⟨-, rfl⟩ := busWrite_eq_ok.1 h
  exact writeReg_host s off w _

/-- R23: bit 0 of STATUS, which `wait` polls, is BUSY. -/
theorem Status.toWord_busy (st : Status) : st.toWord.getLsbD 0 = st.busy := by
  rw [st.getLsbD_toWord (by decide)]
  simp

/-! ### The step of each kind of line -/

section Line

variable {s : State} {rest : List HostLine} (ht : s.takeTurn.1 = .host)
include ht

/-- The host's turn runs the first line of its program. -/
theorem step_hostLine {line : HostLine} (hp : s.host.program = line :: rest) :
    step s = hostLine Config.platform line s.takeTurn.2 := by
  rw [step_of_host ht]
  simp [hostTurn, hp]

theorem step_rd {width : Width} {off : Nat} (hp : s.host.program = .rd width off :: rest) :
    step s = match busRead Config.platform s width off with
      | .ok v => .next { s with
          turns := s.takeTurn.2.turns
          host := { program := rest, reads := s.host.reads ++ [{ value := v, poll := false }] } }
      | .error f => .fault f := by
  rw [step_hostLine ht hp, hostLine, busRead_takeTurn]
  cases busRead Config.platform s width off with
  | error f => rfl
  | ok v =>
    rw [takeTurn_snd]
    simp [HostAgent.record, HostAgent.advance, hp]

theorem step_wr {width : Width} {off : Nat} {w : Word} (hp : s.host.program = .wr width off w :: rest) :
    step s = match busWrite Config.platform { s with turns := s.takeTurn.2.turns } width off w with
      | .ok t => .next { t with host := { program := rest, reads := s.host.reads } }
      | .error f => .fault f := by
  rw [step_hostLine ht hp, hostLine, ← takeTurn_snd]
  cases hw : busWrite Config.platform s.takeTurn.2 width off w with
  | error f => rfl
  | ok t => simp [busWrite_host hw, HostAgent.advance, hp]

theorem step_wait (hp : s.host.program = .wait :: rest) :
    step s = .next { s with
      turns := s.takeTurn.2.turns
      host := { program := if s.status.busy then .wait :: rest else rest,
                reads := s.host.reads ++ [{ value := s.status.toWord, poll := true }] } } := by
  rw [step_hostLine ht hp, hostLine_wait, takeTurn_status, Status.toWord_busy, takeTurn_snd]
  cases s.status.busy <;> simp [HostAgent.record, HostAgent.advance, hp]

end Line

/-- R288: a poll of `wait` that sees BUSY = 1 leaves the observation as it is, whatever the schedule (log 24). -/
theorem observe_busyPoll (held : Nat → Byte) {s : State} (hb : s.status.busy = true) (ts : List Turn)
    (program : List HostLine) :
    State.observe held { s with
      turns := ts
      host := { program := program, reads := s.host.reads ++ [{ value := s.status.toWord, poll := true }] } } =
    s.observe held := by
  have hreads := observedReads_record_busy (h := s.host) (v := s.status.toWord) (by rw [Status.toWord_busy, hb])
  calc
    _ = { s.observe held with reads := (s.host.record true s.status.toWord).observedReads } := rfl
    _ = s.observe held := by rw [hreads]; rfl

/-! ### The obligations -/

/-- Settles O10: an idle engine accepts the word, a busy one drops it. -/
theorem cmdWriteIssuesOrOverruns : Obligations.CmdWriteIssuesOrOverruns := by
  intro s w
  rw [busWrite_cmd]
  rcases issue_cases s w with ⟨hb, hi⟩ | ⟨hb, hi⟩
  · rw [hi, if_neg (by simp [hb])]
    rfl
  · rw [hi, if_pos hb]
    rfl

/-- Settles O11, line by line. -/
theorem hostTurnRunsNextLine : Obligations.HostTurnRunsNextLine := by
  intro s rest ht
  refine ⟨fun width off hp => step_rd ht hp, fun width off w hp => step_wr ht hp, fun hp => step_wait ht hp, ?_⟩
  intro hp hb t held hstep
  obtain rfl := Host.Outcome.next.inj ((step_wait ht hp).symm.trans hstep)
  exact observe_busyPoll held hb _ _

end Sys2Proof.Machine
end

section
/-! What every command leaves unchanged, and when it faults (30_encoding.md R93, R94). -/

namespace Sys2Proof.Machine

open Sys2Proof.Claims

/-! ### The frame of a command -/

@[simp] theorem State.finish_getP (s : State) (e : ErrCode) (r : PReg) : (s.finish e).getP r = s.getP r := by
  cases r <;> rfl

@[simp] theorem State.finish_getKey (s : State) (e : ErrCode) (r : KeyReg) : (s.finish e).getKey r = s.getKey r := by
  cases r <;> rfl

@[simp] theorem State.finish_getSlot (s : State) (e : ErrCode) (r : KeyReg) :
    (s.finish e).getSlot r = s.getSlot r := by
  cases r <;> rfl

/-- What a command that leads from `s` to `u`, before the completion writes STATUS and LATCH, has left as it was. -/
structure Frame (i : Instr) (s u : State) : Prop where
  ovr : u.status.ovr = s.status.ovr
  latch : u.latch = s.latch
  cfg : u.cfg = s.cfg
  params (r : PReg) : u.getP r = s.getP r
  keys (r : KeyReg) : u.getKey r = s.getKey r
  host : u.host = s.host
  turns : u.turns = s.turns
  tag : isDigest i = false → u.tag = s.tag
  valid : isVerify i = false → u.status.valid = s.status.valid
  slots (r : KeyReg) : writesSlot i r = false → u.getSlot r = s.getSlot r
  data (a : Nat) : ¬(0x1000 ≤ a ∧ a < 0x1000 + 16 * blocksWritten i) → Memory.read u.data a = Memory.read s.data a

theorem Frame.refl (i : Instr) (s : State) : Frame i s s where
  ovr := rfl
  latch := rfl
  cfg := rfl
  params _ := rfl
  keys _ := rfl
  host := rfl
  turns := rfl
  tag _ := rfl
  valid _ := rfl
  slots _ _ := rfl
  data _ _ := rfl

/-- Only CMAC_DIGEST writes TAG (R33). -/
theorem Effect.tag {i : Instr} {s u : State} (h : Effect i s u) : u.tag = s.tag ∨ isDigest i = true := by
  cases h with
  | digest hi => exact .inr hi
  | sector | verify | keysched => exact .inl rfl

/-- An effect writes no byte of DATA outside the blocks its command writes (R34). -/
theorem Effect.read_outside {i : Instr} {s u : State} (h : Effect i s u) {a : Nat}
    (ha : ¬(0x1000 ≤ a ∧ a < 0x1000 + 16 * blocksWritten i)) : Memory.read u.data a = Memory.read s.data a := by
  cases h with
  | sector out hout => exact read_writeBlocks_of_outside out s.data (by simp only [blockOffset]; omega)
  | digest | verify | keysched => rfl

theorem Effect.frame {i : Instr} {s u : State} (h : Effect i s u) : Frame i s u where
  ovr := h.ovr
  latch := h.latch
  cfg := by cases h <;> rfl
  params r := by cases h <;> cases r <;> rfl
  keys r := by cases h <;> cases r <;> rfl
  host := by cases h <;> rfl
  turns := by cases h <;> rfl
  tag hi := h.tag.resolve_right (by simp [hi])
  valid hi := h.valid.resolve_right (by simp [hi])
  slots r hi := (h.getSlot r).resolve_right (by simp [hi])
  data _ ha := h.read_outside ha

/-- Every completion of a command is its frame's, with or without an error. -/
theorem exec_next {i : Instr} {s t : State} (h : exec i s = .next t) : ∃ u e, Frame i s u ∧ t = u.finish e := by
  rcases exec_answers i s with ⟨e, -, hx⟩ | ⟨f, -, hx⟩ | ⟨u, hu, hx⟩
  · exact ⟨s, e, .refl i s, Host.Outcome.next.inj (h.symm.trans hx)⟩
  · exact nomatch h.symm.trans hx
  · exact ⟨u, .ok, hu.frame, Host.Outcome.next.inj (h.symm.trans hx)⟩

/-- Settles O25: the completion writes BUSY, DONE, ERR and LATCH.valid over what the frame leaves. -/
theorem commandFrame : Obligations.CommandFrame := by
  intro i s t h
  obtain ⟨u, e, hf, rfl⟩ := exec_next h
  refine ⟨rfl, rfl, hf.ovr, ?_, hf.cfg, ?_, ?_, hf.host, hf.turns, hf.tag, hf.valid, ?_, hf.data⟩
  · rw [State.finish_latch, hf.latch]
  · simpa using hf.params
  · simpa using hf.keys
  · simpa using hf.slots

/-! ### The faults of a command -/

/-- A sector that cannot be read has a first block with an unwritten byte, whose offset the fault names. -/
theorem firstUnwritten_of_readBlocks {s : State} {n : Nat} {f : Fault} (h : readBlocks s.data 0 n = .error f) :
    ∃ j, FirstUnwritten s n j ∧ f = .uninit (blockOffset j) := by
  obtain ⟨j, hj, hread, hbelow⟩ := readBlocks_eq_error h
  simp only [Nat.zero_add] at hread hbelow
  obtain ⟨hf, hbyte⟩ := readBlock_eq_error.1 hread
  exact ⟨j, ⟨hj, hbyte, hbelow⟩, hf⟩

/-- Settles O29: of a command's answers only the failed read of its input is a fault, and none is a refusal. -/
theorem commandFaultsOnlyOnUnwrittenInput : Obligations.CommandFaultsOnlyOnUnwrittenInput := by
  intro i s
  rcases exec_answers i s with ⟨e, -, hx⟩ | ⟨f, hread, hx⟩ | ⟨u, -, hx⟩
  · rw [hx]
    exact ⟨nofun, nofun⟩
  · rw [hx]
    refine ⟨nofun, ?_⟩
    rintro g ⟨⟩
    obtain ⟨j, ⟨hj, hbyte, hbelow⟩, hf⟩ := firstUnwritten_of_readBlocks hread
    exact ⟨j, hj, hf, hbyte, hbelow⟩
  · rw [hx]
    exact ⟨nofun, nofun⟩

end Sys2Proof.Machine
end

section
/-! The model's CMAC, its packing and its key derivation are the indexed ones of the statements (40_primitives.md R108,
41_cmac.md R132, R133, R137, 45_dec.md R210 to R214). -/

namespace Sys2Proof.Machine

open Sys2Proof.Claims

/-! ### CMAC of a message of full blocks (R132, R133) -/

/-- The chain over the blocks from block `i` of a message on, from the state that plain CBC has reached there. -/
theorem cmacChain_eq (e : Block → Block) (subkey1 : Block) (m : Nat → Block) (bs : List Block) {b : Block} {i : Nat}
    (h : ∀ j, j ≤ bs.length → (b :: bs).getD j 0 = m (i + j)) :
    cmacChain e subkey1 (cmacState e m i) (b :: bs) =
      e (cmacState e m (i + bs.length) ^^^ m (i + bs.length) ^^^ subkey1) := by
  induction bs generalizing b i with
  | nil =>
    obtain rfl : b = m i := h 0 (Nat.le_refl 0)
    rfl
  | cons c cs ih =>
    obtain rfl : b = m i := h 0 (Nat.zero_le _)
    have htail : ∀ j, j ≤ cs.length → (c :: cs).getD j 0 = m (i + 1 + j) := by
      intro j hj
      have hnext := h (j + 1) (Nat.succ_le_succ hj)
      rwa [List.getD_cons_succ, show i + (j + 1) = i + 1 + j by omega] at hnext
    have hlen : i + (c :: cs).length = i + 1 + cs.length := by rw [List.length_cons]; omega
    rw [hlen]
    exact ih htail

/-- R132: the CMAC of a message of at least one block. -/
theorem cmac_eq_cmacOf (e : Block → Block) (b : Block) (bs : List Block) :
    cmac e (b :: bs) = cmacOf e (fun j => (b :: bs).getD j 0) (bs.length + 1) := by
  have hchain := cmacChain_eq e (cmacSubkeys e).subkey1 (fun j => (b :: bs).getD j 0) bs (b := b) (i := 0)
    fun j _ => by rw [Nat.zero_add]
  rw [Nat.zero_add] at hchain
  exact hchain

/-- R133: the whole tag is its own truncation to 128 bits. -/
theorem trunc_128 (t : Block) : trunc t 128 = t := by simp [trunc]

/-- R137: `MAC128` of a message of at least one block. -/
theorem mac128_eq (rk : RawKey) (b : Block) (bs : List Block) :
    mac128 Config.platform rk (b :: bs) = (Config.ksEnc rk).map fun key =>
      cmacOf (Config.encryptBlock key) (fun j => (b :: bs).getD j 0) (bs.length + 1) := by
  unfold mac128
  rw [Config.platform_ksEnc]
  cases Config.ksEnc rk with
  | none => rfl
  | some key => simp only [trunc_128, cmac_eq_cmacOf, Config.platform_enc, Option.map_some]

/-! ### Two packed fields (R108) -/

theorem cat_eq_cat64 (a b : DWord) : cat a b = cat64 a.toNat b.toNat := by
  have ha := a.isLt
  have hb := b.isLt
  apply BitVec.eq_of_toNat_eq
  rw [toNat_cat64, cat, BitVec.toNat_or, BitVec.toNat_shiftLeft, BitVec.toNat_setWidth, BitVec.toNat_setWidth,
    Nat.mod_eq_of_lt (show a.toNat < 2 ^ 128 by omega), Nat.mod_eq_of_lt (show b.toNat < 2 ^ 128 by omega),
    Nat.mod_eq_of_lt (show b.toNat <<< 64 < 2 ^ 128 by rw [Nat.shiftLeft_eq]; omega),
    ← Nat.shiftLeft_add_eq_or_of_lt ha, Nat.shiftLeft_eq]
  omega

/-- `Cat64` takes its fields modulo 2^64, as a field of 64 bits does. -/
theorem cat_ofNat_eq_cat64 (a : Nat) (b : DWord) : cat (BitVec.ofNat 64 a) b = cat64 a b.toNat := by
  rw [cat_eq_cat64, cat64, cat64, BitVec.toNat_ofNat, Nat.mod_mod]

/-! ### The key derivation (R211) -/

@[simp] theorem platform_kdfMove : Config.platform.kdfMove = Config.kdfMove := rfl

/-- Once a MAC call has failed, or the KDF has ended, it gives no key any more. -/
theorem kdfAnswer_of_stopped {k : RawKey} {iv p : Block} {i : Nat} (h : kdfReplies k iv p i = none) (n : Nat) :
    (List.range' i n).findSome? (kdfAnswer k iv p) = none := by
  induction n generalizing i with
  | zero => rfl
  | succ n ih =>
    have hanswer : kdfAnswer k iv p i = none := by simp [kdfAnswer, h]
    have hnext : kdfReplies k iv p (i + 1) = none := by simp [kdfReplies, h]
    simp [List.range'_succ, hanswer, ih hnext]

/-- What is left of a derivation after `i` MAC calls is the first key that a later number of calls gives. -/
theorem kdfRun_eq_findSome (k : RawKey) (iv p : Block) (fuel : Nat) {i : Nat} {replies : List Block}
    (h : kdfReplies k iv p i = some replies) :
    kdfRun Config.platform k [iv, p] fuel replies = (List.range' i fuel).findSome? (kdfAnswer k iv p) := by
  induction fuel generalizing i replies with
  | zero => rfl
  | succ fuel ih =>
    rw [kdfRun, platform_kdfMove, List.range'_succ, List.findSome?_cons]
    cases hmove : Config.kdfMove k [iv, p] replies with
    | fail =>
      have hanswer : kdfAnswer k iv p i = none := by simp [kdfAnswer, h, hmove]
      have hstop : kdfReplies k iv p (i + 1) = none := by simp [kdfReplies, h, hmove]
      rw [hanswer, kdfAnswer_of_stopped hstop]
    | derive r =>
      have hanswer : kdfAnswer k iv p i = some r := by simp [kdfAnswer, h, hmove]
      rw [hanswer]
    | mac rk head tail =>
      have hanswer : kdfAnswer k iv p i = none := by simp [kdfAnswer, h, hmove]
      simp only [hanswer, mac128_eq]
      cases hkey : Config.ksEnc rk with
      | none =>
        have hstop : kdfReplies k iv p (i + 1) = none := by
          simp [kdfReplies, h, hmove, hkey]
        exact (kdfAnswer_of_stopped hstop fuel).symm
      | some key =>
        refine ih ?_
        simp [kdfReplies, h, hmove, hkey]

theorem kdf_eq_kdfOf (k : RawKey) (iv p : Block) : kdf Config.platform k iv p = kdfOf k iv p := by
  unfold kdf kdfOf
  rw [List.range_eq_range']
  exact kdfRun_eq_findSome k iv p _ rfl

/-! ### The key of a DEC command (R217) -/

theorem partitionKey_eq (s : State) : partitionKey Config.platform s = kdfOf s.key0 0 (cat s.p0 s.p1) := by
  rw [partitionKey, kdf_eq_kdfOf, cat_eq_cat64]

theorem sectorKey_eq (pk : RawKey) (n : Nat) (s : State) :
    sectorKey Config.platform pk n s = kdfOf pk (cat s.p0 0)
      (cat (BitVec.ofNat 64 (s.p3.toNat / (2 ^ 63 / n * 2))) s.p2) := by
  rw [sectorKey, kdf_eq_kdfOf, cat_ofNat_eq_cat64, cat_eq_cat64]
  rfl

/-- R217: past the check of N, a DEC command has the key `decKey`, or is rejected. -/
theorem decCheck_eq {n : BitVec 16} {s : State} (hn : checkN Config.platform n.toNat 1 = .ok ()) :
    decCheck Config.platform n s = orRejected (decKey n.toNat s) := by
  unfold decCheck decKey
  rw [hn, partitionKey_eq]
  cases kdfOf s.key0 0 (cat s.p0 s.p1) with
  | none => rfl
  | some pk =>
    simp only [orRejected, sectorKey_eq]
    cases kdfOf pk (cat s.p0 0) (cat (BitVec.ofNat 64 (s.p3.toNat / (2 ^ 63 / n.toNat * 2))) s.p2) <;> rfl

end Sys2Proof.Machine
end

section
/-! Commands whose input has an unwritten byte (30_encoding.md R94): the keys a command needs come first
(60_exceptions.md R251), then the read of its first block that faults. -/

namespace Sys2Proof.Machine

open Sys2Proof.Claims

/-! ### The read of the input -/

/-- The first block with an unwritten byte stops the read of the sector, and the fault names it. -/
theorem readBlocks_of_firstUnwritten {s : State} {n j : Nat} (h : FirstUnwritten s n j) :
    readBlocks s.data 0 n = .error (.uninit (blockOffset j)) := by
  obtain ⟨hj, hbyte, hbelow⟩ := h
  have hunreadable : readBlock s.data j = .error (.uninit (blockOffset j)) := readBlock_eq_error.2 ⟨rfl, hbyte⟩
  cases hread : readBlocks s.data 0 n with
  | ok bs =>
    obtain ⟨hlen, hall⟩ := readBlocks_eq_ok.1 hread
    have hblock := hall j (by omega)
    rw [Nat.zero_add] at hblock
    exact nomatch hunreadable.symm.trans hblock
  | error f =>
    obtain ⟨i, ⟨-, hbyte', hbelow'⟩, rfl⟩ := firstUnwritten_of_readBlocks hread
    rcases Nat.lt_trichotomy i j with hlt | rfl | hlt
    · obtain ⟨b, hb⟩ := hbelow i hlt
      exact nomatch (readBlock_eq_error.2 ⟨rfl, hbyte'⟩).symm.trans hb
    · rfl
    · obtain ⟨b, hb⟩ := hbelow' j hlt
      exact nomatch hunreadable.symm.trans hb

theorem transformSector_of_firstUnwritten {s : State} {n j : Nat} (h : FirstUnwritten s n j)
    (f : List Block → List Block) : transformSector n f s = .error (.uninit (blockOffset j)) := by
  simp [transformSector, readBlocks_of_firstUnwritten h]

theorem sectorTag_of_firstUnwritten {s : State} {n : BitVec 16} {j : Nat} (h : FirstUnwritten s n.toNat j)
    (pf : Platform) (k : Key) (tagBits : BitVec 8) :
    sectorTag pf k tagBits n s = .error (.uninit (blockOffset j)) := by
  simp [sectorTag, readBlocks_of_firstUnwritten h]

/-! ### The checks once the tag size and N are right -/

/-- The checks of a command give its keys, or KEY_REJECTED where a schedule or a derivation it needs gives none. -/
inductive KeysOrRejected {κ : Type} : Except ErrCode κ → Bool → Prop
  | keys (k : κ) : KeysOrRejected (.ok k) true
  | rejected : KeysOrRejected (.error .keyRejected) false

theorem keysOrRejected_orRejected {κ : Type} (x : Option κ) : KeysOrRejected (orRejected x) x.isSome := by
  cases x with
  | none => exact .rejected
  | some k => exact .keys k

/-- R101: the RAW form of a key fetch. -/
theorem keyFetch_raw_keys (pf : Platform) (r : KeyReg) (o : Orientation) (s : State) :
    KeysOrRejected (keyFetch pf .raw r o s) (schedule pf o (s.getKey r)).isSome :=
  keysOrRejected_orRejected _

/-- R101: the SLOT form of a key fetch, from a valid slot. -/
theorem keyFetch_slot_keys (pf : Platform) {r : KeyReg} (o : Orientation) {s : State} (h : (s.getSlot r).isSome) :
    KeysOrRejected (keyFetch pf .slot r o s) true := by
  obtain ⟨k, hk⟩ := Option.isSome_iff_exists.1 h
  simp only [keyFetch, hk]
  exact .keys _

section Checks

variable {pf : Platform} {form : KeyForm} {o : Orientation} {n : BitVec 16} {s : State} {has0 has1 : Bool}

theorem cmacCheck_keys {tagBits : BitVec 8} (ht : tagBits = 64 ∨ tagBits = 128)
    (hn : checkN pf n.toNat 1 = .ok ()) (h0 : KeysOrRejected (keyFetch pf form .key0 .enc s) has0) :
    KeysOrRejected (cmacCheck pf form tagBits n s) has0 := by
  simp only [cmacCheck, checkTagBits, if_pos ht, hn]
  exact h0

theorem xtsCheck_keys (hn : checkN pf n.toNat 1 = .ok ()) (h0 : KeysOrRejected (keyFetch pf form .key0 o s) has0)
    (h1 : KeysOrRejected (keyFetch pf form .key1 .enc s) has1) :
    KeysOrRejected (xtsCheck pf form o n s) (has0 && has1) := by
  simp only [xtsCheck, hn]
  generalize keyFetch pf form .key0 o s = fetch0 at h0 ⊢
  generalize keyFetch pf form .key1 .enc s = fetch1 at h1 ⊢
  cases h0 <;> cases h1 <;> constructor

theorem cmcCheck_keys (hn : checkN pf n.toNat 2 = .ok ()) (h0 : KeysOrRejected (keyFetch pf form .key0 o s) has0)
    (h1 : KeysOrRejected (keyFetch pf form .key1 .enc s) has1) :
    KeysOrRejected (cmcCheck pf form o n s) (has0 && has1) := by
  simp only [cmcCheck, hn]
  generalize keyFetch pf form .key0 o s = fetch0 at h0 ⊢
  generalize keyFetch pf form .key1 .enc s = fetch1 at h1 ⊢
  cases h0 <;> cases h1 <;> constructor

/-- Encryption fetches the ENC orientation only (R195). -/
theorem hehCheck_enc_keys (hn : checkN pf n.toNat 2 = .ok ())
    (h0 : KeysOrRejected (keyFetch pf form .key0 .enc s) has0) :
    KeysOrRejected (hehCheck pf form .enc n s) has0 := by
  simp only [hehCheck, hn]
  generalize keyFetch pf form .key0 .enc s = fetch0 at h0 ⊢
  cases h0 <;> constructor

/-- Decryption fetches both orientations (R196). -/
theorem hehCheck_dec_keys (hn : checkN pf n.toNat 2 = .ok ())
    (h0 : KeysOrRejected (keyFetch pf form .key0 .enc s) has0)
    (h1 : KeysOrRejected (keyFetch pf form .key0 .dec s) has1) :
    KeysOrRejected (hehCheck pf form .dec n s) (has0 && has1) := by
  simp only [hehCheck, hn]
  generalize keyFetch pf form .key0 .enc s = fetch0 at h0 ⊢
  generalize keyFetch pf form .key0 .dec s = fetch1 at h1 ⊢
  cases h0 <;> cases h1 <;> constructor

end Checks

/-! ### The completion -/

/-- A completion whose work cannot read its input faults once it has its keys. -/
theorem complete_of_unreadable {κ : Type} {checked : Except ErrCode κ} {work : κ → Except Fault State} {s : State}
    {j : Nat} {hasKeys : Bool} (h : KeysOrRejected checked hasKeys)
    (hw : ∀ k, work k = .error (.uninit (blockOffset j))) :
    complete checked work s = uninitOrRejected s j hasKeys := by
  cases h with
  | keys k => exact complete_of_fault rfl (hw k)
  | rejected => rfl

section Unwritten

variable {form : KeyForm} {o : Orientation} {n : BitVec 16} {tagBits : BitVec 8} {s : State} {j : Nat}
  {hasKeys : Bool} (hj : FirstUnwritten s n.toNat j)
include hj

theorem cmacDigest_unwritten (hc : KeysOrRejected (cmacCheck Config.platform form tagBits n s) hasKeys) :
    cmacDigestCommand Config.platform form tagBits n s = uninitOrRejected s j hasKeys :=
  complete_of_unreadable hc fun k => by simp only [sectorTag_of_firstUnwritten hj]

theorem cmacVerify_unwritten (hc : KeysOrRejected (cmacCheck Config.platform form tagBits n s) hasKeys) :
    cmacVerifyCommand Config.platform form tagBits n s = uninitOrRejected s j hasKeys :=
  complete_of_unreadable hc fun k => by simp only [sectorTag_of_firstUnwritten hj]

theorem xts_unwritten (hc : KeysOrRejected (xtsCheck Config.platform form o n s) hasKeys) :
    xtsCommand Config.platform form o n s = uninitOrRejected s j hasKeys :=
  complete_of_unreadable hc fun _ => transformSector_of_firstUnwritten hj _

theorem cmcEnc_unwritten (hc : KeysOrRejected (cmcCheck Config.platform form .enc n s) hasKeys) :
    cmcEncCommand Config.platform form n s = uninitOrRejected s j hasKeys :=
  complete_of_unreadable hc fun _ => transformSector_of_firstUnwritten hj _

theorem cmcDec_unwritten (hc : KeysOrRejected (cmcCheck Config.platform form .dec n s) hasKeys) :
    cmcDecCommand Config.platform form n s = uninitOrRejected s j hasKeys :=
  complete_of_unreadable hc fun _ => transformSector_of_firstUnwritten hj _

theorem heh_unwritten (hc : KeysOrRejected (hehCheck Config.platform form o n s) hasKeys) :
    hehCommand Config.platform form o n s = uninitOrRejected s j hasKeys :=
  complete_of_unreadable hc fun _ => transformSector_of_firstUnwritten hj _

theorem dec_unwritten (hn : checkN Config.platform n.toNat 1 = .ok ()) :
    decCommand Config.platform n s = uninitOrRejected s j (decKey n.toNat s).isSome :=
  complete_of_unreadable (decCheck_eq hn ▸ keysOrRejected_orRejected _)
    fun _ => transformSector_of_firstUnwritten hj _

end Unwritten

/-! ### The obligation -/

/-- Both commands of a pair have what each has. -/
theorem forall_mem_pair {P : Instr → Prop} {a b : Instr} (ha : P a) (hb : P b) : ∀ i ∈ [a, b], P i :=
  List.forall_mem_cons.2 ⟨ha, List.forall_mem_singleton.2 hb⟩

/-- Settles O30, family by family: the checks of each form give its keys or KEY_REJECTED, and with the keys the read of
block `j` faults. -/
theorem unwrittenInputFaults : Obligations.UnwrittenInputFaults := by
  intro n tagBits s j hmax hj
  have hone : checkN Config.platform n.toNat 1 = .ok () := checkN_of_le (Nat.one_le_of_lt hj.1) hmax
  have htwo (h : 2 ≤ n.toNat) : checkN Config.platform n.toNat 2 = .ok () := checkN_of_le h hmax
  have hraw := fun r o => keyFetch_raw_keys Config.platform r o s
  have hslot0 (h : s.slot0.isSome) (o : Orientation) := keyFetch_slot_keys Config.platform (r := .key0) o h
  have hslot1 (h : s.slot1.isSome) (o : Orientation) := keyFetch_slot_keys Config.platform (r := .key1) o h
  refine ⟨fun ht => ⟨fun h0 => ?cmacSlot, ?cmacRaw⟩, ⟨fun h0 h1 => ?xtsSlot, ?xtsEncRaw, ?xtsDecRaw⟩,
    fun h => ⟨fun h0 h1 => ?cmcSlot, ?cmcEncRaw, ?cmcDecRaw⟩, fun h => ⟨fun h0 => ?hehSlot, ?hehEncRaw, ?hehDecRaw⟩,
    ?dec⟩
  case cmacSlot =>
    have hc := cmacCheck_keys ht hone (hslot0 h0 .enc)
    exact forall_mem_pair (cmacDigest_unwritten hj hc) (cmacVerify_unwritten hj hc)
  case cmacRaw =>
    have hc := cmacCheck_keys ht hone (hraw .key0 .enc)
    exact forall_mem_pair (cmacDigest_unwritten hj hc) (cmacVerify_unwritten hj hc)
  case xtsSlot =>
    have hc := fun o => xtsCheck_keys hone (hslot0 h0 o) (hslot1 h1 .enc)
    exact forall_mem_pair (xts_unwritten hj (hc .enc)) (xts_unwritten hj (hc .dec))
  case xtsEncRaw => exact xts_unwritten hj (xtsCheck_keys hone (hraw .key0 .enc) (hraw .key1 .enc))
  case xtsDecRaw => exact xts_unwritten hj (xtsCheck_keys hone (hraw .key0 .dec) (hraw .key1 .enc))
  case cmcSlot =>
    have hc := fun o => cmcCheck_keys (htwo h) (hslot0 h0 o) (hslot1 h1 .enc)
    exact forall_mem_pair (cmcEnc_unwritten hj (hc .enc)) (cmcDec_unwritten hj (hc .dec))
  case cmcEncRaw => exact cmcEnc_unwritten hj (cmcCheck_keys (htwo h) (hraw .key0 .enc) (hraw .key1 .enc))
  case cmcDecRaw => exact cmcDec_unwritten hj (cmcCheck_keys (htwo h) (hraw .key0 .dec) (hraw .key1 .enc))
  case hehSlot =>
    have henc := hehCheck_enc_keys (htwo h) (hslot0 h0 .enc)
    have hdec := hehCheck_dec_keys (htwo h) (hslot0 h0 .enc) (hslot0 h0 .dec)
    exact forall_mem_pair (heh_unwritten hj henc) (heh_unwritten hj hdec)
  case hehEncRaw => exact heh_unwritten hj (hehCheck_enc_keys (htwo h) (hraw .key0 .enc))
  case hehDecRaw => exact heh_unwritten hj (hehCheck_dec_keys (htwo h) (hraw .key0 .enc) (hraw .key0 .dec))
  case dec => exact forall_mem_pair (dec_unwritten hj hone) (dec_unwritten hj hone)

end Sys2Proof.Machine
end

section
/-! KEYSCHED, and the check of N that comes before the keys and DATA (40_primitives.md R109, R112; 60_exceptions.md
R242). -/

namespace Sys2Proof.Machine

open Sys2Proof.Claims

/-! ### KEYSCHED (R112) -/

/-- The slot that KEYSCHED gives is `slotAfter`, and KEY_REJECTED where that has none. -/
theorem scheduleSlot_eq (selected : Bool) (k : RawKey) (old : KeySlot) :
    scheduleSlot Config.platform selected k old = orRejected (slotAfter selected k old) := by
  rcases scheduleSlot_cases Config.platform selected k old with
    ⟨rfl, h⟩ | ⟨rfl, ke, kd, he, hd, h⟩ | ⟨rfl, hnone, h⟩
  · exact h
  · rw [Config.platform_ksEnc] at he
    rw [Config.platform_ksDec] at hd
    simp [h, slotAfter, bothSchedules, he, hd, orRejected]
  · rw [Config.platform_ksEnc, Config.platform_ksDec] at hnone
    have hboth : bothSchedules k = none := by
      rcases hnone with he | hd
      · simp [bothSchedules, he]
      · simp [bothSchedules, hd]
    simp [h, slotAfter, hboth, orRejected]

/-- Settles O31, by whether each register's slot is one that KEYSCHED gives. -/
theorem keyschedResult : Obligations.KeyschedResult := by
  intro slotMask s
  show keyschedCommand Config.platform slotMask s = _
  unfold keyschedCommand scheduleSlots
  rw [scheduleSlot_eq, scheduleSlot_eq]
  cases slotAfter (slotMask.getLsbD 0) s.key0 s.slot0 with
  | none => rfl
  | some a => cases slotAfter (slotMask.getLsbD 1) s.key1 s.slot1 <;> rfl

/-! ### The check of N (R109) -/

theorem checkN_of_lt {pf : Platform} {n min : Nat} (h : n < min) :
    checkN pf n min = .error .invalidBlockCount := if_pos h

theorem checkN_of_gt {pf : Platform} {n min : Nat} (hmin : min ≤ pf.maxBlocks) (h : pf.maxBlocks < n) :
    checkN pf n min = .error .invalidBufferLength := by
  rw [checkN, if_neg (by omega), if_pos h]

/-- The outcome is the error completion of a mode command with minimum `min` whenever its check of `n` fails. -/
def FailsOnBadN (n : BitVec 16) (min : Nat) (s : State) (r : Host.Outcome State Fault Refusal) : Prop :=
  ∀ e, checkN Config.platform n.toNat min = .error e → r = .next (completed s e)

/-- Every mode's minimum is at most MAX_BLOCKS (R7), so the two errors of `CheckN` exclude each other. -/
theorem badN_codes {n : BitVec 16} {min : Nat} {s : State} {l : List Instr} (hmin : min ≤ 2)
    (h : ∀ i ∈ l, FailsOnBadN n min s (exec i s)) :
    ∀ i ∈ l, (n.toNat < min → exec i s = .next (completed s .invalidBlockCount)) ∧
      (Config.maxBlocks < n.toNat → exec i s = .next (completed s .invalidBufferLength)) :=
  fun i hi => ⟨fun hn => h i hi _ (checkN_of_lt hn),
    fun hn => h i hi _ (checkN_of_gt (hmin.trans Config.two_le_maxBlocks) hn)⟩

section Modes

variable (form : KeyForm) (o : Orientation) (n : BitVec 16) {tagBits : BitVec 8} (s : State)

theorem cmacCheck_of_badN {pf : Platform} {e : ErrCode} (ht : tagBits = 64 ∨ tagBits = 128)
    (h : checkN pf n.toNat 1 = .error e) : cmacCheck pf form tagBits n s = .error e := by
  simp only [cmacCheck, checkTagBits, if_pos ht, h]

theorem cmacDigest_failsOnBadN (ht : tagBits = 64 ∨ tagBits = 128) :
    FailsOnBadN n 1 s (cmacDigestCommand Config.platform form tagBits n s) :=
  fun _ h => complete_of_error (cmacCheck_of_badN form n s ht h)

theorem cmacVerify_failsOnBadN (ht : tagBits = 64 ∨ tagBits = 128) :
    FailsOnBadN n 1 s (cmacVerifyCommand Config.platform form tagBits n s) :=
  fun _ h => complete_of_error (cmacCheck_of_badN form n s ht h)

theorem xts_failsOnBadN : FailsOnBadN n 1 s (xtsCommand Config.platform form o n s) :=
  fun _ h => complete_of_error (by simp only [xtsCheck, h])

theorem dec_failsOnBadN : FailsOnBadN n 1 s (decCommand Config.platform n s) :=
  fun _ h => complete_of_error (by simp only [decCheck, h])

theorem cmcCheck_of_badN {pf : Platform} {e : ErrCode} (h : checkN pf n.toNat 2 = .error e) :
    cmcCheck pf form o n s = .error e := by
  simp only [cmcCheck, h]

theorem cmcEnc_failsOnBadN : FailsOnBadN n 2 s (cmcEncCommand Config.platform form n s) :=
  fun _ h => complete_of_error (cmcCheck_of_badN form .enc n s h)

theorem cmcDec_failsOnBadN : FailsOnBadN n 2 s (cmcDecCommand Config.platform form n s) :=
  fun _ h => complete_of_error (cmcCheck_of_badN form .dec n s h)

theorem heh_failsOnBadN : FailsOnBadN n 2 s (hehCommand Config.platform form o n s) :=
  fun _ h => complete_of_error (by simp only [hehCheck, h])

end Modes

/-- Settles O27: in every mode the check of N is the first to fail once the tag size is legal. -/
theorem badBlockCountCompletes : Obligations.BadBlockCountCompletes := by
  intro n tagBits s ht
  refine ⟨badN_codes one_le_two ?fromOneBlock, badN_codes le_rfl ?fromTwoBlocks⟩
  case fromOneBlock =>
    simp only [List.forall_mem_cons]
    exact ⟨cmacDigest_failsOnBadN .raw n s ht, cmacDigest_failsOnBadN .slot n s ht,
      cmacVerify_failsOnBadN .raw n s ht, cmacVerify_failsOnBadN .slot n s ht,
      xts_failsOnBadN .raw .enc n s, xts_failsOnBadN .slot .enc n s,
      xts_failsOnBadN .raw .dec n s, xts_failsOnBadN .slot .dec n s,
      dec_failsOnBadN n s, dec_failsOnBadN n s, nofun⟩
  case fromTwoBlocks =>
    simp only [List.forall_mem_cons]
    exact ⟨cmcEnc_failsOnBadN .raw n s, cmcEnc_failsOnBadN .slot n s,
      cmcDec_failsOnBadN .raw n s, cmcDec_failsOnBadN .slot n s,
      heh_failsOnBadN .raw .enc n s, heh_failsOnBadN .slot .enc n s,
      heh_failsOnBadN .raw .dec n s, heh_failsOnBadN .slot .dec n s, nofun⟩

end Sys2Proof.Machine
end

section
/-! The field functions (40_primitives.md R103 to R106). The loop of R105 builds a product from its first factor by
XOR and `α` alone, so a map of blocks that is additive and commutes with `α` carries over a product
(`FieldLinear.map_gfMul`). The ring laws are that fact for the maps `a ↦ a · c`, with `1 · b = b`. -/

namespace Sys2Proof.Machine

/-! ### The doubling `α` (R104) -/

theorem alpha_eq (b : Block) : alpha b = b <<< 1 ^^^ (if b.getLsbD 127 then 0x87 else 0) := by
  unfold alpha
  split <;> simp

theorem alpha_zero : alpha 0 = 0 := by decide

theorem alpha_one : alpha 1 = 2 := by decide

theorem alpha_xor (a b : Block) : alpha (a ^^^ b) = alpha a ^^^ alpha b := by
  have hcarry : (if (a ^^^ b).getLsbD 127 then (0x87 : Block) else 0) =
      (if a.getLsbD 127 then 0x87 else 0) ^^^ (if b.getLsbD 127 then 0x87 else 0) := by
    rw [BitVec.getLsbD_xor]
    cases a.getLsbD 127 <;> cases b.getLsbD 127 <;> rfl
  rw [alpha_eq, alpha_eq, alpha_eq, hcarry, BitVec.shiftLeft_xor_distrib]
  ac_rfl

/-- R104 in numbers: bit 127 of a block is set exactly when its number is at least 2^127. -/
theorem alpha_toNat (a : Block) :
    (alpha a).toNat = 2 * a.toNat % 2 ^ 128 ^^^ (if 2 ^ 127 ≤ a.toNat then 0x87 else 0) := by
  have htop : a.getLsbD 127 = decide (2 ^ 127 ≤ a.toNat) := BitVec.msb_eq_decide a
  have hshift : a.toNat <<< 1 = 2 * a.toNat := by rw [Nat.shiftLeft_eq, Nat.mul_comm]
  rw [alpha_eq, BitVec.toNat_xor, BitVec.toNat_shiftLeft, hshift, htop]
  by_cases h : 2 ^ 127 ≤ a.toNat
  · rw [decide_eq_true h, if_pos rfl, if_pos h]
    rfl
  · rw [decide_eq_false h, if_neg Bool.false_ne_true, if_neg h]
    rfl

/-- Below 2^128 nothing falls out: the `k`-th power of `α` takes the block 1 to the block with bit `k` alone. -/
theorem alpha_iterate_one {k : Nat} (h : k < 128) : alpha^[k] 1 = BitVec.twoPow 128 k := by
  induction k with
  | zero => rfl
  | succ k ih =>
    have htop : (BitVec.twoPow 128 k).getLsbD 127 = false := by
      rw [BitVec.getLsbD_twoPow, decide_eq_false (show k ≠ 127 by omega), Bool.and_false]
    rw [Function.iterate_succ_apply', ih (by omega), alpha_eq, htop]
    simp [BitVec.twoPow_eq, BitVec.shiftLeft_add]

/-! ### Maps that carry over a product -/

/-- A map of blocks that is additive and commutes with `α`, the product with x. -/
structure FieldLinear (f : Block → Block) : Prop where
  map_xor (a b : Block) : f (a ^^^ b) = f a ^^^ f b
  map_alpha (a : Block) : f (alpha a) = alpha (f a)

theorem FieldLinear.map_zero {f : Block → Block} (hf : FieldLinear f) : f 0 = 0 := by
  have h := hf.map_xor 0 0
  rwa [BitVec.xor_self, BitVec.xor_self] at h

theorem FieldLinear.map_gfMulLoop {f : Block → Block} (hf : FieldLinear f) (b : Block) (k fuel : Nat)
    (a r : Block) : f (gfMulLoop b k fuel a r) = gfMulLoop b k fuel (f a) (f r) := by
  induction fuel generalizing k a r with
  | zero => rfl
  | succ fuel ih =>
    rw [gfMulLoop, gfMulLoop, ih, hf.map_alpha]
    cases b.getLsbD k with
    | false => rfl
    | true => exact congrArg _ (hf.map_xor r a)

theorem FieldLinear.map_gfMul {f : Block → Block} (hf : FieldLinear f) (a b : Block) :
    f (gfMul a b) = gfMul (f a) b := by
  rw [gfMul, gfMul, hf.map_gfMulLoop, hf.map_zero]

theorem fieldLinear_alpha : FieldLinear alpha where
  map_xor := alpha_xor
  map_alpha _ := rfl

theorem fieldLinear_zero : FieldLinear fun _ => 0 where
  map_xor _ _ := BitVec.xor_self.symm
  map_alpha _ := alpha_zero.symm

/-! ### The product (R105) -/

theorem gfMulLoop_xor (b : Block) (k fuel : Nat) (a a' r r' : Block) :
    gfMulLoop b k fuel (a ^^^ a') (r ^^^ r') = gfMulLoop b k fuel a r ^^^ gfMulLoop b k fuel a' r' := by
  induction fuel generalizing k a a' r r' with
  | zero => rfl
  | succ fuel ih =>
    rw [gfMulLoop, gfMulLoop, gfMulLoop, ← ih, alpha_xor]
    cases b.getLsbD k with
    | false => rfl
    | true =>
      congr 1
      show r ^^^ r' ^^^ (a ^^^ a') = r ^^^ a ^^^ (r' ^^^ a')
      ac_rfl

theorem gfMul_xor_left (a b c : Block) : gfMul (a ^^^ b) c = gfMul a c ^^^ gfMul b c :=
  gfMulLoop_xor c 0 128 a b 0 0

/-- The product is linear in its first factor. -/
theorem fieldLinear_gfMul (c : Block) : FieldLinear fun a => gfMul a c where
  map_xor a b := gfMul_xor_left a b c
  map_alpha a := (fieldLinear_alpha.map_gfMul a c).symm

/-- The bits of `b` below `k`. -/
def lowBits (b : Block) (k : Nat) : Block := (b.setWidth k).setWidth 128

theorem lowBits_zero (b : Block) : lowBits b 0 = 0 := by
  rw [lowBits, BitVec.eq_nil (b.setWidth 0)]
  rfl

theorem lowBits_succ (b : Block) {k : Nat} (h : k < 128) :
    lowBits b (k + 1) = if b.getLsbD k then lowBits b k ^^^ BitVec.twoPow 128 k else lowBits b k := by
  apply BitVec.eq_of_getLsbD_eq
  intro i hi
  by_cases hk : k = i
  · subst hk
    cases hb : b.getLsbD k <;> simp [lowBits, h, hb, BitVec.getLsbD_twoPow, -BitVec.getLsbD_eq_getElem]
  · have hiff : i < k + 1 ↔ i < k := by omega
    cases hb : b.getLsbD k <;> simp [lowBits, hi, hk, hiff, BitVec.getLsbD_twoPow, -BitVec.getLsbD_eq_getElem]

/-- From bit `k` on, with `α^k(1)` and the bits below `k` summed, the loop puts `b` together again. -/
theorem gfMulLoop_one (b : Block) {k fuel : Nat} (h : k + fuel = 128) :
    gfMulLoop b k fuel (alpha^[k] 1) (lowBits b k) = b := by
  induction fuel generalizing k with
  | zero =>
    obtain rfl : k = 128 := h
    simp [gfMulLoop, lowBits]
  | succ fuel ih =>
    have hk : k < 128 := by omega
    rw [gfMulLoop, ← Function.iterate_succ_apply' alpha, alpha_iterate_one hk, ← lowBits_succ b hk]
    exact ih (by omega)

theorem gfMul_one_left (b : Block) : gfMul 1 b = b := by
  have h := gfMulLoop_one b (k := 0) (fuel := 128) rfl
  rwa [lowBits_zero] at h

theorem gfMul_right_comm (a b c : Block) : gfMul (gfMul a b) c = gfMul (gfMul a c) b :=
  (fieldLinear_gfMul c).map_gfMul a b

theorem gfMul_comm (a b : Block) : gfMul a b = gfMul b a := by
  have h := gfMul_right_comm 1 a b
  rwa [gfMul_one_left, gfMul_one_left] at h

theorem gfMul_assoc (a b c : Block) : gfMul (gfMul a b) c = gfMul a (gfMul b c) := by
  rw [gfMul_comm a b, gfMul_right_comm, gfMul_comm]

theorem gfMul_one (a : Block) : gfMul a 1 = a := by rw [gfMul_comm, gfMul_one_left]

theorem gfMul_zero (a : Block) : gfMul a 0 = 0 := by
  rw [gfMul_comm]
  exact (fieldLinear_zero.map_gfMul 0 a).symm

theorem alpha_eq_gfMul (a : Block) : alpha a = gfMul a 2 := by
  have h := fieldLinear_alpha.map_gfMul 1 a
  rwa [gfMul_one_left, alpha_one, gfMul_comm] at h

/-- Settles O55: the laws of the product follow from its linearity in the first factor and `1 · b = b`. -/
theorem fieldMultiplyLaws : Obligations.FieldMultiplyLaws := fun a b c =>
  ⟨gfMul_comm a b, gfMul_assoc a b c, gfMul_xor_left a b c, gfMul_one a, gfMul_zero a, alpha_eq_gfMul a,
    alpha_toNat a⟩

end Sys2Proof.Machine
end

section
/-! CMAC_DIGEST and CMAC_VERIFY, and the doubling of the subkey (41_cmac.md R130 to R136). Both commands fetch one key
and compute one tag of the message, so each has one result for both forms. -/

namespace Sys2Proof.Machine

open Sys2Proof.Claims

/-! ### The doubling (R130) -/

/-- R12: bit `i` of byte `j` of a block. -/
theorem getLsbD_blockByte (b : Block) (j : Nat) {i : Nat} (hi : i < 8) :
    (blockByte b j).getLsbD i = b.getLsbD (8 * j + i) := by
  rw [blockByte, BitVec.getLsbD_extractLsb', decide_eq_true hi, Bool.true_and]

theorem blockByte_xor (a b : Block) (j : Nat) : blockByte (a ^^^ b) j = blockByte a j ^^^ blockByte b j :=
  BitVec.extractLsb'_xor

/-- A shift by one bit shifts byte 0 by itself. -/
theorem blockByte_shiftLeft_one_zero (b : Block) : blockByte (b <<< 1) 0 = blockByte b 0 <<< 1 := by
  apply BitVec.eq_of_getLsbD_eq
  intro i hi
  rw [getLsbD_blockByte _ 0 hi, BitVec.getLsbD_shiftLeft, BitVec.getLsbD_shiftLeft, getLsbD_blockByte b 0 (by omega),
    decide_eq_true hi, decide_eq_true (show 8 * 0 + i < 128 by omega), Nat.mul_zero, Nat.zero_add, Nat.zero_add]

/-- A shift by one bit brings the top bit of each byte into the byte above it. -/
theorem blockByte_shiftLeft_one_succ (b : Block) {j : Nat} (hj : j < 15) :
    blockByte (b <<< 1) (j + 1) = blockByte b (j + 1) <<< 1 ||| blockByte b j >>> 7 := by
  apply BitVec.eq_of_getLsbD_eq
  intro i hi
  rw [getLsbD_blockByte _ _ hi, BitVec.getLsbD_or, BitVec.getLsbD_shiftLeft, BitVec.getLsbD_shiftLeft,
    BitVec.getLsbD_ushiftRight, decide_eq_true hi, decide_eq_true (show 8 * (j + 1) + i < 128 by omega),
    decide_eq_false (show ¬8 * (j + 1) + i < 1 by omega)]
  cases i with
  | zero =>
    rw [getLsbD_blockByte b j (by decide)]
    exact (Bool.false_or _).symm
  | succ i =>
    have hcarry : (blockByte b j).getLsbD (7 + (i + 1)) = false := BitVec.getLsbD_of_ge _ _ (by omega)
    rw [hcarry, getLsbD_blockByte b (j + 1) (by omega), decide_eq_false (show ¬i + 1 < 1 by omega), Bool.or_false]
    rfl

theorem blockByte_alpha_zero (b : Block) :
    blockByte (alpha b) 0 =
      if (blockByte b 15).getLsbD 7 then blockByte b 0 <<< 1 ^^^ 0x87 else blockByte b 0 <<< 1 := by
  have htop : b.getLsbD 127 = (blockByte b 15).getLsbD 7 := getLsbD_eq_blockByte b 127
  rw [alpha, htop, ← blockByte_shiftLeft_one_zero]
  cases (blockByte b 15).getLsbD 7 with
  | false => rfl
  | true => exact blockByte_xor _ _ 0

/-- The constant 0x87 is in byte 0 alone. -/
theorem blockByte_carry_succ (c : Bool) {j : Nat} (hj : j < 15) :
    blockByte (if c then 0x87 else 0) (j + 1) = 0 := by
  have hconst : ∀ j : Fin 15, blockByte 0x87 (j + 1) = 0 ∧ blockByte 0 (j + 1) = 0 := by decide
  cases c with
  | false => exact (hconst ⟨j, hj⟩).2
  | true => exact (hconst ⟨j, hj⟩).1

theorem blockByte_alpha_succ (b : Block) {j : Nat} (hj : j < 15) :
    blockByte (alpha b) (j + 1) = blockByte b (j + 1) <<< 1 ||| blockByte b j >>> 7 := by
  rw [alpha_eq, blockByte_xor, blockByte_shiftLeft_one_succ b hj, blockByte_carry_succ _ hj]
  exact BitVec.xor_zero

/-- R130: `dbl` is `α` of the block read big-endian. -/
theorem byteReverse_dbl (r : Block) : byteReverse (dbl r) = alpha (byteReverse r) := by
  apply block_ext
  intro j hj
  rw [blockByte_byteReverse _ hj, blockByte_dbl r (by omega)]
  cases j with
  | zero =>
    rw [blockByte_alpha_zero, blockByte_byteReverse r (by decide), blockByte_byteReverse r (by decide)]
    rfl
  | succ j =>
    rw [blockByte_alpha_succ _ (by omega), blockByte_byteReverse r hj, blockByte_byteReverse r (by omega),
      if_neg (by omega), show 15 - (j + 1) + 1 = 15 - j by omega]

/-- Settles O56: the statement is `byteReverse_dbl` with `alpha` written out. -/
theorem dblIsBigEndianDoubling : Obligations.DblIsBigEndianDoubling := byteReverse_dbl

/-! ### The tag of a message in DATA (R110, R132, R133) -/

/-- R110: a message whose blocks are written is read as the list of its blocks. -/
theorem readBlocks_of_inputIs {s : State} {n : Nat} {p : Nat → Block} (h : InputIs s n p) :
    readBlocks s.data 0 n = .ok ((List.range n).map p) := by
  rw [readBlocks_eq_ok]
  refine ⟨by simp, fun j hj => ?_⟩
  rw [Nat.zero_add, h j (by simpa using hj)]
  simp

/-- R132: the CMAC of the message `p 0 .. p (n-1)`. -/
theorem cmac_map_range (e : Block → Block) (p : Nat → Block) {n : Nat} (hn : 1 ≤ n) :
    cmac e ((List.range n).map p) = cmacOf e p n := by
  obtain ⟨n, rfl⟩ := Nat.exists_eq_add_of_le' hn
  have hchain := cmacChain_eq e (cmacSubkeys e).subkey1 p ((List.range' 1 n).map p) (b := p 0) (i := 0) ?blocks
  case blocks =>
    intro j hj
    cases j with
    | zero => rfl
    | succ j =>
      have hj' : j < n := by simpa using hj
      simp [hj', Nat.add_comm]
  rw [List.length_map, List.length_range', Nat.zero_add] at hchain
  rw [List.range_eq_range']
  exact hchain

/-- R133: a truncation to whole bytes keeps those bytes and clears the rest. -/
theorem trunc_eq_truncated (t : Block) (m : Nat) : trunc t (8 * m) = truncated t (8 * m) := by
  apply block_ext
  intro j hj
  rw [truncated, blockByte_blockOfBytes _ hj, Nat.mul_div_cancel_left m (by decide)]
  apply BitVec.eq_of_getLsbD_eq
  intro i hi
  rw [getLsbD_blockByte _ j hi, trunc, BitVec.getLsbD_setWidth, BitVec.getLsbD_setWidth,
    decide_eq_true (show 8 * j + i < 128 by omega), Bool.true_and]
  by_cases hkeep : j < m
  · rw [if_pos hkeep, getLsbD_blockByte t j hi, decide_eq_true (show 8 * j + i < 8 * m by omega), Bool.true_and]
  · rw [if_neg hkeep, decide_eq_false (show ¬8 * j + i < 8 * m by omega), Bool.false_and]
    exact (BitVec.getLsbD_zero).symm

section Command

variable {form : KeyForm} {tagBits : BitVec 8} {n : BitVec 16} {s : State} {p : Nat → Block}

theorem trunc_of_tagBits (ht : tagBits = 64 ∨ tagBits = 128) (t : Block) :
    trunc t tagBits.toNat = truncated t tagBits.toNat := by
  obtain rfl | rfl := ht
  · exact trunc_eq_truncated t 8
  · exact trunc_eq_truncated t 16

/-- The tag the statements give the message `p`, under the key `k`. -/
def messageTag (p : Nat → Block) (n : BitVec 16) (tagBits : BitVec 8) (k : Key) : Block :=
  truncated (cmacOf (Config.encryptBlock k) p n.toNat) tagBits.toNat

theorem sectorTag_of_inputIs (ht : tagBits = 64 ∨ tagBits = 128) (hn : 1 ≤ n.toNat) (hp : InputIs s n.toNat p)
    (k : Key) : sectorTag Config.platform k tagBits n s = .ok (messageTag p n tagBits k) := by
  simp only [sectorTag, messageTag, readBlocks_of_inputIs hp, trunc_of_tagBits ht, Config.platform_enc,
    cmac_map_range _ p hn]

/-! ### The commands on a written message (R134, R136) -/

/-- R242: with a legal tag size and N, the key fetch is the one check left. -/
theorem cmacCheck_eq_keyFetch (ht : tagBits = 64 ∨ tagBits = 128) (hn : 1 ≤ n.toNat)
    (hmax : n.toNat ≤ Config.maxBlocks) :
    cmacCheck Config.platform form tagBits n s = keyFetch Config.platform form .key0 .enc s := by
  simp only [cmacCheck, checkTagBits, if_pos ht, checkN_of_le hn (pf := Config.platform) hmax]

/-- R101: the SLOT form of a key fetch, from a valid slot. -/
theorem keyFetch_slot_of_some {pf : Platform} {r : KeyReg} {o : Orientation} {k : SlotKeys} (h : s.getSlot r = some k) :
    keyFetch pf .slot r o s = .ok (k.oriented o) := by
  simp only [keyFetch, h]

/-- R101: the RAW form of a key fetch, from a register whose schedule gives a key. -/
theorem keyFetch_raw_of_some {pf : Platform} {r : KeyReg} {o : Orientation} {k : Key}
    (h : schedule pf o (s.getKey r) = some k) : keyFetch pf .raw r o s = .ok k := congrArg orRejected h

/-- R101: the RAW form of a key fetch, from a register whose schedule fails. -/
theorem keyFetch_raw_of_none {pf : Platform} {r : KeyReg} {o : Orientation} (h : schedule pf o (s.getKey r) = none) :
    keyFetch pf .raw r o s = .error .keyRejected := congrArg orRejected h

/-- A key fetch looks at the key register and the slot of its number alone. -/
theorem keyFetch_congr (pf : Platform) (form : KeyForm) {r : KeyReg} (o : Orientation) {s s' : State}
    (hkey : s'.getKey r = s.getKey r) (hslot : s'.getSlot r = s.getSlot r) :
    keyFetch pf form r o s' = keyFetch pf form r o s := by
  cases form with
  | raw => simp only [keyFetch, hkey]
  | slot => simp only [keyFetch, hslot]

variable (ht : tagBits = 64 ∨ tagBits = 128) (hn : 1 ≤ n.toNat) (hmax : n.toNat ≤ Config.maxBlocks)
  (hp : InputIs s n.toNat p)
include ht hn hmax

theorem cmacDigest_of_error {e : ErrCode} (h : keyFetch Config.platform form .key0 .enc s = .error e) :
    cmacDigestCommand Config.platform form tagBits n s = .next (completed s e) :=
  complete_of_error ((cmacCheck_eq_keyFetch ht hn hmax).trans h)

theorem cmacVerify_of_error {e : ErrCode} (h : keyFetch Config.platform form .key0 .enc s = .error e) :
    cmacVerifyCommand Config.platform form tagBits n s = .next (completed s e) :=
  complete_of_error ((cmacCheck_eq_keyFetch ht hn hmax).trans h)

include hp

theorem cmacDigest_of_key {k : Key} (h : keyFetch Config.platform form .key0 .enc s = .ok k) :
    cmacDigestCommand Config.platform form tagBits n s =
      .next (completed { s with tag := messageTag p n tagBits k } .ok) :=
  complete_of_ok ((cmacCheck_eq_keyFetch ht hn hmax).trans h) (by simp only [sectorTag_of_inputIs ht hn hp])

theorem cmacVerify_of_key {k : Key} (h : keyFetch Config.platform form .key0 .enc s = .ok k) :
    cmacVerifyCommand Config.platform form tagBits n s = .next (completed { s with
      status := { s.status with valid := decide (messageTag p n tagBits k = s.tag) } } .ok) :=
  complete_of_ok ((cmacCheck_eq_keyFetch ht hn hmax).trans h) (by simp only [sectorTag_of_inputIs ht hn hp])

/-- With a key, the digest and the acceptance of the verify leave the message and the key as they are, so the verify
compares TAG with the tag that the digest put there. -/
theorem cmacVerify_after_digest {k : Key} (h : keyFetch Config.platform form .key0 .enc s = .ok k) (w : Word) :
    ∃ t u, cmacDigestCommand Config.platform form tagBits n s = .next t ∧
      cmacVerifyCommand Config.platform form tagBits n (t.accept w) = .next u ∧
      u.status.err = .ok ∧ u.status.valid = true ∧ u.tag = t.tag := by
  have hverify := cmacVerify_of_key (s := (completed { s with tag := messageTag p n tagBits k } .ok).accept w)
    ht hn hmax hp ((keyFetch_congr _ form .enc rfl rfl).trans h)
  exact ⟨_, _, cmacDigest_of_key ht hn hmax hp h, hverify, rfl, decide_eq_true rfl, rfl⟩

end Command

/-! ### The obligations -/

/-- Settles O32: a valid SLOT0 gives its ENC key. -/
theorem cmacDigestSlotResult : Obligations.CmacDigestSlotResult :=
  fun _ _ _ _ _ ht hn hmax hslot hp => cmacDigest_of_key ht hn hmax hp (keyFetch_slot_of_some hslot)

/-- Settles O33, by whether the schedule of KEY0 gives a key. -/
theorem cmacDigestRawResult : Obligations.CmacDigestRawResult := by
  intro tagBits n s p ht hn hmax hp
  cases hk : Config.ksEnc s.key0 with
  | none => exact cmacDigest_of_error ht hn hmax (keyFetch_raw_of_none hk)
  | some k => exact cmacDigest_of_key ht hn hmax hp (keyFetch_raw_of_some hk)

/-- Settles O34: a valid SLOT0 gives its ENC key. -/
theorem cmacVerifySlotResult : Obligations.CmacVerifySlotResult :=
  fun _ _ _ _ _ ht hn hmax hslot hp => cmacVerify_of_key ht hn hmax hp (keyFetch_slot_of_some hslot)

/-- Settles O35, by whether the schedule of KEY0 gives a key. -/
theorem cmacVerifyRawResult : Obligations.CmacVerifyRawResult := by
  intro tagBits n s p ht hn hmax hp
  cases hk : Config.ksEnc s.key0 with
  | none => exact cmacVerify_of_error ht hn hmax (keyFetch_raw_of_none hk)
  | some k => exact cmacVerify_of_key ht hn hmax hp (keyFetch_raw_of_some hk)

/-- Settles O54: with a key the tag verifies; a RAW form whose schedule fails is rejected twice, and VALID stays as the
acceptance of the verify cleared it (R91). -/
theorem digestThenVerifyIsValid : Obligations.DigestThenVerifyIsValid := by
  intro tagBits n s p w ht hn hmax hp
  refine ⟨fun hslot => ?slot, ?raw⟩
  case slot =>
    obtain ⟨k, hk⟩ := Option.isSome_iff_exists.1 hslot
    exact cmacVerify_after_digest ht hn hmax hp (keyFetch_slot_of_some hk) w
  case raw =>
    cases hk : Config.ksEnc s.key0 with
    | none =>
      have hdigest := cmacDigest_of_error ht hn hmax (keyFetch_raw_of_none hk)
      have hverify := cmacVerify_of_error (s := (completed s .keyRejected).accept w) ht hn hmax
        (keyFetch_raw_of_none hk)
      exact ⟨_, _, hdigest, hverify, rfl, rfl, rfl⟩
    | some k =>
      obtain ⟨t, u, hdigest, hverify, herr, hvalid, htag⟩ :=
        cmacVerify_after_digest ht hn hmax hp (keyFetch_raw_of_some hk) w
      exact ⟨t, u, hdigest, hverify, htag, herr, hvalid⟩

end Sys2Proof.Machine
end

section
/-! Sector commands on a written sector (40_primitives.md R110): what a command with its keys writes, what a command
and the one that undoes it leave of DATA, and the keys that KEYSCHED of both slots (R112) leaves for them. -/

namespace Sys2Proof.Machine

open Sys2Proof.Claims

/-! ### The bytes of a sector -/

/-- Memories whose block `i` reads as the same block have the same bytes there. -/
theorem read_eq_of_readBlock {m m' : Memory} {i a : Nat} {b : Block} (h : readBlock m i = .ok b)
    (h' : readBlock m' i = .ok b) (hlo : blockOffset i ≤ a) (hhi : a < blockOffset i + 16) :
    Memory.read m a = Memory.read m' a := by
  obtain ⟨j, rfl⟩ := Nat.exists_eq_add_of_le hlo
  have hj : j < 16 := by omega
  obtain ⟨-, hbytes⟩ := (Memory.readLe_eq_some 16).1 (readBlock_eq_ok.1 h)
  obtain ⟨-, hbytes'⟩ := (Memory.readLe_eq_some 16).1 (readBlock_eq_ok.1 h')
  rw [hbytes j hj, hbytes' j hj]

/-- Memories with the same sector of `n` blocks, and the same bytes outside it, are the same at every offset. -/
theorem read_eq_of_sector {m m' : Memory} {n : Nat} {p : Nat → Block} (h : ∀ i, i < n → readBlock m i = .ok (p i))
    (h' : ∀ i, i < n → readBlock m' i = .ok (p i))
    (houtside : ∀ a, ¬(0x1000 ≤ a ∧ a < 0x1000 + 16 * n) → Memory.read m a = Memory.read m' a) (a : Nat) :
    Memory.read m a = Memory.read m' a := by
  by_cases ha : 0x1000 ≤ a ∧ a < 0x1000 + 16 * n
  · have hi : (a - 0x1000) / 16 < n := by omega
    exact read_eq_of_readBlock (h _ hi) (h' _ hi) (by unfold blockOffset; omega) (by unfold blockOffset; omega)
  · exact houtside a ha

/-! ### The blocks of a sector as a list -/

theorem map_range_succ (f : Nat → Block) (n : Nat) :
    (List.range (n + 1)).map f = f 0 :: (List.range n).map fun i => f (i + 1) := by
  rw [List.range_succ_eq_map, List.map_cons, List.map_map]
  rfl

theorem headD_map_range (f : Nat → Block) (n : Nat) (b : Block) :
    ((List.range n).map f).headD b = if n = 0 then b else f 0 := by
  cases n with
  | zero => rfl
  | succ n => rw [map_range_succ, if_neg n.succ_ne_zero]; rfl

theorem getLastD_map_range (f : Nat → Block) {n : Nat} (hn : 1 ≤ n) (b : Block) :
    ((List.range n).map f).getLastD b = f (n - 1) := by
  obtain ⟨n, rfl⟩ := Nat.exists_eq_add_of_le' hn
  simp [List.range_succ]

/-! ### A sector command with its keys -/

/-- R93, R110: once it has its keys, a sector command that takes the blocks `p` to the blocks `out` writes them over its
input. -/
theorem sectorWritten_of_keys {κ : Type} {checked : Except ErrCode κ} {f : κ → List Block → List Block}
    {s : State} {n : Nat} {p out : Nat → Block} {k : κ} (hkeys : checked = .ok k) (hp : InputIs s n p)
    (hout : f k ((List.range n).map p) = (List.range n).map out) :
    SectorWritten s n out (complete checked (fun k => transformSector n (f k) s) s) := by
  have hwork : transformSector n (f k) s = .ok { s with data := writeBlocks s.data 0 ((List.range n).map out) } := by
    simp only [transformSector, readBlocks_of_inputIs hp, hout]
  refine ⟨_, complete_of_ok hkeys hwork, fun i hi => ?inside, fun a ha => ?outside⟩
  case inside =>
    have hread := readBlock_writeBlocks ((List.range n).map out) s.data 0 (j := i) (by simpa using hi)
    simpa using hread
  case outside =>
    refine read_writeBlocks_of_outside _ _ ?_
    simp only [blockOffset, List.length_map, List.length_range]
    omega

/-- Only the blocks below `n` of what a sector command writes matter. -/
theorem sectorWritten_congr {s : State} {n : Nat} {out out' : Nat → Block} {r : Host.Outcome State Fault Refusal}
    (h : SectorWritten s n out r) (heq : ∀ i, i < n → out i = out' i) : SectorWritten s n out' r := by
  obtain ⟨m, hr, hinside, houtside⟩ := h
  exact ⟨m, hr, fun i hi => heq i hi ▸ hinside i hi, houtside⟩

/-- R94: a command whose input is written completes. -/
theorem exec_next_of_inputIs {i : Instr} {s : State} {p : Nat → Block} (hp : InputIs s (blocksRead i) p) :
    ∃ t, exec i s = .next t := by
  rcases exec_answers i s with ⟨e, -, hx⟩ | ⟨f, hread, -⟩ | ⟨u, -, hx⟩
  · exact ⟨_, hx⟩
  · exact nomatch hread.symm.trans (readBlocks_of_inputIs hp)
  · exact ⟨_, hx⟩

/-! ### A command and the one that undoes it -/

/-- The state `s` after a sector command has left `m` in DATA and the word `w` has been accepted. -/
def reissued (s : State) (m : Memory) (w : Word) : State := (completed { s with data := m } .ok).accept w

/-- The command `f`, and `g` issued after it as the word `w`, complete with ERR = 0 and leave every DATA byte as
before. -/
def Restores (f g : State → Host.Outcome State Fault Refusal) (s : State) (w : Word) : Prop :=
  ∃ t u, f s = .next t ∧ g (t.accept w) = .next u ∧ t.status.err = .ok ∧ u.status.err = .ok ∧
    ∀ a, Memory.read u.data a = Memory.read s.data a

/-- The command `f`, and `g` issued after it as the word `w`, complete, and leave every DATA byte as before if both have
ERR = 0. -/
def RestoresIfOk (f g : State → Host.Outcome State Fault Refusal) (s : State) (w : Word) : Prop :=
  ∃ t u, f s = .next t ∧ g (t.accept w) = .next u ∧
    (t.status.err = .ok → u.status.err = .ok → ∀ a, Memory.read u.data a = Memory.read s.data a)

section RoundTrip

variable {f g : State → Host.Outcome State Fault Refusal} {s : State} {n : Nat} {p out : Nat → Block} {w : Word}

theorem Restores.ifOk (h : Restores f g s w) : RestoresIfOk f g s w := by
  obtain ⟨t, u, ht, hu, -, -, hdata⟩ := h
  exact ⟨t, u, ht, hu, fun _ _ => hdata⟩

/-- A command that writes `out` over `p`, and one that writes `p` over `out`, restore DATA. -/
theorem restores_of_sectorWritten (hp : InputIs s n p) (hf : SectorWritten s n out (f s))
    (hg : ∀ m, InputIs (reissued s m w) n out → SectorWritten (reissued s m w) n p (g (reissued s m w))) :
    Restores f g s w := by
  obtain ⟨m, ht, hinside, houtside⟩ := hf
  obtain ⟨m', hu, hinside', houtside'⟩ := hg m hinside
  exact ⟨_, _, ht, hu, rfl, rfl,
    read_eq_of_sector hinside' hp fun a ha => (houtside' a ha).trans (houtside a ha)⟩

/-- A rejected first command leaves the input to the second, which then completes too. -/
theorem restoresIfOk_of_first_rejected {j : Instr} (hp : InputIs s (blocksRead j) p)
    (hf : f s = .next (completed s .keyRejected)) : RestoresIfOk f (exec j) s w := by
  obtain ⟨u, hu⟩ := exec_next_of_inputIs (i := j) (s := (completed s .keyRejected).accept w) hp
  exact ⟨_, u, hf, hu, nofun⟩

theorem restoresIfOk_of_second_rejected (hf : SectorWritten s n out (f s))
    (hg : ∀ m, g (reissued s m w) = .next (completed (reissued s m w) .keyRejected)) : RestoresIfOk f g s w := by
  obtain ⟨m, ht, -, -⟩ := hf
  exact ⟨_, _, ht, hg m, fun _ => nofun⟩

end RoundTrip

/-! ### KEYSCHED of both slots (R112) -/

theorem bothSchedules_eq_some {k : RawKey} {keys : SlotKeys} (h : bothSchedules k = some keys) :
    Config.ksEnc k = some keys.kenc ∧ Config.ksDec k = some keys.kdec := by
  unfold bothSchedules at h
  split at h
  · rename_i ke kd he hd
    obtain rfl := Option.some.inj h
    exact ⟨he, hd⟩
  · cases h

/-- R112: KEYSCHED of both slots writes both, or is rejected. -/
theorem keysched_both_cases (s : State) :
    (∃ k0 k1, bothSchedules s.key0 = some k0 ∧ bothSchedules s.key1 = some k1 ∧
      exec (.keysched 3) s = .next (completed { s with slot0 := some k0, slot1 := some k1 } .ok)) ∨
    exec (.keysched 3) s = .next (completed s .keyRejected) := by
  have hslot : ∀ (r : RawKey) (old : KeySlot), slotAfter true r old = (bothSchedules r).map some := fun _ _ => rfl
  have hq := keyschedResult 3 s
  rw [show (3 : BitVec 2).getLsbD 0 = true from rfl, show (3 : BitVec 2).getLsbD 1 = true from rfl, hslot, hslot] at hq
  cases h0 : bothSchedules s.key0 with
  | none => exact .inr (by rw [hq, h0]; rfl)
  | some k0 =>
    cases h1 : bothSchedules s.key1 with
    | none => exact .inr (by rw [hq, h0, h1]; rfl)
    | some k1 => exact .inl ⟨k0, k1, rfl, rfl, by rw [hq, h0, h1]; rfl⟩

end Sys2Proof.Machine
end

section
/-! CMC_ENC and CMC_DEC (42_cmc.md R150 to R155): the passes over a sector by the index of the block, their
inverses, and the two commands on a written sector. -/

namespace Sys2Proof.Machine

open Sys2Proof.Claims

/-! ### The mask (R151, R152) -/

theorem cmcMask_map_range (x : Nat → Block) {n : Nat} (hn : 1 ≤ n) :
    cmcMask ((List.range n).map x) = alpha (x 0 ^^^ x (n - 1)) := by
  rw [cmcMask, headD_map_range, getLastD_map_range x hn, if_neg (by omega)]

theorem xorAll_map_range (m : Block) (x : Nat → Block) (n : Nat) :
    xorAll m ((List.range n).map x) = (List.range n).map fun i => x i ^^^ m := List.map_map

theorem xorAll_xorAll (m : Block) (x : List Block) : xorAll m (xorAll m x) = x := by
  rw [xorAll, xorAll, List.map_map]
  exact List.map_id'' (fun b => xor_cancel_right b m) x

/-- The mask is the same on both sides of the masking: it cancels between the first block and the last. -/
theorem cmcMask_xorAll (m : Block) (x : List Block) : cmcMask (xorAll m x) = cmcMask x := by
  cases x with
  | nil => rfl
  | cons b bs =>
    have hlast : (xorAll m (b :: bs)).getLastD 0 = (b :: bs).getLastD 0 ^^^ m := by
      simp only [xorAll, List.getLastD_eq_getLast?, List.getLast?_map, List.getLast?_cons, Option.map_some,
        Option.getD_some]
    have hcancel (x y : Block) : x ^^^ m ^^^ (y ^^^ m) = x ^^^ y := by
      rw [BitVec.xor_comm y m, ← BitVec.xor_assoc, xor_cancel_right]
    rw [cmcMask, hlast]
    exact congrArg alpha (hcancel _ _)

/-! ### Encryption (R151) -/

/-- The chain of ForwardCBC from the second block on is the chain of the rest, from the first result. -/
theorem cbcBlock_succ (e : Block → Block) (t : Block) (p : Nat → Block) (i : Nat) :
    cbcBlock e t p (i + 1) = cbcBlock e (e (p 0 ^^^ t)) (fun j => p (j + 1)) i := by
  induction i with
  | zero => rfl
  | succ i ih => rw [cbcBlock, ih]; rfl

theorem cbcForward_map_range (e : Block → Block) (t : Block) (p : Nat → Block) (n : Nat) :
    cbcForward e t ((List.range n).map p) = (List.range n).map (cbcBlock e t p) := by
  induction n generalizing t p with
  | zero => rfl
  | succ n ih =>
    simp only [map_range_succ, cbcForward, ih, cbcBlock_succ]
    rfl

theorem cmcReverse_map_range (e : Block → Block) (t : Block) (c : Nat → Block) (n : Nat) :
    cmcReverse e t ((List.range n).map c) =
      (List.range n).map fun i => e (c i) ^^^ if i + 1 = n then t else c (i + 1) := by
  induction n generalizing c with
  | zero => rfl
  | succ n ih =>
    simp only [map_range_succ, cmcReverse, ih, headD_map_range, Nat.add_right_cancel_iff, Nat.zero_add,
      eq_comm (a := 0)]

/-- R151: `CMC_Encrypt` of the sector `p`, block by block. -/
theorem cmcEncrypt_map_range (e : Block → Block) (t : Block) (p : Nat → Block) {n : Nat} (hn : 1 ≤ n) :
    cmcEncrypt e t ((List.range n).map p) = (List.range n).map (cmcEncBlock e t p n) := by
  have hlast (i : Nat) : i + 1 = n ↔ i = n - 1 := by omega
  simp only [cmcEncrypt, cbcForward_map_range, cmcMask_map_range _ hn, xorAll_map_range, cmcReverse_map_range, hlast]
  rfl

/-! ### Decryption (R152) -/

/-- Above the first block, the first pass of decryption over `n + 1` blocks is the pass over the rest. -/
theorem cmcUpBlock_of_lt (d : Block → Block) (t : Block) (c : Nat → Block) {n k : Nat} (hk : k < n) :
    cmcUpBlock d t c (n + 1) k = cmcUpBlock d t (fun j => c (j + 1)) n k := by
  induction k with
  | zero => rw [cmcUpBlock, cmcUpBlock, show n + 1 - 1 = n - 1 + 1 by omega]
  | succ k ih =>
    rw [cmcUpBlock, cmcUpBlock, ih (by omega), show n + 1 - 1 - (k + 1) = n - 1 - (k + 1) + 1 by omega]

/-- The first block is the last that the first pass of decryption reaches. -/
theorem cmcUpBlock_last (d : Block → Block) (t : Block) (c : Nat → Block) (n : Nat) :
    cmcUpBlock d t c (n + 1) n =
      d (c 0 ^^^ if n = 0 then t else cmcUpBlock d t (fun j => c (j + 1)) n (n - 1)) := by
  cases n with
  | zero => rfl
  | succ n =>
    rw [cmcUpBlock, cmcUpBlock_of_lt d t c n.lt_succ_self, if_neg n.succ_ne_zero, Nat.add_sub_cancel,
      Nat.sub_self, Nat.add_sub_cancel]

theorem cmcUnreverse_map_range (d : Block → Block) (t : Block) (c : Nat → Block) (n : Nat) :
    cmcUnreverse d t ((List.range n).map c) = (List.range n).map fun i => cmcUpBlock d t c n (n - 1 - i) := by
  induction n generalizing c with
  | zero => rfl
  | succ n ih =>
    have htail : ∀ i ∈ List.range n, cmcUpBlock d t (fun j => c (j + 1)) n (n - 1 - i) =
        cmcUpBlock d t c (n + 1) (n + 1 - 1 - (i + 1)) := by
      intro i hi
      have hi : i < n := List.mem_range.1 hi
      rw [show n + 1 - 1 - (i + 1) = n - 1 - i by omega, cmcUpBlock_of_lt d t c (by omega)]
    rw [map_range_succ, map_range_succ, cmcUnreverse, ih, headD_map_range, List.map_congr_left htail,
      Nat.sub_zero, Nat.sub_zero, Nat.add_sub_cancel, cmcUpBlock_last]

theorem cbcBackward_map_range (d : Block → Block) (t : Block) (c : Nat → Block) (n : Nat) :
    cbcBackward d t ((List.range n).map c) =
      (List.range n).map fun i => d (c i) ^^^ if i = 0 then t else c (i - 1) := by
  induction n generalizing t c with
  | zero => rfl
  | succ n ih =>
    have hchain (i : Nat) : (if i = 0 then c 0 else c (i - 1 + 1)) = c i := by
      cases i <;> rfl
    simp only [map_range_succ, cbcBackward, ih, hchain]
    rfl

/-- R152: `CMC_Decrypt` of the sector `c`, block by block. -/
theorem cmcDecrypt_map_range (d : Block → Block) (t : Block) (c : Nat → Block) {n : Nat} (hn : 1 ≤ n) :
    cmcDecrypt d t ((List.range n).map c) = (List.range n).map (cmcDecBlock d t c n) := by
  simp only [cmcDecrypt, cmcUnreverse_map_range, cmcMask_map_range _ hn, xorAll_map_range, cbcBackward_map_range]
  rfl

/-! ### Decryption undoes encryption (R155) -/

section Inverse

variable {e d : Block → Block} (h : ∀ x, d (e x) = x)
include h

theorem cmcUnreverse_cmcReverse (t : Block) (x : List Block) : cmcUnreverse d t (cmcReverse e t x) = x := by
  induction x with
  | nil => rfl
  | cons c cs ih => rw [cmcReverse, cmcUnreverse, ih, xor_cancel_right, h]

theorem cbcBackward_cbcForward (t : Block) (p : List Block) : cbcBackward d t (cbcForward e t p) = p := by
  induction p generalizing t with
  | nil => rfl
  | cons b bs ih => rw [cbcForward, cbcBackward, ih, h, xor_cancel_right]

theorem cmcDecrypt_cmcEncrypt (t : Block) (p : List Block) : cmcDecrypt d t (cmcEncrypt e t p) = p := by
  simp only [cmcDecrypt, cmcEncrypt, cmcUnreverse_cmcReverse h, cmcMask_xorAll, xorAll_xorAll,
    cbcBackward_cbcForward h]

/-- R155, block by block. -/
theorem cmcDecBlock_cmcEncBlock (t : Block) (p : Nat → Block) {n i : Nat} (hi : i < n) :
    cmcDecBlock d t (cmcEncBlock e t p n) n i = p i := by
  have hn : 1 ≤ n := by omega
  have hsector : (List.range n).map (cmcDecBlock d t (cmcEncBlock e t p n) n) = (List.range n).map p := by
    rw [← cmcDecrypt_map_range d t _ hn, ← cmcEncrypt_map_range e t p hn, cmcDecrypt_cmcEncrypt h]
  exact List.map_inj_left.1 hsector i (List.mem_range.2 hi)

end Inverse

/-! ### The commands on a written sector (R153, R154) -/

section Command

variable {form : KeyForm} {o : Orientation} {n : BitVec 16} {s : State} {p : Nat → Block} {k0 k1 : Key}
  (hn : 2 ≤ n.toNat) (hmax : n.toNat ≤ Config.maxBlocks)
include hn hmax

theorem cmcCheck_of_keys (h0 : keyFetch Config.platform form .key0 o s = .ok k0)
    (h1 : keyFetch Config.platform form .key1 .enc s = .ok k1) :
    cmcCheck Config.platform form o n s = .ok (k0, k1) := by
  simp only [cmcCheck, checkN_of_le hn (pf := Config.platform) hmax, h0, h1]

/-- R101, R102: the RAW forms schedule KEY0 in the one orientation they use and KEY1 for encryption. -/
theorem cmcCheck_raw_rejected
    (h : schedule Config.platform o s.key0 = none ∨ schedule Config.platform .enc s.key1 = none) :
    cmcCheck Config.platform .raw o n s = .error .keyRejected := by
  have hcheckN := checkN_of_le hn (pf := Config.platform) hmax
  cases h0 : schedule Config.platform o s.key0 with
  | none => simp only [cmcCheck, hcheckN, keyFetch_raw_of_none (r := .key0) h0]
  | some k0 =>
    have h1 : schedule Config.platform .enc s.key1 = none := by simpa [h0] using h
    simp only [cmcCheck, hcheckN, keyFetch_raw_of_some (r := .key0) h0, keyFetch_raw_of_none (r := .key1) h1]

/-- CMC_ENC with its two keys, in both forms. -/
theorem cmcEnc_of_keys (hp : InputIs s n.toNat p) (h0 : keyFetch Config.platform form .key0 .enc s = .ok k0)
    (h1 : keyFetch Config.platform form .key1 .enc s = .ok k1) :
    SectorWritten s n.toNat (cmcEncBlock (Config.encryptBlock k0)
      (Config.encryptBlock k1 (s.p0.setWidth 128)) p n.toNat) (cmcEncCommand Config.platform form n s) :=
  sectorWritten_of_keys (cmcCheck_of_keys hn hmax h0 h1) hp (cmcEncrypt_map_range _ _ p (by omega))

/-- CMC_DEC with its two keys, in both forms. -/
theorem cmcDec_of_keys (hp : InputIs s n.toNat p) (h0 : keyFetch Config.platform form .key0 .dec s = .ok k0)
    (h1 : keyFetch Config.platform form .key1 .enc s = .ok k1) :
    SectorWritten s n.toNat (cmcDecBlock (Config.decryptBlock k0)
      (Config.encryptBlock k1 (s.p0.setWidth 128)) p n.toNat) (cmcDecCommand Config.platform form n s) :=
  sectorWritten_of_keys (cmcCheck_of_keys hn hmax h0 h1) hp (cmcDecrypt_map_range _ _ p (by omega))

/-- R155: with the keys of both orientations, CMC_DEC undoes CMC_ENC, in both forms. -/
theorem cmc_restores {kd : Key} {w : Word} (hp : InputIs s n.toNat p)
    (he : keyFetch Config.platform form .key0 .enc s = .ok k0)
    (hd : keyFetch Config.platform form .key0 .dec s = .ok kd)
    (h1 : keyFetch Config.platform form .key1 .enc s = .ok k1)
    (hinverse : ∀ x, Config.decryptBlock kd (Config.encryptBlock k0 x) = x) :
    Restores (cmcEncCommand Config.platform form n) (cmcDecCommand Config.platform form n) s w := by
  refine restores_of_sectorWritten hp (cmcEnc_of_keys hn hmax hp he h1) fun m hout => ?_
  have hdec := cmcDec_of_keys (s := reissued s m w) hn hmax hout ((keyFetch_congr _ form .dec rfl rfl).trans hd)
    ((keyFetch_congr _ form .enc rfl rfl).trans h1)
  exact sectorWritten_congr hdec fun i hi => cmcDecBlock_cmcEncBlock hinverse _ p hi

/-- The RAW forms, by which schedules give keys. -/
theorem cmcRaw_restoresIfOk {w : Word} (hp : InputIs s n.toNat p) :
    RestoresIfOk (exec (.cmcEncRaw n)) (exec (.cmcDecRaw n)) s w := by
  cases he : Config.ksEnc s.key0 with
  | none => exact restoresIfOk_of_first_rejected hp (complete_of_error (cmcCheck_raw_rejected hn hmax (.inl he)))
  | some ke =>
    cases h1 : Config.ksEnc s.key1 with
    | none => exact restoresIfOk_of_first_rejected hp (complete_of_error (cmcCheck_raw_rejected hn hmax (.inr h1)))
    | some k1 =>
      cases hd : Config.ksDec s.key0 with
      | none =>
        exact restoresIfOk_of_second_rejected
          (cmcEnc_of_keys hn hmax hp (keyFetch_raw_of_some he) (keyFetch_raw_of_some h1))
          fun _ => complete_of_error (cmcCheck_raw_rejected hn hmax (.inl hd))
      | some kd =>
        exact (cmc_restores (form := .raw) hn hmax hp (keyFetch_raw_of_some he) (keyFetch_raw_of_some hd)
          (keyFetch_raw_of_some h1) (Config.decrypt_encrypt he hd)).ifOk

end Command

/-! ### The obligations -/

/-- Settles O36: valid slots give the ENC keys of both. -/
theorem cmcEncSlotResult : Obligations.CmcEncSlotResult :=
  fun _ _ _ _ _ hn hmax hslot0 hslot1 hp =>
    cmcEnc_of_keys hn hmax hp (keyFetch_slot_of_some hslot0) (keyFetch_slot_of_some hslot1)

/-- Settles O37, by whether the schedules of KEY0 and KEY1 give keys. -/
theorem cmcEncRawResult : Obligations.CmcEncRawResult := by
  intro n s p hn hmax hp
  cases h0 : Config.ksEnc s.key0 with
  | none => exact complete_of_error (cmcCheck_raw_rejected hn hmax (.inl h0))
  | some k0 =>
    cases h1 : Config.ksEnc s.key1 with
    | none => exact complete_of_error (cmcCheck_raw_rejected hn hmax (.inr h1))
    | some k1 => exact cmcEnc_of_keys hn hmax hp (keyFetch_raw_of_some h0) (keyFetch_raw_of_some h1)

/-- Settles O38: valid slots give the DEC key of SLOT0 and the ENC key of SLOT1. -/
theorem cmcDecSlotResult : Obligations.CmcDecSlotResult :=
  fun _ _ _ _ _ hn hmax hslot0 hslot1 hp =>
    cmcDec_of_keys hn hmax hp (keyFetch_slot_of_some hslot0) (keyFetch_slot_of_some hslot1)

/-- Settles O39, by whether the schedules of KEY0 and KEY1 give keys. -/
theorem cmcDecRawResult : Obligations.CmcDecRawResult := by
  intro n s p hn hmax hp
  cases h0 : Config.ksDec s.key0 with
  | none => exact complete_of_error (cmcCheck_raw_rejected hn hmax (.inl h0))
  | some k0 =>
    cases h1 : Config.ksEnc s.key1 with
    | none => exact complete_of_error (cmcCheck_raw_rejected hn hmax (.inr h1))
    | some k1 => exact cmcDec_of_keys hn hmax hp (keyFetch_raw_of_some h0) (keyFetch_raw_of_some h1)

/-- Settles O50: the RAW forms by which schedules give keys; the SLOT forms by whether the KEYSCHED is rejected, each
slot then holding both schedules of its register (R112). -/
theorem cmcRoundTrip : Obligations.CmcRoundTrip := by
  intro n s p w w' hn hmax hp
  refine ⟨cmcRaw_restoresIfOk hn hmax hp, ?slot⟩
  case slot =>
    rcases keysched_both_cases s with ⟨k0, k1, hk0, -, hq⟩ | hq
    · obtain ⟨he, hd⟩ := bothSchedules_eq_some hk0
      have hrestores := cmc_restores (form := .slot) (w := w')
        (s := (completed { s with slot0 := some k0, slot1 := some k1 } .ok).accept w) hn hmax hp
        (keyFetch_slot_of_some rfl) (keyFetch_slot_of_some rfl) (keyFetch_slot_of_some rfl)
        (Config.decrypt_encrypt he hd)
      exact ⟨_, hq, fun _ => hrestores⟩
    · exact ⟨_, hq, nofun⟩

end Sys2Proof.Machine
end

section
/-! XTS_ENC and XTS_DEC (43_xts.md R170 to R174). The two commands are one command of the model, in the two orientations
of the data key; so each result is proved once, for every orientation. -/

namespace Sys2Proof.Machine

open Sys2Proof.Claims

/-! ### The transform (R170, R171) -/

/-- R171: the XTS transform of the sector `p`, block by block. -/
theorem xtsBlocks_map_range (f : Block → Block) (t : Block) (p : Nat → Block) (n : Nat) :
    xtsBlocks f t ((List.range n).map p) = (List.range n).map (xtsBlock f t p) := by
  refine List.ext_getElem (by simp) fun i hi _ => ?_
  rw [List.getElem_eq_iff, xtsBlocks_getElem f t _ i (by simpa using hi)]
  simp [xtsBlock]

/-- The two tweaks of a block cancel around inverse block functions. -/
theorem xtsBlock_xtsBlock {e d : Block → Block} (h : ∀ x, d (e x) = x) (t : Block) (p : Nat → Block) (i : Nat) :
    xtsBlock d t (xtsBlock e t p) i = p i := by
  rw [xtsBlock, xtsBlock, xor_cancel_right, h, xor_cancel_right]

/-! ### The command on a written sector (R172, R173) -/

theorem KeysOrRejected.eq_rejected {κ : Type} {checked : Except ErrCode κ} {hasKeys : Bool}
    (h : KeysOrRejected checked hasKeys) (hnone : hasKeys = false) : checked = .error .keyRejected := by
  cases h with
  | keys k => cases hnone
  | rejected => rfl

section Command

variable {form : KeyForm} {o : Orientation} {n : BitVec 16} {s : State} {p : Nat → Block} {k0 k1 : Key}
  (hn : 1 ≤ n.toNat) (hmax : n.toNat ≤ Config.maxBlocks)
include hn hmax

theorem xtsCheck_of_keys (h0 : keyFetch Config.platform form .key0 o s = .ok k0)
    (h1 : keyFetch Config.platform form .key1 .enc s = .ok k1) :
    xtsCheck Config.platform form o n s = .ok (k0, k1) := by
  simp only [xtsCheck, checkN_of_le hn (pf := Config.platform) hmax, h0, h1]

/-- R101, R102: the RAW forms schedule KEY0 in the one orientation they use and KEY1 for encryption. -/
theorem xtsRaw_rejected
    (h : schedule Config.platform o s.key0 = none ∨ schedule Config.platform .enc s.key1 = none) :
    xtsCommand Config.platform .raw o n s = .next (completed s .keyRejected) := by
  have hkeys := xtsCheck_keys (checkN_of_le hn (pf := Config.platform) hmax)
    (keyFetch_raw_keys Config.platform .key0 o s) (keyFetch_raw_keys Config.platform .key1 .enc s)
  have hnone := h.imp (congrArg Option.isSome) (congrArg Option.isSome)
  exact complete_of_error (hkeys.eq_rejected (Bool.and_eq_false_iff.2 hnone))

/-- The command with its two keys, in both forms. -/
theorem xts_of_keys (hp : InputIs s n.toNat p) (h0 : keyFetch Config.platform form .key0 o s = .ok k0)
    (h1 : keyFetch Config.platform form .key1 .enc s = .ok k1) :
    SectorWritten s n.toNat (xtsBlock (crypt Config.platform o k0)
      (Config.encryptBlock k1 (s.p0.setWidth 128)) p) (xtsCommand Config.platform form o n s) :=
  sectorWritten_of_keys (xtsCheck_of_keys hn hmax h0 h1) hp (xtsBlocks_map_range _ _ p _)

/-- The RAW forms, by whether the schedules of KEY0 and KEY1 give keys. -/
theorem xtsRaw_result (o : Orientation) (hp : InputIs s n.toNat p) :
    match schedule Config.platform o s.key0, schedule Config.platform .enc s.key1 with
    | some k0, some k1 => SectorWritten s n.toNat (xtsBlock (crypt Config.platform o k0)
        (Config.encryptBlock k1 (s.p0.setWidth 128)) p) (xtsCommand Config.platform .raw o n s)
    | _, _ => xtsCommand Config.platform .raw o n s = .next (completed s .keyRejected) := by
  cases h0 : schedule Config.platform o s.key0 with
  | none => exact xtsRaw_rejected hn hmax (.inl h0)
  | some k0 =>
    cases h1 : schedule Config.platform .enc s.key1 with
    | none => exact xtsRaw_rejected hn hmax (.inr h1)
    | some k1 => exact xts_of_keys hn hmax hp (keyFetch_raw_of_some h0) (keyFetch_raw_of_some h1)

/-! ### Decryption undoes encryption (R173) -/

/-- With the data keys of both orientations, XTS_DEC undoes XTS_ENC, in both forms. -/
theorem xts_restores {kd : Key} {w : Word} (hp : InputIs s n.toNat p)
    (he : keyFetch Config.platform form .key0 .enc s = .ok k0)
    (hd : keyFetch Config.platform form .key0 .dec s = .ok kd)
    (h1 : keyFetch Config.platform form .key1 .enc s = .ok k1)
    (hinverse : ∀ x, Config.decryptBlock kd (Config.encryptBlock k0 x) = x) :
    Restores (xtsCommand Config.platform form .enc n) (xtsCommand Config.platform form .dec n) s w := by
  refine restores_of_sectorWritten hp (xts_of_keys hn hmax hp he h1) fun m hout => ?_
  have hdec := xts_of_keys (s := reissued s m w) hn hmax hout ((keyFetch_congr _ form .dec rfl rfl).trans hd)
    ((keyFetch_congr _ form .enc rfl rfl).trans h1)
  exact sectorWritten_congr hdec fun i _ => xtsBlock_xtsBlock hinverse _ p i

/-- The RAW forms, by which schedules give keys. -/
theorem xtsRaw_restoresIfOk {w : Word} (hp : InputIs s n.toNat p) :
    RestoresIfOk (exec (.xtsEncRaw n)) (exec (.xtsDecRaw n)) s w := by
  cases he : Config.ksEnc s.key0 with
  | none => exact restoresIfOk_of_first_rejected hp (xtsRaw_rejected hn hmax (.inl he))
  | some ke =>
    cases h1 : Config.ksEnc s.key1 with
    | none => exact restoresIfOk_of_first_rejected hp (xtsRaw_rejected hn hmax (.inr h1))
    | some k1 =>
      cases hd : Config.ksDec s.key0 with
      | none =>
        exact restoresIfOk_of_second_rejected
          (xts_of_keys hn hmax hp (keyFetch_raw_of_some he) (keyFetch_raw_of_some h1))
          fun _ => xtsRaw_rejected hn hmax (.inl hd)
      | some kd =>
        exact (xts_restores (form := .raw) hn hmax hp (keyFetch_raw_of_some he) (keyFetch_raw_of_some hd)
          (keyFetch_raw_of_some h1) (Config.decrypt_encrypt he hd)).ifOk

end Command

/-! ### The obligations -/

/-- Settles O40: valid slots give the ENC keys of both. -/
theorem xtsEncSlotResult : Obligations.XtsEncSlotResult :=
  fun _ _ _ _ _ hn hmax hslot0 hslot1 hp =>
    xts_of_keys (o := .enc) hn hmax hp (keyFetch_slot_of_some hslot0) (keyFetch_slot_of_some hslot1)

/-- Settles O41: the RAW form that schedules KEY0 for encryption. -/
theorem xtsEncRawResult : Obligations.XtsEncRawResult :=
  fun _ _ _ hn hmax hp => xtsRaw_result hn hmax .enc hp

/-- Settles O42: valid slots give the DEC key of SLOT0 and the ENC key of SLOT1. -/
theorem xtsDecSlotResult : Obligations.XtsDecSlotResult :=
  fun _ _ _ _ _ hn hmax hslot0 hslot1 hp =>
    xts_of_keys (o := .dec) hn hmax hp (keyFetch_slot_of_some hslot0) (keyFetch_slot_of_some hslot1)

/-- Settles O43: the RAW form that schedules KEY0 for decryption. -/
theorem xtsDecRawResult : Obligations.XtsDecRawResult :=
  fun _ _ _ hn hmax hp => xtsRaw_result hn hmax .dec hp

/-- Settles O51: the RAW forms by which schedules give keys; the SLOT forms by whether the KEYSCHED is rejected, each
slot then holding both schedules of its register (R112). -/
theorem xtsRoundTrip : Obligations.XtsRoundTrip := by
  intro n s p w w' hn hmax hp
  refine ⟨xtsRaw_restoresIfOk hn hmax hp, ?slot⟩
  case slot =>
    rcases keysched_both_cases s with ⟨k0, k1, hk0, -, hq⟩ | hq
    · obtain ⟨he, hd⟩ := bothSchedules_eq_some hk0
      have hrestores := xts_restores (form := .slot) (w := w')
        (s := (completed { s with slot0 := some k0, slot1 := some k1 } .ok).accept w) hn hmax hp
        (keyFetch_slot_of_some rfl) (keyFetch_slot_of_some rfl) (keyFetch_slot_of_some rfl)
        (Config.decrypt_encrypt he hd)
      exact ⟨_, hq, fun _ => hrestores⟩
    · exact ⟨_, hq, nofun⟩

end Sys2Proof.Machine
end

section
/-! HEH_ENC and HEH_DEC (44_heh.md R190 to R196). The stages `ψ` and `ψ⁻¹` on a sector with its last block set apart, by
which they undo each other, and by the index of the block; then the two commands, which are one command of the model in
the two orientations of the ECB stage's key. -/

namespace Sys2Proof.Machine

open Sys2Proof.Claims

/-! ### The stages undo each other (R192, R193) -/

/-- R192: `ψ` of a sector whose last block is `x`. -/
theorem psi_concat (tau x : Block) (b : List Block) :
    psi tau (b ++ [x]) = hehMaskBlocks (hehAccumulate tau b ^^^ x) (alpha (alpha tau)) b ++
      [hehAccumulate tau b ^^^ x ^^^ alpha tau] := by
  simp [psi]

/-- R193: `ψ⁻¹` of a sector whose last block is `x`. -/
theorem psiInv_concat (tau x : Block) (u : List Block) :
    psiInv tau (u ++ [x]) = hehMaskBlocks (x ^^^ alpha tau) (alpha (alpha tau)) u ++
      [x ^^^ alpha tau ^^^ hehAccumulate tau (hehMaskBlocks (x ^^^ alpha tau) (alpha (alpha tau)) u)] := by
  simp [psiInv]

/-- The same masks a second time cancel. -/
theorem hehMaskBlocks_hehMaskBlocks (y e : Block) (b : List Block) :
    hehMaskBlocks y e (hehMaskBlocks y e b) = b := by
  induction b generalizing e with
  | nil => rfl
  | cons x b ih =>
    have hcancel : x ^^^ y ^^^ e ^^^ y ^^^ e = x := by
      rw [BitVec.xor_assoc x, BitVec.xor_assoc (x ^^^ (y ^^^ e)), xor_cancel_right]
    rw [hehMaskBlocks, hehMaskBlocks, ih, hcancel]

/-- `ψ⁻¹` finds the `Y` of `ψ` in the last block: the masks cancel, and so does the accumulator of the blocks. -/
theorem psiInv_psi (tau : Block) {b : List Block} (hb : b ≠ []) : psiInv tau (psi tau b) = b := by
  obtain ⟨b, x, rfl⟩ := (List.eq_nil_or_concat' b).resolve_left hb
  rw [psi_concat, psiInv_concat, xor_cancel_right, hehMaskBlocks_hehMaskBlocks,
    BitVec.xor_comm (hehAccumulate tau b), xor_cancel_right]

/-- `ψ` finds the `Y` of `ψ⁻¹` by the accumulator of the same blocks. -/
theorem psi_psiInv (tau : Block) {u : List Block} (hu : u ≠ []) : psi tau (psiInv tau u) = u := by
  obtain ⟨u, x, rfl⟩ := (List.eq_nil_or_concat' u).resolve_left hu
  rw [psiInv_concat, psi_concat, BitVec.xor_comm (hehAccumulate tau _), xor_cancel_right,
    hehMaskBlocks_hehMaskBlocks, xor_cancel_right]

/-- Hash, ECB and unhash undo themselves where the ECB stages do (R194). -/
theorem hehTransform_hehTransform {e d : Block → Block} (h : ∀ x, d (e x) = x) (tau : Block) {b : List Block}
    (hb : b ≠ []) : hehTransform d tau (hehTransform e tau b) = b := by
  have hpsi : (psi tau b).map e ≠ [] := by
    rw [← List.length_pos_iff, List.length_map, psi_length tau hb]
    exact List.length_pos_iff.2 hb
  have hecb : ((psi tau b).map e).map d = psi tau b := by
    rw [List.map_map]
    exact List.map_id'' h _
  rw [hehTransform, hehTransform, psi_psiInv tau hpsi, hecb, psiInv_psi tau hb]

/-! ### The stages by the index of the block (R191 to R194) -/

theorem map_range_concat (f : Nat → Block) (n : Nat) :
    (List.range (n + 1)).map f = (List.range n).map f ++ [f n] := by
  rw [List.range_succ, List.map_append, List.map_singleton]

theorem hehAccumulate_map_range (tau : Block) (b : Nat → Block) (n : Nat) :
    hehAccumulate tau ((List.range n).map b) = hehAcc tau b n := by
  induction n with
  | zero => rfl
  | succ n ih =>
    rw [map_range_concat, hehAccumulate, List.foldl_append, ← hehAccumulate, ih]
    rfl

theorem hehMaskBlocks_map_range (y e : Block) (b : Nat → Block) (n : Nat) :
    hehMaskBlocks y e ((List.range n).map b) = (List.range n).map fun i => b i ^^^ y ^^^ alpha^[i] e := by
  refine List.ext_getElem (by simp) fun i hi _ => ?_
  rw [List.getElem_eq_iff, hehMaskBlocks_getElem y e _ i (by simpa using hi)]
  simp

/-- A sector by the index of the block, with its last block set apart. -/
theorem map_range_ite_last (f : Nat → Block) (x : Block) (n : Nat) :
    ((List.range (n + 1)).map fun i => if i = n then x else f i) = (List.range n).map f ++ [x] := by
  have hbelow : ∀ i ∈ List.range n, (if i = n then x else f i) = f i :=
    fun i hi => if_neg (Nat.ne_of_lt (List.mem_range.1 hi))
  rw [map_range_concat, List.map_congr_left hbelow, if_pos rfl]

/-- R192: `ψ` of the sector `b`, block by block. -/
theorem psi_map_range (tau : Block) (b : Nat → Block) {n : Nat} (hn : 1 ≤ n) :
    psi tau ((List.range n).map b) = (List.range n).map (psiBlock tau b n) := by
  obtain ⟨n, rfl⟩ := Nat.exists_eq_add_of_le' hn
  rw [map_range_concat, psi_concat, hehAccumulate_map_range, hehMaskBlocks_map_range, ← map_range_ite_last]
  rfl

/-- R193: `ψ⁻¹` of the sector `u`, block by block. -/
theorem psiInv_map_range (tau : Block) (u : Nat → Block) {n : Nat} (hn : 1 ≤ n) :
    psiInv tau ((List.range n).map u) = (List.range n).map (psiInvBlock tau u n) := by
  obtain ⟨n, rfl⟩ := Nat.exists_eq_add_of_le' hn
  rw [map_range_concat, psiInv_concat, hehMaskBlocks_map_range, hehAccumulate_map_range, ← map_range_ite_last]
  rfl

/-- R194: hash, ECB and unhash of the sector `p`, block by block. -/
theorem hehTransform_map_range (f : Block → Block) (tau : Block) (p : Nat → Block) {n : Nat} (hn : 1 ≤ n) :
    hehTransform f tau ((List.range n).map p) = (List.range n).map (hehBlock f tau p n) := by
  rw [hehTransform, psi_map_range tau p hn, List.map_map, psiInv_map_range tau _ hn]
  rfl

/-- Decryption undoes encryption, block by block. -/
theorem hehBlock_hehBlock {e d : Block → Block} (h : ∀ x, d (e x) = x) (tau : Block) (p : Nat → Block) {n i : Nat}
    (hi : i < n) : hehBlock d tau (hehBlock e tau p n) n i = p i := by
  have hn : 1 ≤ n := by omega
  have hne : (List.range n).map p ≠ [] :=
    List.length_pos_iff.1 (by rw [List.length_map, List.length_range]; exact hn)
  have hsector : (List.range n).map (hehBlock d tau (hehBlock e tau p n) n) = (List.range n).map p := by
    rw [← hehTransform_map_range d tau _ hn, ← hehTransform_map_range e tau p hn, hehTransform_hehTransform h tau hne]
  exact List.map_inj_left.1 hsector i (List.mem_range.2 hi)

/-! ### The command on a written sector (R195, R196) -/

section Command

variable {form : KeyForm} {o : Orientation} {n : BitVec 16} {s : State} {p : Nat → Block} {ke k : Key}
  (hn : 2 ≤ n.toNat) (hmax : n.toNat ≤ Config.maxBlocks)
include hn hmax

/-- The key for `τ` has the ENC orientation, that of the ECB stage the command's own. -/
theorem hehCheck_of_keys (he : keyFetch Config.platform form .key0 .enc s = .ok ke)
    (ho : keyFetch Config.platform form .key0 o s = .ok k) :
    hehCheck Config.platform form o n s = .ok (ke, k) := by
  have hcheckN := checkN_of_le hn (pf := Config.platform) hmax
  cases o with
  | enc =>
    obtain rfl : ke = k := Except.ok.inj (he.symm.trans ho)
    simp only [hehCheck, hcheckN, he]
  | dec => simp only [hehCheck, hcheckN, he, ho]

/-- R101, R102: the RAW forms schedule KEY0 for encryption, and in the orientation of the ECB stage. -/
theorem hehRaw_rejected
    (h : schedule Config.platform .enc s.key0 = none ∨ schedule Config.platform o s.key0 = none) :
    hehCommand Config.platform .raw o n s = .next (completed s .keyRejected) := by
  have hcheckN := checkN_of_le hn (pf := Config.platform) hmax
  have hfetch := fun o => keyFetch_raw_keys Config.platform .key0 o s
  refine complete_of_error ?_
  cases o with
  | enc => exact (hehCheck_enc_keys hcheckN (hfetch .enc)).eq_rejected (congrArg Option.isSome (or_self_iff.1 h))
  | dec =>
    have hnone := h.imp (congrArg Option.isSome) (congrArg Option.isSome)
    exact (hehCheck_dec_keys hcheckN (hfetch .enc) (hfetch .dec)).eq_rejected (Bool.and_eq_false_iff.2 hnone)

/-- The command with its keys, in both forms. -/
theorem heh_of_keys (hp : InputIs s n.toNat p) (he : keyFetch Config.platform form .key0 .enc s = .ok ke)
    (ho : keyFetch Config.platform form .key0 o s = .ok k) :
    SectorWritten s n.toNat (hehBlock (crypt Config.platform o k)
      (Config.encryptBlock ke (s.p0.setWidth 128)) p n.toNat) (hehCommand Config.platform form o n s) :=
  sectorWritten_of_keys (hehCheck_of_keys hn hmax he ho) hp (hehTransform_map_range _ _ p (by omega))

/-! ### Decryption undoes encryption (R194) -/

/-- With the keys of both orientations, HEH_DEC undoes HEH_ENC, in both forms: `τ` is the same for both. -/
theorem heh_restores {w : Word} (hp : InputIs s n.toNat p)
    (he : keyFetch Config.platform form .key0 .enc s = .ok ke)
    (hd : keyFetch Config.platform form .key0 .dec s = .ok k)
    (hinverse : ∀ x, Config.decryptBlock k (Config.encryptBlock ke x) = x) :
    Restores (hehCommand Config.platform form .enc n) (hehCommand Config.platform form .dec n) s w := by
  refine restores_of_sectorWritten hp (heh_of_keys hn hmax hp he he) fun m hout => ?_
  have hdec := heh_of_keys (s := reissued s m w) hn hmax hout ((keyFetch_congr _ form .enc rfl rfl).trans he)
    ((keyFetch_congr _ form .dec rfl rfl).trans hd)
  exact sectorWritten_congr hdec fun i hi => hehBlock_hehBlock hinverse _ p hi

/-- The RAW forms, by which schedules of KEY0 give keys. -/
theorem hehRaw_restoresIfOk {w : Word} (hp : InputIs s n.toNat p) :
    RestoresIfOk (exec (.hehEncRaw n)) (exec (.hehDecRaw n)) s w := by
  cases he : Config.ksEnc s.key0 with
  | none => exact restoresIfOk_of_first_rejected hp (hehRaw_rejected hn hmax (.inl he))
  | some ke =>
    have hfetch := keyFetch_raw_of_some (pf := Config.platform) (r := .key0) (o := .enc) he
    cases hd : Config.ksDec s.key0 with
    | none =>
      exact restoresIfOk_of_second_rejected (heh_of_keys hn hmax hp hfetch hfetch)
        fun _ => hehRaw_rejected hn hmax (.inr hd)
    | some kd =>
      exact (heh_restores hn hmax hp hfetch (keyFetch_raw_of_some hd) (Config.decrypt_encrypt he hd)).ifOk

end Command

/-- R112: KEYSCHED of SLOT0 alone writes it, or is rejected. -/
theorem keysched_slot0_cases (s : State) :
    (∃ k, bothSchedules s.key0 = some k ∧
      exec (.keysched 1) s = .next (completed { s with slot0 := some k } .ok)) ∨
    exec (.keysched 1) s = .next (completed s .keyRejected) := by
  have hq := keyschedResult 1 s
  have hslot0 : slotAfter ((1 : BitVec 2).getLsbD 0) s.key0 s.slot0 = (bothSchedules s.key0).map some := rfl
  have hslot1 : slotAfter ((1 : BitVec 2).getLsbD 1) s.key1 s.slot1 = some s.slot1 := rfl
  rw [hslot0, hslot1] at hq
  cases h0 : bothSchedules s.key0 with
  | none => exact .inr (by rw [hq, h0]; rfl)
  | some k => exact .inl ⟨k, rfl, by rw [hq, h0]; rfl⟩

/-! ### The obligations -/

/-- Settles O44: a valid SLOT0 gives its ENC key, for `τ` and for the ECB stage. -/
theorem hehEncSlotResult : Obligations.HehEncSlotResult :=
  fun _ _ _ _ hn hmax hslot hp =>
    heh_of_keys (o := .enc) hn hmax hp (keyFetch_slot_of_some hslot) (keyFetch_slot_of_some hslot)

/-- Settles O45, by whether the ENC schedule of KEY0 gives a key. -/
theorem hehEncRawResult : Obligations.HehEncRawResult := by
  intro n s p hn hmax hp
  cases he : Config.ksEnc s.key0 with
  | none => exact hehRaw_rejected hn hmax (.inl he)
  | some ke => exact heh_of_keys (o := .enc) hn hmax hp (keyFetch_raw_of_some he) (keyFetch_raw_of_some he)

/-- Settles O46: a valid SLOT0 gives its ENC key for `τ` and its DEC key for the ECB stage. -/
theorem hehDecSlotResult : Obligations.HehDecSlotResult :=
  fun _ _ _ _ hn hmax hslot hp =>
    heh_of_keys (o := .dec) hn hmax hp (keyFetch_slot_of_some hslot) (keyFetch_slot_of_some hslot)

/-- Settles O47, by whether the two schedules of KEY0 give keys. -/
theorem hehDecRawResult : Obligations.HehDecRawResult := by
  intro n s p hn hmax hp
  cases he : Config.ksEnc s.key0 with
  | none => exact hehRaw_rejected hn hmax (.inl he)
  | some ke =>
    cases hd : Config.ksDec s.key0 with
    | none => exact hehRaw_rejected hn hmax (.inr hd)
    | some kd => exact heh_of_keys (o := .dec) hn hmax hp (keyFetch_raw_of_some he) (keyFetch_raw_of_some hd)

/-- Settles O49: a sector of two blocks or more has a last block. -/
theorem psiInverts : Obligations.PsiInverts := by
  intro tau b hb
  have hne : b ≠ [] := List.length_pos_iff.1 (by omega)
  exact ⟨psiInv_psi tau hne, psi_psiInv tau hne⟩

/-- Settles O52: the RAW forms by which schedules give keys; the SLOT forms by whether the KEYSCHED is rejected, SLOT0
then holding both schedules of KEY0 (R112). -/
theorem hehRoundTrip : Obligations.HehRoundTrip := by
  intro n s p w w' hn hmax hp
  refine ⟨hehRaw_restoresIfOk hn hmax hp, ?slot⟩
  case slot =>
    rcases keysched_slot0_cases s with ⟨k, hk, hq⟩ | hq
    · obtain ⟨he, hd⟩ := bothSchedules_eq_some hk
      have hrestores := heh_restores (form := .slot) (w := w')
        (s := (completed { s with slot0 := some k } .ok).accept w) hn hmax hp
        (keyFetch_slot_of_some rfl) (keyFetch_slot_of_some rfl) (Config.decrypt_encrypt he hd)
      exact ⟨_, hq, fun _ => hrestores⟩
    · exact ⟨_, hq, nofun⟩

end Sys2Proof.Machine
end

section
/-! DEC_ENC and DEC_DEC (45_dec.md R210 to R219). Both are the one command `decCommand` of the model; so the result on a
written sector, and that the command undoes itself, are each proved once. -/

namespace Sys2Proof.Machine

open Sys2Proof.Claims

/-! ### The keystream (R215, R216) -/

/-- R215: the counter of block `t` is reduced to 64 bits, whether the sum is a number or a field. -/
theorem counterBlock_eq_cat (sector sectorCounter : DWord) (n t : Nat) :
    counterBlock sector.toNat sectorCounter.toNat n t =
      cat sector (sectorCounter * BitVec.ofNat 64 n + BitVec.ofNat 64 t) := by
  have hcounter : (sectorCounter * BitVec.ofNat 64 n + BitVec.ofNat 64 t).toNat =
      (sectorCounter.toNat * n + t) % 2 ^ 64 := by
    simp [BitVec.toNat_add, BitVec.toNat_mul]
  rw [cat_eq_cat64, hcounter, counterBlock, cat64, cat64, Nat.mod_mod]

/-- R216: the keystream over the sector `p`, block by block. -/
theorem keystreamXor_map_range (e : Block → Block) (s : State) (p : Nat → Block) (n : Nat) :
    keystreamXor e s.p2.toNat s.p3.toNat n 0 ((List.range n).map p) = (List.range n).map (decBlock e s p n) := by
  refine List.ext_getElem (by simp) fun t ht _ => ?_
  rw [List.getElem_eq_iff, keystreamXor_getElem e _ _ n 0 _ t (by simpa using ht), Nat.zero_add, counterBlock_eq_cat]
  simp [decBlock]

/-- R219: the same keystream twice cancels. -/
theorem decBlock_decBlock (e : Block → Block) (s : State) (p : Nat → Block) (n t : Nat) :
    decBlock e s (decBlock e s p n) n t = p t :=
  xor_cancel_right _ _

/-! ### The command on a written sector (R217, R218) -/

/-- The keystream key depends on KEY0 and the parameter registers only. -/
theorem decKey_congr (n : Nat) {s s' : State} (hkey : s'.key0 = s.key0) (h0 : s'.p0 = s.p0) (h1 : s'.p1 = s.p1)
    (h2 : s'.p2 = s.p2) (h3 : s'.p3 = s.p3) : decKey n s' = decKey n s := by
  unfold decKey
  rw [hkey, h0, h1, h2, h3]

section Command

variable {n : BitVec 16} {s : State} {p : Nat → Block}
  (hn : 1 ≤ n.toNat) (hmax : n.toNat ≤ Config.maxBlocks)
include hn hmax

theorem decCheck_of_range : decCheck Config.platform n s = orRejected (decKey n.toNat s) :=
  decCheck_eq (checkN_of_le hn (pf := Config.platform) hmax)

/-- R217: a KDF call or a schedule that fails rejects the key. -/
theorem dec_rejected (hkey : decKey n.toNat s = none) :
    decCommand Config.platform n s = .next (completed s .keyRejected) :=
  complete_of_error ((decCheck_of_range hn hmax).trans (congrArg orRejected hkey))

/-- The command with its keystream key. -/
theorem dec_of_key {ks : Key} (hp : InputIs s n.toNat p) (hkey : decKey n.toNat s = some ks) :
    SectorWritten s n.toNat (decBlock (Config.encryptBlock ks) s p n.toNat) (decCommand Config.platform n s) :=
  sectorWritten_of_keys ((decCheck_of_range hn hmax).trans (congrArg orRejected hkey)) hp
    (keystreamXor_map_range _ s p _)

/-- R219: with its keystream key, the command undoes itself, since it reads the same registers again. -/
theorem dec_restores {ks : Key} {w : Word} (hp : InputIs s n.toNat p) (hkey : decKey n.toNat s = some ks) :
    Restores (decCommand Config.platform n) (decCommand Config.platform n) s w := by
  refine restores_of_sectorWritten hp (dec_of_key hn hmax hp hkey) fun m hout => ?_
  have hagain := dec_of_key (s := reissued s m w) hn hmax hout
    ((decKey_congr n.toNat rfl rfl rfl rfl rfl).trans hkey)
  exact sectorWritten_congr hagain fun t _ => decBlock_decBlock (Config.encryptBlock ks) s p n.toNat t

/-- R217, R219: the command twice restores DATA: with a key by its keystream, and without one since each of the two is
rejected. -/
theorem dec_twice {w : Word} (hp : InputIs s n.toNat p) :
    ∃ t u, decCommand Config.platform n s = .next t ∧ decCommand Config.platform n (t.accept w) = .next u ∧
      ∀ a, Memory.read u.data a = Memory.read s.data a := by
  cases hkey : decKey n.toNat s with
  | none =>
    have hkey' : decKey n.toNat ((completed s .keyRejected).accept w) = none :=
      (decKey_congr n.toNat rfl rfl rfl rfl rfl).trans hkey
    exact ⟨_, _, dec_rejected hn hmax hkey, dec_rejected hn hmax hkey', fun _ => rfl⟩
  | some ks =>
    obtain ⟨t, u, ht, hu, -, -, hdata⟩ := dec_restores hn hmax hp hkey (w := w)
    exact ⟨t, u, ht, hu, hdata⟩

end Command

/-! ### The obligations -/

/-- Settles O48, by whether the KDF and the schedule give the keystream key; both commands are the one of the model. -/
theorem decResult : Obligations.DecResult := by
  intro n s p hn hmax hp
  cases hkey : decKey n.toNat s with
  | none => exact forall_mem_pair (dec_rejected hn hmax hkey) (dec_rejected hn hmax hkey)
  | some ks => exact forall_mem_pair (dec_of_key hn hmax hp hkey) (dec_of_key hn hmax hp hkey)

/-- Settles O53: each of the four orders is the one command of the model, twice. -/
theorem decRoundTrip : Obligations.DecRoundTrip := by
  intro n s p w hn hmax hp
  have htwice := dec_twice hn hmax hp (w := w)
  exact forall_mem_pair (forall_mem_pair htwice htwice) (forall_mem_pair htwice htwice)

end Sys2Proof.Machine
end

section
/-! What a completion with an error does, and the interrupt output (60_exceptions.md R242 to R246): the tag size is
checked first, the slots of a SLOT form before DATA. -/

namespace Sys2Proof.Machine

open Sys2Proof.Claims

/-! ### The completion step (R93, R243) -/

/-- Everything that a completion step leads to: the old state or the effect of a command, finished. -/
theorem completionStep_next_cases {s t : State} (h : completionStep s = .next t) :
    (∃ e, t = s.finish e) ∨ ∃ i u, Effect i s u ∧ t = u.finish .ok := by
  unfold completionStep at h
  cases hd : decode s.latch.word with
  | error _ =>
    simp only [hd] at h
    exact .inl ⟨.illegalCommand, (Host.Outcome.next.inj h).symm⟩
  | ok i =>
    simp only [hd] at h
    rcases exec_answers i s with ⟨e, -, hx⟩ | ⟨f, -, hx⟩ | ⟨u, hu, hx⟩
    · exact .inl ⟨e, Host.Outcome.next.inj (h.symm.trans hx)⟩
    · exact nomatch h.symm.trans hx
    · exact .inr ⟨i, u, hu, Host.Outcome.next.inj (h.symm.trans hx)⟩

/-- A completion sets DONE, so `irq` is then IRQEN (R246). -/
@[simp] theorem irq_finish (s : State) (e : ErrCode) : irq (s.finish e) = s.cfg.irqen := Bool.true_and _

theorem irq_eq_true_iff (s : State) : irq s = true ↔ s.status.done = true ∧ s.cfg.irqen = true :=
  Bool.and_eq_true_iff

/-! ### The checks that fail -/

/-- R101: the SLOT form of a key fetch, from an invalid slot. -/
theorem keyFetch_slot_of_none {pf : Platform} {r : KeyReg} {s : State} (o : Orientation) (h : s.getSlot r = none) :
    keyFetch pf .slot r o s = .error .keyNotScheduled := by
  simp only [keyFetch, h]

/-- R101: where one of two slots is invalid, the fetch from SLOT0 fails, or succeeds before the one from SLOT1 fails. -/
theorem keyFetch_slots_of_none {pf : Platform} {s : State} (o : Orientation) (h : s.slot0 = none ∨ s.slot1 = none) :
    keyFetch pf .slot .key0 o s = .error .keyNotScheduled ∨
    (∃ k, keyFetch pf .slot .key0 o s = .ok k) ∧ keyFetch pf .slot .key1 .enc s = .error .keyNotScheduled := by
  cases h0 : s.slot0 with
  | none => exact .inl (keyFetch_slot_of_none (r := .key0) o h0)
  | some k =>
    have h1 : s.slot1 = none := h.resolve_left (by simp [h0])
    exact .inr ⟨⟨_, keyFetch_slot_of_some (r := .key0) h0⟩, keyFetch_slot_of_none (r := .key1) .enc h1⟩

section Checks

variable {pf : Platform} {form : KeyForm} {o : Orientation} {tagBits : BitVec 8} {n : BitVec 16} {s : State}

/-- R134, R242: the tag size is the first check, before N and the key. -/
theorem cmacCheck_of_badTagBits (h64 : tagBits ≠ 64) (h128 : tagBits ≠ 128) :
    cmacCheck pf form tagBits n s = .error .invalidTagSize := by
  simp only [cmacCheck, checkTagBits, if_neg (not_or.2 ⟨h64, h128⟩)]

theorem xtsCheck_unscheduled (hn : checkN pf n.toNat 1 = .ok ()) (h : s.slot0 = none ∨ s.slot1 = none) :
    xtsCheck pf .slot o n s = .error .keyNotScheduled := by
  rcases keyFetch_slots_of_none (pf := pf) o h with h0 | ⟨⟨k, h0⟩, h1⟩
  · simp only [xtsCheck, hn, h0]
  · simp only [xtsCheck, hn, h0, h1]

theorem cmcCheck_unscheduled (hn : checkN pf n.toNat 2 = .ok ()) (h : s.slot0 = none ∨ s.slot1 = none) :
    cmcCheck pf .slot o n s = .error .keyNotScheduled := by
  rcases keyFetch_slots_of_none (pf := pf) o h with h0 | ⟨⟨k, h0⟩, h1⟩
  · simp only [cmcCheck, hn, h0]
  · simp only [cmcCheck, hn, h0, h1]

/-- The ENC orientation of SLOT0 is fetched first in both directions (R195, R196). -/
theorem hehCheck_unscheduled (hn : checkN pf n.toNat 2 = .ok ()) (h : s.slot0 = none) :
    hehCheck pf .slot o n s = .error .keyNotScheduled := by
  simp only [hehCheck, hn, keyFetch_slot_of_none (r := .key0) .enc h]

end Checks

/-! ### The obligations -/

/-- Settles O24: a completion that is not the old state finished has ERR = 0. -/
theorem errorCompletionChangesOnlyStatus : Obligations.ErrorCompletionChangesOnlyStatus := by
  intro s t h herr
  rcases completionStep_next_cases h with ⟨e, rfl⟩ | ⟨i, u, -, rfl⟩
  · rfl
  · exact absurd rfl herr

/-- Settles O28, family by family: the fetch from the invalid slot is the check that fails. -/
theorem unscheduledSlotCompletes : Obligations.UnscheduledSlotCompletes := by
  intro n tagBits s hmax
  have hcheckN {min : Nat} (h : min ≤ n.toNat) : checkN Config.platform n.toNat min = .ok () := checkN_of_le h hmax
  refine ⟨fun ht hn h => ?cmac, fun hn h => ?xts, fun hn h => ?cmc, fun hn h => ?heh⟩
  case cmac =>
    have hfetch := keyFetch_slot_of_none (pf := Config.platform) (r := .key0) .enc h
    exact forall_mem_pair (cmacDigest_of_error ht hn hmax hfetch) (cmacVerify_of_error ht hn hmax hfetch)
  case xts =>
    exact forall_mem_pair (complete_of_error (xtsCheck_unscheduled (hcheckN hn) h))
      (complete_of_error (xtsCheck_unscheduled (hcheckN hn) h))
  case cmc =>
    exact forall_mem_pair (complete_of_error (cmcCheck_unscheduled (hcheckN hn) h))
      (complete_of_error (cmcCheck_unscheduled (hcheckN hn) h))
  case heh =>
    exact forall_mem_pair (complete_of_error (hehCheck_unscheduled (hcheckN hn) h))
      (complete_of_error (hehCheck_unscheduled (hcheckN hn) h))

/-- Settles O23: the state finished, be it the old one or the effect of a command, has the old CFG. -/
theorem irqFollowsDoneAndEnable : Obligations.IrqFollowsDoneAndEnable := by
  refine ⟨irq_eq_true_iff, fun s t hv h => ?_⟩
  rw [engineTurn_latched hv] at h
  rcases completionStep_next_cases h with ⟨e, rfl⟩ | ⟨i, u, hu, rfl⟩
  · exact irq_finish s e
  · rw [irq_finish, hu.frame.cfg]

/-- Settles O26: both forms of both commands make the check of the tag size first. -/
theorem badTagSizeCompletes : Obligations.BadTagSizeCompletes := by
  intro tagBits n s h64 h128
  have hcheck (form : KeyForm) : cmacCheck Config.platform form tagBits n s = .error .invalidTagSize :=
    cmacCheck_of_badTagBits h64 h128
  exact ⟨complete_of_error (hcheck .raw), complete_of_error (hcheck .slot),
    complete_of_error (hcheck .raw), complete_of_error (hcheck .slot)⟩

end Sys2Proof.Machine
end

section
/-! The reset input, when the schedule gives it the turn (70_reset_and_hazards.md R270). -/

namespace Sys2Proof.Machine

/-- A schedule that is not used up says whose turn it is, whatever the state of the engine. -/
theorem takeTurn_of_turns_cons {s : State} {t : Turn} {ts : List Turn} (h : s.turns = t :: ts) :
    s.takeTurn = (t, { s with turns := ts }) := by
  rcases takeTurn_cases s with ⟨hnil, -, -⟩ | ⟨hnil, -, -⟩ | ⟨t', ts', hcons, htake⟩
  · exact nomatch h.symm.trans hnil
  · exact nomatch h.symm.trans hnil
  · obtain ⟨rfl, rfl⟩ := List.cons.inj (h.symm.trans hcons)
    exact htake

/-- Settles O7: the step is `assertReset` of the state whose turn is taken, and taking the turn leaves the host as it
was and the rest of the schedule. -/
theorem resetInputResetsEngine : Obligations.ResetInputResetsEngine := by
  intro s ts hturns
  have htake : s.takeTurn = (.reset, { s with turns := ts }) := takeTurn_of_turns_cons hturns
  calc step s
    _ = .next s.takeTurn.2.assertReset := step_of_reset (congrArg Prod.fst htake)
    _ = .next (State.assertReset { s with turns := ts }) := by rw [htake]
    _ = .next { State.reset with host := s.host, turns := ts } := rfl

end Sys2Proof.Machine
end
